-- ==== Sys2Proof/Word.lean ====
section
/-!
DEFINITION. The two word types of the block and the plainest helper over them.

R40, R45, R47: a command is one whole 64-bit word, a register read, a result and a list entry are whole
32-bit words. Nothing is byte-addressed, so there is no byte order.
-/

namespace Sys2Proof

/-- A 32-bit value: a register read, a result register, a code value of ALPHA or STR (R21, R27, R28, R42). -/
abbrev Word := BitVec 32

/-- A 64-bit command word (R41, R60). -/
abbrev Command := BitVec 64

/-- A natural number written to a 32-bit register. Every quantity the spec writes fits (R11). -/
abbrev word (n : Nat) : Word := BitVec.ofNat 32 n

end Sys2Proof
end

