-- ==== Sys2Proof/Syntax.lean ====
section
/-!
DEFINITION. The commands of the block: one constructor per row of spec/opcode_table.json.

A constructor carries exactly the operand fields its command reads (R63): `a` is field A, 16 bits, `b` is field
B, 32 bits. A field the command does not read is ignored (R73) and so is no part of the command. The `…R`
constructors are the rows with SA = 1, whose operand A is RES0 (R62, R64).
-/

namespace Sys2Proof

/-- The 28 commands of the block (R64). -/
inductive Instr where
  /-- NOP, R145. -/
  | nop
  /-- CLRSTAT, R146. -/
  | clrstat
  /-- GF.CFG d, R85. -/
  | gfCfg (a : BitVec 16)
  /-- GF.REDUCE bits, R86. -/
  | gfReduce (b : BitVec 32)
  /-- GF.ADD i, j, R87. -/
  | gfAdd (a : BitVec 16) (b : BitVec 32)
  /-- GF.MUL i, j, R88. -/
  | gfMul (a : BitVec 16) (b : BitVec 32)
  /-- GF.INV k, R89. -/
  | gfInv (a : BitVec 16)
  /-- GF.DIV a, b, R90. -/
  | gfDiv (a : BitVec 16) (b : BitVec 32)
  /-- QG.BUILD n, R104. -/
  | qgBuild (a : BitVec 16)
  /-- QG.MUL i, j, R105. -/
  | qgMul (a : BitVec 16) (b : BitVec 32)
  /-- QG.INV k, R107. -/
  | qgInv (a : BitVec 16)
  /-- AL.CLR, R122. -/
  | alClr
  /-- AL.PUSH c, R123. -/
  | alPush (b : BitVec 32)
  /-- AL.RD k, R124. -/
  | alRd (a : BitVec 16)
  /-- DM.INIT, R126. -/
  | dmInit
  /-- ST.CLR, R127. -/
  | stClr
  /-- ST.PUSH c, R128. -/
  | stPush (b : BitVec 32)
  /-- ST.RD k, R129. -/
  | stRd (a : BitVec 16)
  /-- DM.PROCESS, R130. -/
  | dmProcess
  /-- DM.VERIFY, R131. -/
  | dmVerify
  /-- DM.CHECK, R132. -/
  | dmCheck
  /-- DM.ENCODE, R133. -/
  | dmEncode
  /-- GF.ADD.R j, R87 with opA = RES0. -/
  | gfAddR (b : BitVec 32)
  /-- GF.MUL.R j, R88 with opA = RES0. -/
  | gfMulR (b : BitVec 32)
  /-- GF.INV.R, R89 with opA = RES0. -/
  | gfInvR
  /-- GF.DIV.R b, R90 with opA = RES0. -/
  | gfDivR (b : BitVec 32)
  /-- QG.MUL.R j, R105 with opA = RES0. -/
  | qgMulR (b : BitVec 32)
  /-- QG.INV.R, R107 with opA = RES0. -/
  | qgInvR
  deriving DecidableEq, Repr

/-- The five fields of the one command format C (R60), the parts of a word before any check. -/
structure Fields where
  /-- OP, W[63:56]. -/
  op : BitVec 8
  /-- RSV, W[55:49]. -/
  rsv : BitVec 7
  /-- SA, W[48]. -/
  sa : Bool
  /-- A, W[47:32]. -/
  a : BitVec 16
  /-- B, W[31:0]. -/
  b : BitVec 32
  deriving DecidableEq, Repr

end Sys2Proof
end

