-- ==== Sys2Proof/WellFormed.lean ====
section
/-!
DEFINITION. The three checks a command must pass before its own rule is reached (R65 to R68), written from the
spec's lists of what is reserved. Decode.lean is written from the opcode map R64 instead, and that the two agree
is a statement about the model.

The operand fields have no check: any value is accepted (R73), and their widths are in the types.
-/

namespace Sys2Proof

/-- R65: the OP values the spec reserves: 0x00, 0x03 to 0x0F, 0x16 to 0x1F, 0x23 to 0x2F, 0x3B to 0xFF. -/
def Fields.opReserved (f : Fields) : Bool :=
  let op := f.op.toNat
  op == 0x00 || (0x03 ≤ op && op ≤ 0x0F) || (0x16 ≤ op && op ≤ 0x1F) || (0x23 ≤ op && op ≤ 0x2F) || 0x3B ≤ op

/-- R66: the reserved field must be 0. -/
def Fields.rsvZero (f : Fields) : Bool := f.rsv == 0#7

/-- R67: SA = 1 is legal only with OP ∈ {0x12, 0x13, 0x14, 0x15, 0x21, 0x22}. -/
def Fields.saLegal (f : Fields) : Bool :=
  !f.sa || [0x12, 0x13, 0x14, 0x15, 0x21, 0x22].contains f.op.toNat

/-- R68: a legal command passes all three checks. -/
def Fields.wellFormed (f : Fields) : Bool := !f.opReserved && f.rsvZero && f.saLegal

end Sys2Proof
end

