-- ==== Sys2Proof/Decode.lean ====
section
/-!
DEFINITION. From a 64-bit command word to a command, and back (30_encoding.md).

The decoder is total: every word is one legal command or an illegal command with its DETAIL (R68). The encoder
after it is written from the same map (R64, R71).
-/

namespace Sys2Proof

/-! ### Field extraction (R61) -/

/-- The five fields of a command word: OP = W[63:56], RSV = W[55:49], SA = W[48], A = W[47:32], B = W[31:0]. -/
def Fields.ofWord (w : Command) : Fields where
  op := w.extractLsb' 56 8
  rsv := w.extractLsb' 49 7
  sa := w.getLsbD 48
  a := w.extractLsb' 32 16
  b := w.extractLsb' 0 32

/-- The word made of the five fields: {OP, RSV, SA, A, B}. -/
def Fields.toWord (f : Fields) : Command :=
  f.op ++ f.rsv ++ BitVec.ofBool f.sa ++ f.a ++ f.b

/-! ### The opcode map (R64) -/

/-- The command that OP selects when SA = 0 (R64); none for a reserved OP (R65). -/
def baseInstr (op : BitVec 8) (a : BitVec 16) (b : BitVec 32) : Option Instr :=
  match op with
  | 0x01#8 => some .nop
  | 0x02#8 => some .clrstat
  | 0x10#8 => some (.gfCfg a)
  | 0x11#8 => some (.gfReduce b)
  | 0x12#8 => some (.gfAdd a b)
  | 0x13#8 => some (.gfMul a b)
  | 0x14#8 => some (.gfInv a)
  | 0x15#8 => some (.gfDiv a b)
  | 0x20#8 => some (.qgBuild a)
  | 0x21#8 => some (.qgMul a b)
  | 0x22#8 => some (.qgInv a)
  | 0x30#8 => some .alClr
  | 0x31#8 => some (.alPush b)
  | 0x32#8 => some (.alRd a)
  | 0x33#8 => some .dmInit
  | 0x34#8 => some .stClr
  | 0x35#8 => some (.stPush b)
  | 0x36#8 => some (.stRd a)
  | 0x37#8 => some .dmProcess
  | 0x38#8 => some .dmVerify
  | 0x39#8 => some .dmCheck
  | 0x3A#8 => some .dmEncode
  | _ => none

/-- The command that OP selects when SA = 1 (R64); none where SA = 1 is not legal (R67). Field A is not read. -/
def chainedInstr (op : BitVec 8) (b : BitVec 32) : Option Instr :=
  match op with
  | 0x12#8 => some (.gfAddR b)
  | 0x13#8 => some (.gfMulR b)
  | 0x14#8 => some .gfInvR
  | 0x15#8 => some (.gfDivR b)
  | 0x21#8 => some (.qgMulR b)
  | 0x22#8 => some .qgInvR
  | _ => none

/-! ### The decoder (R65 to R68) -/

/-- Why a word is not a command (R65 to R67). -/
inductive Illegal where
  /-- R65: a reserved OP. -/
  | reservedOp
  /-- R66: a defined OP and RSV ≠ 0. -/
  | reservedBits
  /-- R67: SA = 1 on a command that does not allow it. -/
  | saNotAllowed
  deriving DecidableEq, Repr

/-- The DETAIL of IllegalCommand (R155). -/
def Illegal.detail : Illegal → Nat
  | .reservedOp => 1
  | .reservedBits => 2
  | .saNotAllowed => 3

/-- R68: the checks of R65, R66 and R67 in that order; the first that applies gives the error. -/
def decodeFields (f : Fields) : Except Illegal Instr :=
  match baseInstr f.op f.a f.b with
  | none => .error .reservedOp
  | some i =>
    if f.rsv ≠ 0#7 then .error .reservedBits
    else if f.sa then
      match chainedInstr f.op f.b with
      | some j => .ok j
      | none => .error .saNotAllowed
    else .ok i

/-- The decoder: total on every 64-bit word (R68). -/
def decode (w : Command) : Except Illegal Instr := decodeFields (Fields.ofWord w)

/-! ### The encoder (R71: W = {OP, 7'b0, SA, A, B}, every field an operand does not give is 0) -/

/-- The fields of a command's encoding. -/
def encodeFields (i : Instr) : Fields :=
  match i with
  | .nop => ⟨0x01#8, 0, false, 0, 0⟩
  | .clrstat => ⟨0x02#8, 0, false, 0, 0⟩
  | .gfCfg a => ⟨0x10#8, 0, false, a, 0⟩
  | .gfReduce b => ⟨0x11#8, 0, false, 0, b⟩
  | .gfAdd a b => ⟨0x12#8, 0, false, a, b⟩
  | .gfMul a b => ⟨0x13#8, 0, false, a, b⟩
  | .gfInv a => ⟨0x14#8, 0, false, a, 0⟩
  | .gfDiv a b => ⟨0x15#8, 0, false, a, b⟩
  | .qgBuild a => ⟨0x20#8, 0, false, a, 0⟩
  | .qgMul a b => ⟨0x21#8, 0, false, a, b⟩
  | .qgInv a => ⟨0x22#8, 0, false, a, 0⟩
  | .alClr => ⟨0x30#8, 0, false, 0, 0⟩
  | .alPush b => ⟨0x31#8, 0, false, 0, b⟩
  | .alRd a => ⟨0x32#8, 0, false, a, 0⟩
  | .dmInit => ⟨0x33#8, 0, false, 0, 0⟩
  | .stClr => ⟨0x34#8, 0, false, 0, 0⟩
  | .stPush b => ⟨0x35#8, 0, false, 0, b⟩
  | .stRd a => ⟨0x36#8, 0, false, a, 0⟩
  | .dmProcess => ⟨0x37#8, 0, false, 0, 0⟩
  | .dmVerify => ⟨0x38#8, 0, false, 0, 0⟩
  | .dmCheck => ⟨0x39#8, 0, false, 0, 0⟩
  | .dmEncode => ⟨0x3A#8, 0, false, 0, 0⟩
  | .gfAddR b => ⟨0x12#8, 0, true, 0, b⟩
  | .gfMulR b => ⟨0x13#8, 0, true, 0, b⟩
  | .gfInvR => ⟨0x14#8, 0, true, 0, 0⟩
  | .gfDivR b => ⟨0x15#8, 0, true, 0, b⟩
  | .qgMulR b => ⟨0x21#8, 0, true, 0, b⟩
  | .qgInvR => ⟨0x22#8, 0, true, 0, 0⟩

/-- The 64-bit word of a command. -/
def encode (i : Instr) : Command := (encodeFields i).toWord

/-- A command is well formed when its fields pass the checks of R65 to R67. -/
def Instr.wellFormed (i : Instr) : Bool := (encodeFields i).wellFormed

/-! ### Words as spec/opcode_table.json numbers them -/

/-- The command word whose low `nbits` bits are those of `w` and whose other bits are 0. The word is delivered
whole (R45, R47), so it has no byte order to lay out. -/
def tableWord (nbits w : Nat) : Command := BitVec.ofNat 64 (w % 2 ^ nbits)

/-- The command the decoder reads from a word of the opcode table; none where it refuses. -/
def decodeTableWord (nbits w : Nat) : Option Instr :=
  match decode (tableWord nbits w) with
  | .ok i => some i
  | .error _ => none

end Sys2Proof
end

