-- ==== Sys2Proof/Machine/Galois.lean ====
section
/-!
DEFINITION. The arithmetic of the GF unit, as pure functions on natural numbers (41_bgf.md section 1, R80 to R83),
with the two primitives of R11 and R12 it needs. The QG unit uses the same functions on its own field (R2).
-/

namespace Sys2Proof.Machine

/-- R12: `first p in [0, n) such that P(p)`, scanning upwards; none if there is none. -/
def first (n : Nat) (p : Nat → Bool) : Option Nat := (List.range n).find? p

/-- R11: the number of bits of `v`: 0 for 0, otherwise floor(log2 v) + 1. -/
def bitlen (v : Nat) : Nat := if v = 0 then 0 else Nat.log2 v + 1

/-- R80: the carry-less product: for each set bit of `j` at position `p`, XOR in `i` shifted left by `p`. -/
def clmul (i j : Nat) : Nat :=
  (List.range (bitlen j)).foldl (fun r p => if j.testBit p then r ^^^ (i <<< p) else r) 0

/-- R81, the loop: while `bits ≥ 2^d`, XOR in `poly` shifted so that its bit d meets the top bit of `bits`.
`fuel` bounds the number of turns. -/
def reduceLoop (d poly : Nat) : Nat → Nat → Nat
  | 0, bits => bits
  | fuel + 1, bits =>
    if 2 ^ d ≤ bits then reduceLoop d poly fuel (bits ^^^ (poly <<< (bitlen bits - 1 - d))) else bits

/-- R81: the remainder of `bits` modulo `poly`. Each turn lowers `bitlen bits` when bit d is the top bit of `poly`,
so `bitlen bits` turns are enough. DESIGN CHOICE (log 11): for a `poly` whose top bit is not bit d, which no run
gives it, the loop stops when the fuel is used up. -/
def reduce (d poly bits : Nat) : Nat := reduceLoop d poly (bitlen bits) bits

/-- R82: field multiplication. -/
def gfmul (d poly i j : Nat) : Nat := reduce d poly (clmul i j)

/-- R83: field inversion by search, the first `p` in [0, 2^d) with `gfmul p k = 1`. -/
def gfinv (d poly k : Nat) : Option Nat := first (2 ^ d) (fun p => gfmul d poly p k == 1)

/-- R17: `q` divides `p` as a polynomial over GF(2): the remainder of the long division of `p` by `q` (R81 with `q`
in the place of the field polynomial) is 0. -/
def polyDivides (q p : Nat) : Bool := reduce (bitlen q - 1) q p == 0

end Sys2Proof.Machine
end

