-- ==== Sys2Proof/Config.lean ====
section
/-!
DEFINITION. What is fixed when the block is built (R6, R31): this hardware's sizes, and the OPEN parameters IRRED, T10
and PLAT_BASE, which are uninterpreted. Also the predicates R14 to R16, in which the premises of R8 are stated.

The operations of the model take the parameters as an argument (R31). `Config.params` is the block's own, an opaque
constant: nothing can be proved of its values but what its type says.
-/

namespace Sys2Proof

/-! ### The predicates of 00_scope.md section 5 -/

/-- `f` is a bijection on [0, n). -/
abbrev BijectiveBelow (n : Nat) (f : Nat → Nat) : Prop :=
  (∀ j, j < n → f j < n) ∧ (∀ j, j < n → ∀ k, k < n → f j = f k → j = k) ∧ (∀ v, v < n → ∃ j, j < n ∧ f j = v)

/-- R14: an n×n table is a Latin square: every row and every column is a bijection on [0, n). -/
abbrev LatinSquare (n : Nat) (T : Nat → Nat → Nat) : Prop :=
  (∀ i, i < n → BijectiveBelow n (fun j => T i j)) ∧ (∀ j, j < n → BijectiveBelow n (fun i => T i j))

/-- R15: weak total anti-symmetry. -/
abbrev WeaklyAntiSymmetric (n : Nat) (T : Nat → Nat → Nat) : Prop :=
  ∀ i, i < n → ∀ j, j < n → ∀ k, k < n → j ≠ k → T (T i j) k ≠ T (T i k) j

/-- R16: strong total anti-symmetry. -/
abbrev StronglyAntiSymmetric (n : Nat) (T : Nat → Nat → Nat) : Prop :=
  ∀ i, i < n → ∀ j, j < n → i ≠ j → T i j ≠ T j i

/-! ### This hardware's values (R6) -/

namespace Config

/-- D_MAX, the largest GF degree. -/
def dMax : Nat := 8

/-- N_MAX = 2^D_MAX, the largest order and alphabet length (R9). -/
def nMax : Nat := 256

/-- S_MAX, the largest string length, an appended check character included. -/
def sMax : Nat := 256

/-- CHAR_MAX, the largest code value that counts as a single character. -/
def charMax : Nat := 0x10FFFF

/-- The value of the ID register. -/
def idValue : Word := 0x44414D4D#32

end Config

/-! ### The OPEN parameters -/

/-- R7: `p` is a value IRRED(d) may take: bit d is its top bit, it is odd, and no polynomial of degree 1 to d−1
divides it. DEDUCED (log 5): irreducibility is said by trial division. -/
abbrev Admissible (d p : Nat) : Prop :=
  2 ^ d ≤ p ∧ p < 2 ^ (d + 1) ∧ p % 2 = 1 ∧ ∀ q, q < 2 ^ d → 2 ≤ q → Machine.polyDivides q p = false

/-- R7, I1: the default IRRED, the smallest admissible polynomial of each degree. -/
def defaultIrred (d : Nat) : Nat := [0, 0x3, 0x7, 0xB, 0x13, 0x25, 0x43, 0x83, 0x11B].getD d 0

/-- I2: the reference T10, row by row. -/
def referenceT10 (i j : Nat) : Nat :=
  ([[0, 3, 1, 7, 5, 9, 8, 6, 4, 2],
    [7, 0, 9, 2, 1, 5, 4, 8, 6, 3],
    [4, 2, 0, 6, 8, 7, 1, 3, 5, 9],
    [1, 7, 5, 0, 9, 8, 3, 4, 2, 6],
    [6, 1, 2, 3, 0, 4, 5, 9, 7, 8],
    [3, 6, 7, 4, 2, 0, 9, 5, 8, 1],
    [5, 8, 6, 9, 7, 2, 0, 1, 3, 4],
    [8, 9, 4, 5, 3, 6, 2, 0, 1, 7],
    [9, 4, 3, 8, 6, 1, 7, 2, 0, 5],
    [2, 5, 8, 1, 4, 3, 6, 7, 9, 0]].getD i []).getD j 0

/-- The OPEN parameters of a block (D3, D5, D6), with what the spec requires of every value of them. The field defaults
are the spec's default IRRED and reference T10: they make `Params.reference`, and no other block is assumed to have
them. -/
structure Params where
  /-- IRRED(d), the irreducible polynomial of degree d (R7). Outside 1 ≤ d ≤ D_MAX the spec gives it no value, and it has
  none here (log 13). -/
  irred : Nat → Nat := defaultIrred
  /-- The premises of R7. -/
  irred_admissible : ∀ d, 1 ≤ d → d ≤ Config.dMax → Admissible d (irred d) := by decide +kernel
  /-- T10(i, j), the order-10 Cayley table (R8). Outside [0, 10) it has no value (log 13). -/
  t10 : Nat → Nat → Nat := referenceT10
  /-- R8: its entries are in [0, 10). T10_Latin and T10_WTA are no part of the type: a claim names them (R188). -/
  t10_lt : ∀ i, i < 10 → ∀ j, j < 10 → t10 i j < 10 := by decide +kernel
  /-- PLAT_BASE, where the platform places the two ports (R54, D3). No rule depends on it (log 8). -/
  platBase : Nat := 0
  deriving Inhabited

/-- R8, premise T10_Latin: the order-10 table is a Latin square. -/
abbrev Params.T10Latin (P : Params) : Prop := LatinSquare 10 P.t10

/-- R8, premise T10_WTA: the order-10 table is weakly totally anti-symmetric. -/
abbrev Params.T10WTA (P : Params) : Prop := WeaklyAntiSymmetric 10 P.t10

/-- The parameters of the spec's test vectors: default IRRED (I1), reference T10 (I2). -/
def Params.reference : Params := {}

namespace Config

/-- The parameters this block was built with: uninterpreted (D3, D5, D6 are OPEN). -/
opaque params : Params

/-- A free value (log 12): what a read of an ALPHA entry that does not exist would give. R27 says such an entry "cannot be
read", and no command reads one in a state a run reaches. -/
opaque absentEntry : Nat → Word

/-- A free value (log 13): the product of two numbers where no quasigroup has been built. R105 and R107 refuse to multiply there. -/
opaque noProduct : Nat → Nat → Nat

end Config

end Sys2Proof
end

