-- ==== Sys2Proof/Machine/State.lean ====
section
/-!
DEFINITION. The state of the block as plain data (10_state.md R20 to R34), the state after reset, and the reasons a step
could stop.

Natural-number registers are Nat (R10: every value is an unsigned natural number), 32-bit registers are bit vectors.
-/

namespace Sys2Proof.Machine

/-- QG_STRAT, the construction the dispatch selected (R26). Its codes 5 to 7 never occur and are not represented (I15). -/
inductive Strategy where
  /-- No quasigroup has been built (code 0). -/
  | none
  /-- The order-10 table (code 1). -/
  | fixed10
  /-- Odd order (code 2). -/
  | odd
  /-- Power of two (code 3). -/
  | pow2
  /-- Mixed composite (code 4). -/
  | composite
  deriving DecidableEq, Repr

/-- The GF context (R25): one configured field. -/
structure GfContext where
  /-- GF_VALID. -/
  valid : Bool
  /-- GF_DEG, the degree d. -/
  deg : Nat
  /-- GF_POLY, the polynomial. -/
  poly : Nat
  deriving DecidableEq, Repr

/-- The QG context (R26): one built quasigroup. -/
structure QgContext where
  /-- QG_VALID. -/
  valid : Bool
  /-- QG_STRAT. -/
  strat : Strategy
  /-- QG_ORDER, the order n. -/
  order : Nat
  /-- QG_DEG, the internal field degree; 0 for FIXED10 and ODD. -/
  deg : Nat
  /-- QG_M, the odd part: n for ODD, 1 for POW2, m for COMPOSITE, 0 for FIXED10. -/
  m : Nat
  /-- QG_POLY: IRRED(QG_DEG) for POW2 and COMPOSITE, 0 otherwise. -/
  poly : Nat
  deriving DecidableEq, Repr

/-- What a host can do to the block; it has no other move (R184). -/
inductive HostMove where
  /-- A write of one whole word to the command port (R41, R47). -/
  | command (w : Command)
  /-- A read of one register (R42). -/
  | read (a : BitVec 8)
  /-- The platform asserts reset and releases it (R175). `lost` are the words written while it was asserted, and a
  command that reset cut short: none of them has any effect (R178). -/
  | reset (lost : List Command)
  deriving DecidableEq, Repr

/-- The state of the block (R20), and the host's side of its two ports (the last two fields). -/
structure State where
  /-- STATUS: [3:0] CODE, [15:8] DETAIL, [31] STICKY, the other bits 0 (R23). -/
  status : Word
  /-- RES0 (R21). -/
  res0 : Word
  /-- RES1 (R21). -/
  res1 : Word
  /-- ERRPOS (R24). -/
  errpos : Word
  /-- GF_VALID, GF_DEG, GF_POLY (R25). -/
  gf : GfContext
  /-- QG_VALID, QG_STRAT, QG_ORDER, QG_DEG, QG_M, QG_POLY (R26). -/
  qg : QgContext
  /-- ALPHA, the alphabet list (R27). -/
  alpha : List Word
  /-- STR, the string list (R28). -/
  str : List Word
  /-- DM_VALID (R29). -/
  dmValid : Bool
  /-- The model's own (DESIGN CHOICE, log 1): what the host does next, in the order the port accepts it (R22, R49). -/
  hostMoves : List HostMove
  /-- The model's own (DESIGN CHOICE, log 2): the values register reads have given the host so far, oldest first. -/
  hostReplies : List Word
  deriving DecidableEq, Repr

/-- The state when reset is released (R34, R175): all registers 0, no context, empty lists. The host has done nothing yet. -/
def State.reset : State where
  status := 0#32
  res0 := 0#32
  res1 := 0#32
  errpos := 0#32
  gf := { valid := false, deg := 0, poly := 0 }
  qg := { valid := false, strat := .none, order := 0, deg := 0, m := 0, poly := 0 }
  alpha := []
  str := []
  dmValid := false
  hostMoves := []
  hostReplies := []

/-- Why a step could stop with a fault: for no reason. "The block itself never stops. It has no halt command, no terminal
state and no fault state" (R185); its errors are status (R150). Safe: the spec has no such behaviour to leave out. -/
inductive Fault where
  deriving DecidableEq, Repr

/-- Why a step could give a command no meaning. -/
inductive Refusal where
  /-- Said only by an arm of `exec` whose command has no meaning yet. Every command has one, so nothing raises it. Safe. -/
  | notModelled (mnemonic : String)
  deriving DecidableEq, Repr

end Sys2Proof.Machine
end

