-- ==== Sys2Proof/Machine/Flags.lean ====
section
/-!
DEFINITION. STATUS and its fields, the block's only flags (R23, R33), and the status codes (R151, R152, R155).
-/

namespace Sys2Proof.Machine

/-! ### The fields of STATUS (R23) -/

/-- STATUS.CODE, bits [3:0]. -/
def statusCode (st : Word) : BitVec 4 := st.extractLsb' 0 4

/-- STATUS.DETAIL, bits [15:8]. -/
def statusDetail (st : Word) : BitVec 8 := st.extractLsb' 8 8

/-- STATUS.STICKY, bit 31. -/
def statusSticky (st : Word) : Bool := st.getLsbD 31

/-- A STATUS value with its three fields; bits [7:4] and [30:16] are 0 (R23, log 15). -/
def statusWord (sticky : Bool) (detail : BitVec 8) (code : BitVec 4) : Word :=
  BitVec.ofBool sticky ++ 0#15 ++ detail ++ 0#4 ++ code

/-! ### The status codes -/

/-- The nine kinds of failure (R151): five of the source, four of this hardware. -/
inductive ErrorKind where
  /-- A value passed to field or quasigroup arithmetic is outside [0, order). -/
  | invalidElement
  /-- Inverse of the zero element, or a quasigroup search without a match. -/
  | noInverseExists
  /-- No quasigroup of this order is built. -/
  | unsupportedOrder
  /-- An entry of STR is not in ALPHA. -/
  | foreignCharacter
  /-- ALPHA has a duplicate or an entry that is no single character. -/
  | invalidAlphabet
  /-- No field of this degree is configured. -/
  | unsupportedDegree
  /-- The context a command needs is not built. -/
  | notConfigured
  /-- The word is no command. -/
  | illegalCommand
  /-- A list is full, or an index is past its end. -/
  | bufferRange
  deriving DecidableEq, Repr

/-- The CODE of a kind (R152). 0 is success. -/
def ErrorKind.code : ErrorKind → BitVec 4
  | .invalidElement => 1
  | .noInverseExists => 2
  | .unsupportedOrder => 3
  | .foreignCharacter => 4
  | .invalidAlphabet => 5
  | .unsupportedDegree => 6
  | .notConfigured => 7
  | .illegalCommand => 8
  | .bufferRange => 9

/-- The two kinds that name a list position in ERRPOS (R154). -/
def ErrorKind.positional : ErrorKind → Bool
  | .foreignCharacter => true
  | .invalidAlphabet => true
  | _ => false

/-- What a failing command reports: `raise E(detail, pos)` of R12. -/
structure Failure where
  /-- E, the kind. -/
  kind : ErrorKind
  /-- DETAIL (R155). -/
  detail : Nat
  /-- The list position, for the two positional kinds; 0 for a kind without one. -/
  pos : Nat := 0
  deriving DecidableEq, Repr

/-! ### STATUS after a command (R153) -/

/-- STATUS after a success: CODE 0, DETAIL 0, STICKY kept. -/
def statusOnSuccess (st : Word) : Word := statusWord (statusSticky st) 0 0

/-- STATUS after a failure: its CODE and DETAIL, STICKY set. -/
def statusOnFailure (f : Failure) : Word := statusWord true (BitVec.ofNat 8 f.detail) f.kind.code

/-- ERRPOS after a failure: the position for a positional kind, 0 for every other (R153, R154). -/
def errposOnFailure (f : Failure) : Word := if f.kind.positional then word f.pos else 0

end Sys2Proof.Machine
end

