-- ==== Sys2Proof/Machine/Operands.lean ====
section
/-!
DEFINITION. The operands of a command (R62, R63) and the validity of elements (R84, R155).
-/

namespace Sys2Proof.Machine

/-- Where operand A comes from: field A (SA = 0), or RES0 (SA = 1). -/
inductive Source where
  /-- SA = 0: field A of the word. -/
  | field (a : BitVec 16)
  /-- SA = 1: RES0 as it stands when the command starts. -/
  | res0
  deriving DecidableEq, Repr

/-- R62: opA = (SA = 1) ? RES0 : zext_32(A), an unsigned natural number. -/
def opA (src : Source) (s : State) : Nat :=
  match src with
  | .field a => a.toNat
  | .res0 => s.res0.toNat

/-- R62: opB = B, an unsigned natural number. -/
def opB (b : BitVec 32) : Nat := b.toNat

/-- The DETAIL of InvalidElement (R84, R155): bit 0 set if operand `a` is not below `order`, bit 1 if `b` is not. -/
def invalidMask (order a b : Nat) : Nat := (if order ≤ a then 1 else 0) ||| (if order ≤ b then 2 else 0)

end Sys2Proof.Machine
end

