-- ==== Sys2Proof/Machine/Ops.lean ====
section
/-!
DEFINITION. The named operations on the state: the writes of the registers and lists (R12), and the completion of a command,
where a failing command's error is taken (R153).
-/

namespace Sys2Proof.Machine

/-! ### Writes (R12: `REG <- v`) -/

/-- STATUS <- st. -/
def State.setStatus (s : State) (st : Word) : State := { s with status := st }

/-- ERRPOS <- p. -/
def State.setErrpos (s : State) (p : Word) : State := { s with errpos := p }

/-- RES0 <- r0; RES1 <- r1. -/
def State.setRes (s : State) (r0 r1 : Word) : State := { s with res0 := r0, res1 := r1 }

/-- The GF context is written as a whole (R25). -/
def State.setGf (s : State) (c : GfContext) : State := { s with gf := c }

/-- The QG context is written as a whole (R26). -/
def State.setQg (s : State) (c : QgContext) : State := { s with qg := c }

/-- ALPHA <- l. -/
def State.setAlpha (s : State) (l : List Word) : State := { s with alpha := l }

/-- STR <- l. -/
def State.setStr (s : State) (l : List Word) : State := { s with str := l }

/-- DM_VALID <- v. -/
def State.setDmValid (s : State) (v : Bool) : State := { s with dmValid := v }

/-- The host's moves still to come. -/
def State.setMoves (s : State) (l : List HostMove) : State := { s with hostMoves := l }

/-- The values the host has been given. -/
def State.setReplies (s : State) (l : List Word) : State := { s with hostReplies := l }

/-! ### List entries (R48) -/

/-- Entry k of ALPHA. The entry exists wherever a run reads it; an entry that does not is a free value (R27, log 12). -/
def State.alphaEntry (s : State) (k : Nat) : Word := s.alpha.getD k (Config.absentEntry k)

/-! ### Checks (R12: `raise E(detail)`) -/

/-- What a command rule computes: the state with its updates, or the failure it raises. -/
abbrev Result := Except Failure State

/-- `if c: raise f`, then go on. -/
def failIf (c : Bool) (f : Failure) (k : Result) : Result := if c then .error f else k

/-! ### Completion (R153) -/

/-- A command succeeds: its updates take effect, CODE <- 0, DETAIL <- 0; STICKY and ERRPOS keep their values. -/
def succeed (s : State) : State := s.setStatus (statusOnSuccess s.status)

/-- A command fails: CODE <- E, DETAIL <- t, STICKY <- 1, ERRPOS <- p or 0, and nothing else changes. This is the block's whole
error entry: it has no handler, vector, saved context or mode (R150, R160), and so no return from one (R161). -/
def raise (f : Failure) (s : State) : State := (s.setStatus (statusOnFailure f)).setErrpos (errposOnFailure f)

/-- R153: a command as one transition from the state `s` before it. On failure no update of its rule takes effect. -/
def complete (s : State) (r : Result) : State :=
  match r with
  | .ok s' => succeed s'
  | .error f => raise f s

/-- The outcome of a step that completes a command: always a next state (R150, R185). -/
abbrev Step := Host.Outcome State Fault Refusal

/-- A command rule run in state `s`. -/
def execute (rule : State → Result) (s : State) : Step := .next (complete s (rule s))

/-- A word that is no command: IllegalCommand with the decoder's DETAIL (R65 to R68). -/
def illegalCommand (e : Illegal) (s : State) : State := raise { kind := .illegalCommand, detail := e.detail } s

end Sys2Proof.Machine
end

