-- ==== Sys2Proof/Machine/Control.lean ====
section
/-!
DEFINITION. The control commands (44_control.md R145, R146).
-/

namespace Sys2Proof.Machine

/-- R145, NOP: no operation. CODE and DETAIL become 0, as after every success. -/
def ruleNop (s : State) : Result := .ok s

/-- NOP. -/
def execNop (s : State) : Step := execute ruleNop s

/-- R146, CLRSTAT: STATUS <- 0; ERRPOS <- 0. -/
def ruleClrstat (s : State) : Result := .ok ((s.setStatus 0).setErrpos 0)

/-- CLRSTAT. -/
def execClrstat (s : State) : Step := execute ruleClrstat s

end Sys2Proof.Machine
end

