-- ==== Sys2Proof/Machine/Quasigroup.lean ====
section
/-!
DEFINITION. The dispatch and the multiplication of the QG unit (42_quasigroup.md sections 1 and 2, R100 to R107).
-/

namespace Sys2Proof.Machine

/-- R11: `(a − b) mod n`, the mathematical remainder in [0, n). -/
def subMod (n a b : Nat) : Nat := (((a : Int) - (b : Int)) % (n : Int)).toNat

/-- The number of halvings of `n` that leave no remainder, at most `fuel`. -/
def halvings : Nat → Nat → Nat
  | 0, _ => 0
  | fuel + 1, n => if n % 2 = 0 then halvings fuel (n / 2) + 1 else 0

/-- R100: the largest e with 2^e dividing `n`, for `n ≥ 1`. -/
def twoAdic (n : Nat) : Nat := halvings (bitlen n) n

/-- UnsupportedOrder with its DETAIL. -/
def unsupportedOrder (detail : Nat) : Failure := { kind := .unsupportedOrder, detail := detail }

/-- R100: the QG context the dispatch builds for order `n`, or its failure. The first test that applies decides, and the size
limit is tested last. -/
def classify (P : Params) (n : Nat) : Except Failure QgContext :=
  let built (strat : Strategy) (deg m poly : Nat) : Except Failure QgContext :=
    if Config.nMax < n then .error (unsupportedOrder 5)
    else .ok { valid := true, strat := strat, order := n, deg := deg, m := m, poly := poly }
  if n < 1 then .error (unsupportedOrder 1)
  else if n ≤ 2 then .error (unsupportedOrder 2)
  else if n = 6 then .error (unsupportedOrder 3)
  else if n = 10 then built .fixed10 0 0 0
  else if n % 2 = 1 then built .odd 0 n 0
  else if n % 4 = 2 then .error (unsupportedOrder 4)
  else
    let d := twoAdic n
    let m := n / 2 ^ d
    if m = 1 then built .pow2 d 1 (P.irred d) else built .composite d m (P.irred d)

/-- The code of a strategy in RES0 and QG_CTX (R26, R104). -/
def Strategy.code : Strategy → Nat
  | .none => 0
  | .fixed10 => 1
  | .odd => 2
  | .pow2 => 3
  | .composite => 4

/-- R101: quasigroup multiplication in context `c`. No command multiplies without a quasigroup, so that NONE is multiplied in
by no run; the product there is a free value (log 13). -/
def qmult (P : Params) (c : QgContext) (i j : Nat) : Nat :=
  match c.strat with
  | .none => Config.noProduct i j
  | .fixed10 => P.t10 i j
  | .odd => subMod c.order j i
  | .pow2 => gfmul c.deg c.poly 2 i ^^^ j
  | .composite =>
    let c1 := gfmul c.deg c.poly 2 (i / c.m) ^^^ (j / c.m)
    let c2 := subMod c.m (j % c.m) (i % c.m)
    c1 * c.m + c2

/-- R107: the left inverse, the first `p` in [0, n) with qmult(p, k) = 0. -/
def linv (P : Params) (c : QgContext) (k : Nat) : Option Nat := first c.order (fun p => qmult P c p k == 0)

/-- R106: the right solution, the first `x` in [0, n) with qmult(c, x) = 0. -/
def rsolve (P : Params) (c : QgContext) (a : Nat) : Option Nat := first c.order (fun x => qmult P c a x == 0)

end Sys2Proof.Machine
end

