-- ==== Sys2Proof/Machine/Fold.lean ====
section
/-!
DEFINITION. The alphabet check, the index lookup and the fold of the DM engine (43_damm.md R120, R121, R125).
-/

namespace Sys2Proof.Machine

/-- R120: the k in [0, len(ALPHA)) with ALPHA[k] = c. DEDUCED (log 14): the first such k, where a state no run reaches has
duplicates under DM_VALID = 1. -/
def indexOf (alpha : List Word) (c : Word) : Option Nat := first alpha.length (fun k => alpha[k]? == some c)

/-- R125, from position `j` on: `before` holds the entries at the positions below `j`. At each position the value is tested
first, then the entry is looked for among the earlier ones. -/
def alphabetDefect (before : List Word) (j : Nat) : List Word → Option Failure
  | [] => none
  | c :: rest =>
    if Config.charMax < c.toNat then some { kind := .invalidAlphabet, detail := 1, pos := j }
    else if before.contains c then some { kind := .invalidAlphabet, detail := 2, pos := j }
    else alphabetDefect (before ++ [c]) (j + 1) rest

/-- R125: check_alphabet(), the first failure found in ALPHA, or none. -/
def checkAlphabet (alpha : List Word) : Option Failure := alphabetDefect [] 0 alpha

/-- R121, first loop, from position `pos` on: the alphabet indices of the entries, or ForeignCharacter at the first entry that
has none. -/
def indicesFrom (alpha : List Word) (pos : Nat) : List Word → Except Failure (List Nat)
  | [] => .ok []
  | c :: rest =>
    match indexOf alpha c with
    | none => .error { kind := .foreignCharacter, detail := 0, pos := pos }
    | some k => (indicesFrom alpha (pos + 1) rest).map (k :: ·)

/-- R121, second loop: the left fold of the indices from accumulator `acc`. -/
def foldIndices (P : Params) (c : QgContext) (acc : Nat) (ks : List Nat) : Nat := ks.foldl (qmult P c) acc

/-- R121: fold(). Every membership test is made before any step. It writes no state. -/
def fold (P : Params) (s : State) : Except Failure Nat :=
  (indicesFrom s.alpha 0 s.str).map (foldIndices P s.qg 0)

end Sys2Proof.Machine
end

