-- ==== Sys2Proof/Machine/Dm.lean ====
section
/-!
DEFINITION. The commands of the DM engine (43_damm.md R122 to R133): the alphabet, the string and the fold commands.
-/

namespace Sys2Proof.Machine

/-- BufferRange with its DETAIL (R155). -/
def bufferRange (detail : Nat) : Failure := { kind := .bufferRange, detail := detail }

/-! ### Alphabet commands -/

/-- R122, AL.CLR. -/
def ruleAlClr (s : State) : Result := .ok ((s.setAlpha []).setDmValid false)

/-- AL.CLR. -/
def execAlClr (s : State) : Step := execute ruleAlClr s

/-- R123, AL.PUSH. ALPHA is full at N_MAX entries. -/
def ruleAlPush (b : BitVec 32) (s : State) : Result :=
  failIf (s.alpha.length == Config.nMax) (bufferRange 1) <|
  .ok ((s.setAlpha (s.alpha ++ [b])).setDmValid false)

/-- AL.PUSH c. -/
def execAlPush (b : BitVec 32) (s : State) : Step := execute (ruleAlPush b) s

/-- R124, AL.RD. -/
def ruleAlRd (a : BitVec 16) (s : State) : Result :=
  match s.alpha[opA (.field a) s]? with
  | none => .error (bufferRange 2)
  | some c => .ok (s.setRes c 0)

/-- AL.RD k. -/
def execAlRd (a : BitVec 16) (s : State) : Step := execute (ruleAlRd a) s

/-- R126, DM.INIT: the alphabet check, then the dispatch on the alphabet's length. -/
def ruleDmInit (P : Params) (s : State) : Result :=
  match checkAlphabet s.alpha with
  | some f => .error f
  | none =>
    match classify P s.alpha.length with
    | .error f => .error f
    | .ok c => .ok (((s.setQg c).setDmValid true).setRes (word c.strat.code) (word s.alpha.length))

/-- DM.INIT. -/
def execDmInit (s : State) : Step := execute (ruleDmInit Config.params) s

/-! ### String commands -/

/-- R127, ST.CLR. -/
def ruleStClr (s : State) : Result := .ok (s.setStr [])

/-- ST.CLR. -/
def execStClr (s : State) : Step := execute ruleStClr s

/-- R128, ST.PUSH. STR is full at S_MAX entries. -/
def ruleStPush (b : BitVec 32) (s : State) : Result :=
  failIf (s.str.length == Config.sMax) (bufferRange 3) <|
  .ok (s.setStr (s.str ++ [b]))

/-- ST.PUSH c. -/
def execStPush (b : BitVec 32) (s : State) : Step := execute (ruleStPush b) s

/-- R129, ST.RD. -/
def ruleStRd (a : BitVec 16) (s : State) : Result :=
  match s.str[opA (.field a) s]? with
  | none => .error (bufferRange 4)
  | some c => .ok (s.setRes c 0)

/-- ST.RD k. -/
def execStRd (a : BitVec 16) (s : State) : Step := execute (ruleStRd a) s

/-! ### Fold commands -/

/-- The opening of the four fold commands: NotConfigured(3) without a codec (R157), then fold(); the accumulator. -/
def folded (P : Params) (s : State) : Except Failure Nat :=
  if !s.dmValid then .error { kind := .notConfigured, detail := 3 } else fold P s

/-- The opening of DM.CHECK and DM.ENCODE: the fold, then the right solution of its accumulator, or NoInverseExists(3)
(R132, C1). -/
def checkIndex (P : Params) (s : State) : Except Failure Nat :=
  match folded P s with
  | .error f => .error f
  | .ok acc =>
    match rsolve P s.qg acc with
    | none => .error { kind := .noInverseExists, detail := 3 }
    | some x => .ok x

/-- R130, DM.PROCESS. -/
def ruleDmProcess (P : Params) (s : State) : Result :=
  match folded P s with
  | .error f => .error f
  | .ok acc => .ok (s.setRes (s.alphaEntry acc) (word acc))

/-- DM.PROCESS. -/
def execDmProcess (s : State) : Step := execute (ruleDmProcess Config.params) s

/-- R131, DM.VERIFY. -/
def ruleDmVerify (P : Params) (s : State) : Result :=
  match folded P s with
  | .error f => .error f
  | .ok acc => .ok (s.setRes (if acc = 0 then 1 else 0) (word acc))

/-- DM.VERIFY. -/
def execDmVerify (s : State) : Step := execute (ruleDmVerify Config.params) s

/-- R132, DM.CHECK. -/
def ruleDmCheck (P : Params) (s : State) : Result :=
  match checkIndex P s with
  | .error f => .error f
  | .ok x => .ok (s.setRes (s.alphaEntry x) (word x))

/-- DM.CHECK. -/
def execDmCheck (s : State) : Step := execute (ruleDmCheck Config.params) s

/-- R133, DM.ENCODE: BufferRange(3) comes after the fold's and the search's failures. -/
def ruleDmEncode (P : Params) (s : State) : Result :=
  match checkIndex P s with
  | .error f => .error f
  | .ok x =>
    failIf (s.str.length == Config.sMax) (bufferRange 3) <|
    .ok ((s.setStr (s.str ++ [s.alphaEntry x])).setRes (s.alphaEntry x) (word x))

/-- DM.ENCODE. -/
def execDmEncode (s : State) : Step := execute (ruleDmEncode Config.params) s

end Sys2Proof.Machine
end

