-- ==== Sys2Proof/Machine/Gf.lean ====
section
/-!
DEFINITION. The commands of the GF unit (41_bgf.md R85 to R90). A rule with a `Source` serves a command and its `.R` form,
which differ in operand A alone (R62, R64).
-/

namespace Sys2Proof.Machine

/-- NotConfigured(1), which every GF command but GF.CFG raises before any other check (R157). -/
def gfNotConfigured : Failure := { kind := .notConfigured, detail := 1 }

/-- InvalidElement with its mask. -/
def invalidElement (mask : Nat) : Failure := { kind := .invalidElement, detail := mask }

/-- R85, GF.CFG. -/
def ruleGfCfg (P : Params) (a : BitVec 16) (s : State) : Result :=
  let d := opA (.field a) s
  failIf (d == 0) { kind := .unsupportedDegree, detail := 1 } <|
  failIf (decide (Config.dMax < d)) { kind := .unsupportedDegree, detail := 2 } <|
  .ok ((s.setGf { valid := true, deg := d, poly := P.irred d }).setRes (word (2 ^ d)) (word (P.irred d)))

/-- GF.CFG d. -/
def execGfCfg (a : BitVec 16) (s : State) : Step := execute (ruleGfCfg Config.params a) s

/-- R86, GF.REDUCE. -/
def ruleGfReduce (b : BitVec 32) (s : State) : Result :=
  failIf (!s.gf.valid) gfNotConfigured <|
  .ok (s.setRes (word (reduce s.gf.deg s.gf.poly (opB b))) 0)

/-- GF.REDUCE bits. -/
def execGfReduce (b : BitVec 32) (s : State) : Step := execute (ruleGfReduce b) s

/-- R87, GF.ADD and GF.ADD.R. -/
def ruleGfAdd (src : Source) (b : BitVec 32) (s : State) : Result :=
  let e := invalidMask (2 ^ s.gf.deg) (opA src s) (opB b)
  failIf (!s.gf.valid) gfNotConfigured <|
  failIf (e != 0) (invalidElement e) <|
  .ok (s.setRes (word (opA src s ^^^ opB b)) 0)

/-- GF.ADD i, j. -/
def execGfAdd (a : BitVec 16) (b : BitVec 32) (s : State) : Step := execute (ruleGfAdd (.field a) b) s

/-- GF.ADD.R j. -/
def execGfAddR (b : BitVec 32) (s : State) : Step := execute (ruleGfAdd .res0 b) s

/-- R88, GF.MUL and GF.MUL.R. -/
def ruleGfMul (src : Source) (b : BitVec 32) (s : State) : Result :=
  let e := invalidMask (2 ^ s.gf.deg) (opA src s) (opB b)
  failIf (!s.gf.valid) gfNotConfigured <|
  failIf (e != 0) (invalidElement e) <|
  .ok (s.setRes (word (gfmul s.gf.deg s.gf.poly (opA src s) (opB b))) 0)

/-- GF.MUL i, j. -/
def execGfMul (a : BitVec 16) (b : BitVec 32) (s : State) : Step := execute (ruleGfMul (.field a) b) s

/-- GF.MUL.R j. -/
def execGfMulR (b : BitVec 32) (s : State) : Step := execute (ruleGfMul .res0 b) s

/-- NoInverseExists(1), the inverse of the zero element (R155). -/
def gfNoInverse : Failure := { kind := .noInverseExists, detail := 1 }

/-- R89, GF.INV and GF.INV.R. -/
def ruleGfInv (src : Source) (s : State) : Result :=
  failIf (!s.gf.valid) gfNotConfigured <|
  failIf (decide (2 ^ s.gf.deg ≤ opA src s)) (invalidElement 1) <|
  match gfinv s.gf.deg s.gf.poly (opA src s) with
  | none => .error gfNoInverse
  | some p => .ok (s.setRes (word p) 0)

/-- GF.INV k. -/
def execGfInv (a : BitVec 16) (s : State) : Step := execute (ruleGfInv (.field a)) s

/-- GF.INV.R. -/
def execGfInvR (s : State) : Step := execute (ruleGfInv .res0) s

/-- R90, GF.DIV and GF.DIV.R: `mult(a, inv(b))` evaluated inner call first, so b's validity and b = 0 come before a's
validity. R90 writes the search's failure as the test b = 0; the two are the same test in a field (R83), and in a state no
run reaches, whose polynomial makes no field, a search without a match also reports NoInverseExists (log 11). -/
def ruleGfDiv (src : Source) (b : BitVec 32) (s : State) : Result :=
  let order := 2 ^ s.gf.deg
  failIf (!s.gf.valid) gfNotConfigured <|
  failIf (decide (order ≤ opB b)) (invalidElement (invalidMask order (opA src s) (opB b))) <|
  failIf (opB b == 0) gfNoInverse <|
  failIf (decide (order ≤ opA src s)) (invalidElement 1) <|
  match gfinv s.gf.deg s.gf.poly (opB b) with
  | none => .error gfNoInverse
  | some p => .ok (s.setRes (word (gfmul s.gf.deg s.gf.poly (opA src s) p)) 0)

/-- GF.DIV a, b. -/
def execGfDiv (a : BitVec 16) (b : BitVec 32) (s : State) : Step := execute (ruleGfDiv (.field a) b) s

/-- GF.DIV.R b. -/
def execGfDivR (b : BitVec 32) (s : State) : Step := execute (ruleGfDiv .res0 b) s

end Sys2Proof.Machine
end

