-- ==== Sys2Proof/Machine/Qg.lean ====
section
/-!
DEFINITION. The commands of the QG unit (42_quasigroup.md R104, R105, R107). A rule with a `Source` serves a command and its
`.R` form (R62, R64).
-/

namespace Sys2Proof.Machine

/-- NotConfigured(2), which QG.MUL and QG.INV raise before any other check (R157). -/
def qgNotConfigured : Failure := { kind := .notConfigured, detail := 2 }

/-- R104, QG.BUILD. -/
def ruleQgBuild (P : Params) (a : BitVec 16) (s : State) : Result :=
  match classify P (opA (.field a) s) with
  | .error f => .error f
  | .ok c => .ok (((s.setQg c).setDmValid false).setRes (word c.strat.code) (word c.order))

/-- QG.BUILD n. -/
def execQgBuild (a : BitVec 16) (s : State) : Step := execute (ruleQgBuild Config.params a) s

/-- R105, QG.MUL and QG.MUL.R. -/
def ruleQgMul (P : Params) (src : Source) (b : BitVec 32) (s : State) : Result :=
  let e := invalidMask s.qg.order (opA src s) (opB b)
  failIf (!s.qg.valid) qgNotConfigured <|
  failIf (e != 0) { kind := .invalidElement, detail := e } <|
  .ok (s.setRes (word (qmult P s.qg (opA src s) (opB b))) 0)

/-- QG.MUL i, j. -/
def execQgMul (a : BitVec 16) (b : BitVec 32) (s : State) : Step := execute (ruleQgMul Config.params (.field a) b) s

/-- QG.MUL.R j. -/
def execQgMulR (b : BitVec 32) (s : State) : Step := execute (ruleQgMul Config.params .res0 b) s

/-- R107, QG.INV and QG.INV.R: the left inverse exactly as written (C1). -/
def ruleQgInv (P : Params) (src : Source) (s : State) : Result :=
  failIf (!s.qg.valid) qgNotConfigured <|
  failIf (decide (s.qg.order ≤ opA src s)) { kind := .invalidElement, detail := 1 } <|
  match linv P s.qg (opA src s) with
  | none => .error { kind := .noInverseExists, detail := 2 }
  | some p => .ok (s.setRes (word p) 0)

/-- QG.INV k. -/
def execQgInv (a : BitVec 16) (s : State) : Step := execute (ruleQgInv Config.params (.field a)) s

/-- QG.INV.R. -/
def execQgInvR (s : State) : Step := execute (ruleQgInv Config.params .res0) s

end Sys2Proof.Machine
end

