-- ==== Sys2Proof/Machine/Dispatch.lean ====
section
/-!
DEFINITION. What each command does: one arm per constructor of Instr, each one call of the command's meaning.
-/

namespace Sys2Proof.Machine

/-- One command, executed (R153). -/
def exec (i : Instr) (s : State) : Host.Outcome State Fault Refusal :=
  match i with
  | .nop => Sys2Proof.Machine.execNop s
  | .clrstat => Sys2Proof.Machine.execClrstat s
  | .gfCfg a => Sys2Proof.Machine.execGfCfg a s
  | .gfReduce b => Sys2Proof.Machine.execGfReduce b s
  | .gfAdd a b => Sys2Proof.Machine.execGfAdd a b s
  | .gfMul a b => Sys2Proof.Machine.execGfMul a b s
  | .gfInv a => Sys2Proof.Machine.execGfInv a s
  | .gfDiv a b => Sys2Proof.Machine.execGfDiv a b s
  | .qgBuild a => Sys2Proof.Machine.execQgBuild a s
  | .qgMul a b => Sys2Proof.Machine.execQgMul a b s
  | .qgInv a => Sys2Proof.Machine.execQgInv a s
  | .alClr => Sys2Proof.Machine.execAlClr s
  | .alPush b => Sys2Proof.Machine.execAlPush b s
  | .alRd a => Sys2Proof.Machine.execAlRd a s
  | .dmInit => Sys2Proof.Machine.execDmInit s
  | .stClr => Sys2Proof.Machine.execStClr s
  | .stPush b => Sys2Proof.Machine.execStPush b s
  | .stRd a => Sys2Proof.Machine.execStRd a s
  | .dmProcess => Sys2Proof.Machine.execDmProcess s
  | .dmVerify => Sys2Proof.Machine.execDmVerify s
  | .dmCheck => Sys2Proof.Machine.execDmCheck s
  | .dmEncode => Sys2Proof.Machine.execDmEncode s
  | .gfAddR b => Sys2Proof.Machine.execGfAddR b s
  | .gfMulR b => Sys2Proof.Machine.execGfMulR b s
  | .gfInvR => Sys2Proof.Machine.execGfInvR s
  | .gfDivR b => Sys2Proof.Machine.execGfDivR b s
  | .qgMulR b => Sys2Proof.Machine.execQgMulR b s
  | .qgInvR => Sys2Proof.Machine.execQgInvR s

end Sys2Proof.Machine
end

