-- ==== Sys2Proof/Machine/Port.lean ====
section
/-!
DEFINITION. The two ports and the reset input (20_memory.md R41 to R44, 70_reset_and_hazards.md R175, R178, R184): what each
move of the host does.
-/

namespace Sys2Proof.Machine

/-- R42, R43: the 32-bit value at a word address of the read space. It is a function of the state and changes nothing
(R44). Every field the map does not list reads 0. -/
def readReg (s : State) (a : BitVec 8) : Word :=
  match a with
  | 0x00#8 => Config.idValue
  | 0x01#8 => word Config.dMax
  | 0x02#8 => word Config.nMax
  | 0x03#8 => word Config.sMax
  | 0x04#8 => statusWord (statusSticky s.status) (statusDetail s.status) (statusCode s.status)
  | 0x05#8 => s.res0
  | 0x06#8 => s.res1
  | 0x07#8 => s.errpos
  | 0x08#8 => 0#16 ++ BitVec.ofNat 8 s.gf.deg ++ 0#7 ++ BitVec.ofBool s.gf.valid
  | 0x09#8 => word s.gf.poly
  | 0x0A#8 => BitVec.ofNat 16 s.qg.order ++ BitVec.ofNat 8 s.qg.deg ++ 0#4 ++ BitVec.ofNat 3 s.qg.strat.code ++ BitVec.ofBool s.qg.valid
  | 0x0B#8 => word s.qg.m
  | 0x0C#8 => word s.qg.poly
  | 0x0D#8 => 0#31 ++ BitVec.ofBool s.dmValid
  | 0x0E#8 => word s.alpha.length
  | 0x0F#8 => word s.str.length
  | _ => 0

/-- R41: a word written to the command port is decoded and executed to completion. -/
def execWord (w : Command) (s : State) : Step :=
  match decode w with
  | .ok i => exec i s
  | .error e => .next (illegalCommand e s)

/-- R44: a read changes no state of the block; its value goes to the host. -/
def hostRead (a : BitVec 8) (s : State) : State := s.setReplies (s.hostReplies ++ [readReg s a])

/-- R175: every piece of the block's state takes its reset value. What the host will do, and what it has read, are not the
block's (log 4). -/
def hostReset (s : State) : State := (State.reset.setMoves s.hostMoves).setReplies s.hostReplies

/-- What one move of the host does (R184). The words a reset move carries are lost (R178). -/
def deliver (m : HostMove) (s : State) : Step :=
  match m with
  | .command w => execWord w s
  | .read a => .next (hostRead a s)
  | .reset _ => .next (hostReset s)

/-- The next move in port order (R49), taken off the list. With nothing delivered the block holds its state (R168, log 3). -/
def nextMove (s : State) : Step :=
  match s.hostMoves with
  | [] => .next s
  | m :: rest => deliver m (s.setMoves rest)

/-- `s` with one more word as the host's next move. -/
def pushWord (s : State) (w : Command) : State := s.setMoves (.command w :: s.hostMoves)

end Sys2Proof.Machine
end

