-- ==== Sys2Proof/Machine/Step.lean ====
section
/-!
DEFINITION. One step of the machine: the host's next move, as one indivisible transition (R3, R49, R153).
-/

namespace Sys2Proof.Machine

/-- One step. -/
def step (s : State) : Host.Outcome State Fault Refusal := nextMove s

/-- `s` with the instruction's word as the host's next move, where step takes its next instruction (R41, log 1). -/
def State.withFetchWord (s : State) (nbits w : Nat) : State := pushWord s (tableWord nbits w)

end Sys2Proof.Machine
end

