-- ==== Sys2Proof/Machine/Assembly.lean ====
section
/-!
DEFINITION. The assembler's syntax and the pseudo-instructions (30_encoding.md R71, R72): from a line of text to the commands it
stands for, and the disassembler's operands. Assembly text is no part of the block (D34); nothing in the machine uses it.
-/

namespace Sys2Proof.Machine

/-! ### Pseudo-instructions (R72) -/

/-- The pseudo-instructions. A character is its code value. -/
inductive Pseudo where
  /-- GF.SUB a, b. -/
  | gfSub (a : BitVec 16) (b : BitVec 32)
  /-- GF.SUB.R b. -/
  | gfSubR (b : BitVec 32)
  /-- GF.SQR a. -/
  | gfSqr (a : BitVec 16)
  /-- AL.LOAD "s". -/
  | alLoad (s : List Word)
  /-- ST.LOAD "s". -/
  | stLoad (s : List Word)
  /-- DM.SETUP "s". -/
  | dmSetup (s : List Word)
  /-- QG.FOLD v0, v1, …, vk. -/
  | qgFold (v : BitVec 32) (vs : List (BitVec 32))
  deriving DecidableEq, Repr

/-- The expansion of a pseudo-instruction. -/
def Pseudo.expand : Pseudo → List Instr
  | .gfSub a b => [.gfAdd a b]
  | .gfSubR b => [.gfAddR b]
  | .gfSqr a => [.gfMul a (a.setWidth 32)]
  | .alLoad s => .alClr :: s.map .alPush
  | .stLoad s => .stClr :: s.map .stPush
  | .dmSetup s => (.alClr :: s.map .alPush) ++ [.dmInit]
  | .qgFold v vs => .qgMul 0 v :: vs.map .qgMulR

/-! ### Commands as mnemonic and operands (R71) -/

/-- The mnemonic of a command (R64). -/
def mnemonic : Instr → String
  | .nop => "NOP"
  | .clrstat => "CLRSTAT"
  | .gfCfg _ => "GF.CFG"
  | .gfReduce _ => "GF.REDUCE"
  | .gfAdd _ _ => "GF.ADD"
  | .gfMul _ _ => "GF.MUL"
  | .gfInv _ => "GF.INV"
  | .gfDiv _ _ => "GF.DIV"
  | .qgBuild _ => "QG.BUILD"
  | .qgMul _ _ => "QG.MUL"
  | .qgInv _ => "QG.INV"
  | .alClr => "AL.CLR"
  | .alPush _ => "AL.PUSH"
  | .alRd _ => "AL.RD"
  | .dmInit => "DM.INIT"
  | .stClr => "ST.CLR"
  | .stPush _ => "ST.PUSH"
  | .stRd _ => "ST.RD"
  | .dmProcess => "DM.PROCESS"
  | .dmVerify => "DM.VERIFY"
  | .dmCheck => "DM.CHECK"
  | .dmEncode => "DM.ENCODE"
  | .gfAddR _ => "GF.ADD.R"
  | .gfMulR _ => "GF.MUL.R"
  | .gfInvR => "GF.INV.R"
  | .gfDivR _ => "GF.DIV.R"
  | .qgMulR _ => "QG.MUL.R"
  | .qgInvR => "QG.INV.R"

/-- The operands a disassembler prints after the mnemonic. -/
def operands : Instr → List Nat
  | .gfCfg a => [a.toNat]
  | .gfReduce b => [b.toNat]
  | .gfAdd a b => [a.toNat, b.toNat]
  | .gfMul a b => [a.toNat, b.toNat]
  | .gfInv a => [a.toNat]
  | .gfDiv a b => [a.toNat, b.toNat]
  | .qgBuild a => [a.toNat]
  | .qgMul a b => [a.toNat, b.toNat]
  | .qgInv a => [a.toNat]
  | .alPush b => [b.toNat]
  | .alRd a => [a.toNat]
  | .stPush b => [b.toNat]
  | .stRd a => [a.toNat]
  | .gfAddR b => [b.toNat]
  | .gfMulR b => [b.toNat]
  | .gfDivR b => [b.toNat]
  | .qgMulR b => [b.toNat]
  | .nop | .clrstat | .alClr | .dmInit | .stClr | .dmProcess | .dmVerify | .dmCheck | .dmEncode | .gfInvR | .qgInvR => []

/-- An operand for field A: refused if it is above 0xFFFF. -/
def fieldA (n : Nat) : Option (BitVec 16) := if n ≤ 0xFFFF then some (BitVec.ofNat 16 n) else none

/-- An operand for field B: refused if it is above 0xFFFFFFFF. -/
def fieldB (n : Nat) : Option (BitVec 32) := if n ≤ 0xFFFFFFFF then some (BitVec.ofNat 32 n) else none

/-- The command a mnemonic with one operand in field A stands for. -/
def assembleA (mn : String) (a : BitVec 16) : Option Instr :=
  match mn with
  | "GF.CFG" => some (.gfCfg a)
  | "GF.INV" => some (.gfInv a)
  | "QG.BUILD" => some (.qgBuild a)
  | "QG.INV" => some (.qgInv a)
  | "AL.RD" => some (.alRd a)
  | "ST.RD" => some (.stRd a)
  | _ => none

/-- The command a mnemonic with one operand in field B stands for. -/
def assembleB (mn : String) (b : BitVec 32) : Option Instr :=
  match mn with
  | "GF.REDUCE" => some (.gfReduce b)
  | "AL.PUSH" => some (.alPush b)
  | "ST.PUSH" => some (.stPush b)
  | "GF.ADD.R" => some (.gfAddR b)
  | "GF.MUL.R" => some (.gfMulR b)
  | "GF.DIV.R" => some (.gfDivR b)
  | "QG.MUL.R" => some (.qgMulR b)
  | _ => none

/-- The command a mnemonic with operands in fields A and B stands for. -/
def assembleAB (mn : String) (a : BitVec 16) (b : BitVec 32) : Option Instr :=
  match mn with
  | "GF.ADD" => some (.gfAdd a b)
  | "GF.MUL" => some (.gfMul a b)
  | "GF.DIV" => some (.gfDiv a b)
  | "QG.MUL" => some (.qgMul a b)
  | _ => none

/-- The command a mnemonic without operands stands for. -/
def assembleBare (mn : String) : Option Instr :=
  match mn with
  | "NOP" => some .nop
  | "CLRSTAT" => some .clrstat
  | "AL.CLR" => some .alClr
  | "DM.INIT" => some .dmInit
  | "ST.CLR" => some .stClr
  | "DM.PROCESS" => some .dmProcess
  | "DM.VERIFY" => some .dmVerify
  | "DM.CHECK" => some .dmCheck
  | "DM.ENCODE" => some .dmEncode
  | "GF.INV.R" => some .gfInvR
  | "QG.INV.R" => some .qgInvR
  | _ => none

/-- R71: a command from its mnemonic and operand values; none where the assembler refuses the line. -/
def assembleCommand (mn : String) (ops : List Nat) : Option Instr :=
  match ops with
  | [] => assembleBare mn
  | [x] => ((fieldA x).bind (assembleA mn)).or ((fieldB x).bind (assembleB mn))
  | [x, y] => (fieldA x).bind fun a => (fieldB y).bind fun b => assembleAB mn a b
  | _ => none

/-- R72: a pseudo-instruction with number operands. -/
def assemblePseudo (mn : String) (ops : List Nat) : Option Pseudo :=
  match mn, ops with
  | "GF.SUB", [x, y] => (fieldA x).bind fun a => (fieldB y).map fun b => .gfSub a b
  | "GF.SUB.R", [x] => (fieldB x).map .gfSubR
  | "GF.SQR", [x] => (fieldA x).map .gfSqr
  | "QG.FOLD", v :: vs => (fieldB v).bind fun w => (vs.mapM fieldB).map fun ws => .qgFold w ws
  | _, _ => none

/-- R72: a pseudo-instruction with a string operand. -/
def assembleText (mn : String) (s : List Word) : Option Pseudo :=
  match mn with
  | "AL.LOAD" => some (.alLoad s)
  | "ST.LOAD" => some (.stLoad s)
  | "DM.SETUP" => some (.dmSetup s)
  | _ => none

/-! ### One line of text (R71; the lexical details the spec leaves open are log 16) -/

/-- The code value of a character: its Unicode code point (I4). -/
def codeValue (c : Char) : Word := word c.toNat

/-- A token of a line. -/
inductive Token where
  /-- A mnemonic. -/
  | name (s : String)
  /-- A decimal or hexadecimal number, or a character literal. -/
  | num (n : Nat)
  /-- A string operand of a pseudo-instruction. -/
  | text (s : List Word)
  /-- A comma. -/
  | comma
  deriving DecidableEq, Repr

/-- What the lexer is in the middle of. -/
inductive LexMode where
  | idle
  | inWord (acc : List Char)
  | inChar
  | afterChar (c : Char)
  | inText (acc : List Char)
  | inComment
  deriving DecidableEq, Repr

/-- The lexer's state: its mode, and the tokens read, last first. -/
abbrev LexState := LexMode × List Token

/-- The value of a digit in base 16. -/
def digitValue (c : Char) : Option Nat :=
  if '0' ≤ c ∧ c ≤ '9' then some (c.toNat - 0x30)
  else if 'a' ≤ c ∧ c ≤ 'f' then some (c.toNat - 0x61 + 10)
  else if 'A' ≤ c ∧ c ≤ 'F' then some (c.toNat - 0x41 + 10)
  else none

/-- The value of a digit string in a base, read from `acc` on. -/
def digits (base : Nat) : Nat → List Char → Option Nat
  | acc, [] => some acc
  | acc, c :: rest =>
    match digitValue c with
    | some v => if v < base then digits base (acc * base + v) rest else none
    | none => none

/-- A letter, digit or full stop: what mnemonics and numbers are made of. -/
def isWordChar (c : Char) : Bool := c.isAlphanum || c == '.'

/-- A number (it begins with a digit; `0x` marks a hexadecimal one) or a mnemonic. -/
def wordToken (cs : List Char) : Option Token :=
  match cs with
  | [] => none
  | '0' :: 'x' :: ds => if ds.isEmpty then none else (digits 16 0 ds).map .num
  | c :: ds => if c.isDigit then (digits 10 0 (c :: ds)).map .num else some (.name (String.ofList (c :: ds)))

/-- The token a word in progress makes. -/
def flush (st : LexState) : Option (List Token) :=
  match st.1 with
  | .idle => some st.2
  | .inComment => some st.2
  | .inWord acc => (wordToken acc.reverse).map (· :: st.2)
  | .inChar => none
  | .afterChar _ => none
  | .inText _ => none

/-- A character between tokens. Code 0x27 is the apostrophe, 0x22 the double quote. -/
def lexIdle (toks : List Token) (c : Char) : Option LexState :=
  if c = ' ' ∨ c = '\t' then some (.idle, toks)
  else if c = ';' then some (.inComment, toks)
  else if c = ',' then some (.idle, .comma :: toks)
  else if c.toNat = 0x27 then some (.inChar, toks)
  else if c.toNat = 0x22 then some (.inText [], toks)
  else if isWordChar c then some (.inWord [c], toks)
  else none

/-- The next character of the line. -/
def lexChar (st : LexState) (c : Char) : Option LexState :=
  match st.1 with
  | .inComment => some st
  | .inChar => some (.afterChar c, st.2)
  | .afterChar x => if c.toNat = 0x27 then some (.idle, .num x.toNat :: st.2) else none
  | .inText acc => if c.toNat = 0x22 then some (.idle, .text (acc.reverse.map codeValue) :: st.2) else some (.inText (c :: acc), st.2)
  | .inWord acc => if isWordChar c then some (.inWord (c :: acc), st.2) else (flush st).bind fun toks => lexIdle toks c
  | .idle => lexIdle st.2 c

/-- The tokens of a line; none for a line with an unfinished or unknown token. -/
def tokens (line : List Char) : Option (List Token) :=
  ((line.foldlM lexChar (LexMode.idle, [])).bind flush).map List.reverse

/-- Number operands separated by commas. -/
def numbers : List Token → Option (List Nat)
  | [] => some []
  | [.num n] => some [n]
  | .num n :: .comma :: .num k :: rest => (numbers (.num k :: rest)).map (n :: ·)
  | _ => none

/-- R71, R72: the commands a line of assembly text stands for; none where the assembler refuses it. A line without a command
stands for none. -/
def assembleLine (line : String) : Option (List Instr) :=
  match tokens line.toList with
  | none => none
  | some [] => some []
  | some [.name mn, .text s] => (assembleText mn s).map Pseudo.expand
  | some (.name mn :: ops) =>
    (numbers ops).bind fun ns => ((assembleCommand mn ns).map ([·])).or ((assemblePseudo mn ns).map Pseudo.expand)
  | some _ => none

end Sys2Proof.Machine
end

