-- ==== Sys2Proof/Machine/Run.lean ====
section
/-!
DEFINITION. Programs and their runs (70_reset_and_hazards.md R185, R188): the states a run goes through, its end, its result, and what
it is for a run not to fail.
-/

namespace Sys2Proof.Machine

/-! ### Runs -/

/-- The state after a list of commands, executed in order; none if one of them has no next state. -/
def runInstrs : List Instr → State → Option State
  | [], s => some s
  | i :: rest, s =>
    match exec i s with
    | .next t => runInstrs rest t
    | .fault _ => none
    | .refused _ => none

/-- The states after each of the next `n` moves of the host, in order; none if a step has no next state. -/
def runTrace : Nat → State → Option (List State)
  | 0, _ => some []
  | n + 1, s =>
    match step s with
    | .next t => (runTrace n t).map (t :: ·)
    | .fault _ => none
    | .refused _ => none

/-- The state after the next `n` moves of the host; none if a step has no next state. -/
def runMoves : Nat → State → Option State
  | 0, s => some s
  | n + 1, s =>
    match step s with
    | .next t => runMoves n t
    | .fault _ => none
    | .refused _ => none

/-! ### Programs (R185) -/

/-- R185: a program is a finite list of command words. A failing word, one that is no command among them, is a word like any other. -/
abbrev Program := List Command

/-- One host writes the words of `p` in order, from state `s`, and makes no other move. -/
def loadProgram (p : Program) (s : State) : State := s.setMoves (p.map .command)

/-- R185: the run of `p` from `s`, as the states after each word. It ends when the last word has completed. -/
def programTrace (p : Program) (s : State) : Option (List State) := runTrace p.length (loadProgram p s)

/-- R185: the state at the end of the run of `p`. The start is the reset state unless a claim says otherwise (R188). -/
def runProgram (p : Program) (s : State := State.reset) : Option State := runMoves p.length (loadProgram p s)

/-- R185: the result of a run: the read map R42, address by address from 0x00, and the two lists. -/
structure RunResult where
  /-- The registers at the word addresses 0x00 to 0x0F. -/
  registers : List Word
  /-- ALPHA. -/
  alpha : List Word
  /-- STR. -/
  str : List Word
  deriving DecidableEq, Repr

/-- R185: the result of a run that ends in `t`. -/
def runResult (t : State) : RunResult where
  registers := (List.range 16).map fun a => readReg t (BitVec.ofNat 8 a)
  alpha := t.alpha
  str := t.str

/-! ### Runs that did not fail (R185) -/

/-- The command that produced `t` succeeded: CODE is 0 (R152). -/
def State.Succeeded (t : State) : Prop := statusCode t.status = 0

/-- R185, by STICKY: a run from `start` to `finish` did not fail when STICKY is 0 at its end, with STICKY = 0 at its start. -/
def DidNotFail (start finish : State) : Prop := statusSticky start.status = false ∧ statusSticky finish.status = false

/-- R185, by CODE: no word of a run failed when CODE is 0 after each of them. -/
def EveryWordSucceeded (trace : List State) : Prop := ∀ t ∈ trace, t.Succeeded

/-- The run of `p` from `s` did not fail, by STICKY. -/
def ProgramDidNotFail (p : Program) (s : State) : Prop := ∃ t, runProgram p s = some t ∧ DidNotFail s t

/-- The run of `p` from `s` did not fail, by CODE after each word. -/
def ProgramWordsSucceeded (p : Program) (s : State) : Prop := ∃ ts, programTrace p s = some ts ∧ EveryWordSucceeded ts

end Sys2Proof.Machine
end

