-- ==== Sys2Proof/Safety.lean ====
section
/-!
DEFINITION. The well-formed states (10_state.md R23, R25, R26, R29, R30), the states a run from reset reaches, and which failures each command
can report (60_exceptions.md R152, R155, R157): the terms statements about the machine are made in.
-/

namespace Sys2Proof.Machine

/-! ### Well-formed states -/

/-- R25: the invariant of the GF context. -/
def GfContext.WellFormed (P : Params) (c : GfContext) : Prop :=
  if c.valid then 1 ≤ c.deg ∧ c.deg ≤ Config.dMax ∧ c.poly = P.irred c.deg else c.deg = 0 ∧ c.poly = 0

/-- R26: the invariant of the QG context: NONE and zeros, or exactly what the dispatch R100 returns for QG_ORDER. -/
def QgContext.WellFormed (P : Params) (c : QgContext) : Prop :=
  if c.valid then classify P c.order = .ok c
  else c.strat = .none ∧ c.order = 0 ∧ c.deg = 0 ∧ c.m = 0 ∧ c.poly = 0

/-- R29: what DM_VALID = 1 promises. -/
def State.CodecWellFormed (s : State) : Prop :=
  s.dmValid = true →
    s.qg.valid = true ∧ s.qg.order = s.alpha.length ∧ s.alpha.Nodup ∧ ∀ c ∈ s.alpha, c.toNat ≤ Config.charMax

/-- R23: the legal values of STATUS: CODE 0 to 9, DETAIL 0 when CODE = 0, the reserved bits 0; and STICKY is 1 where CODE shows a
failure, since nothing has cleared it since (R153). -/
def StatusWellFormed (st : Word) : Prop :=
  st = statusWord (statusSticky st) (statusDetail st) (statusCode st) ∧ (statusCode st).toNat ≤ 9 ∧
    (statusCode st = 0 → statusDetail st = 0) ∧ (statusCode st ≠ 0 → statusSticky st = true)

/-- R30: a well-formed state. RES0, RES1 and ERRPOS are below 2^32 by their type. -/
structure State.WellFormed (P : Params) (s : State) : Prop where
  /-- R23. -/
  status : StatusWellFormed s.status
  /-- R25. -/
  gf : s.gf.WellFormed P
  /-- R26. -/
  qg : s.qg.WellFormed P
  /-- R29. -/
  codec : s.CodecWellFormed
  /-- R27. -/
  alpha : s.alpha.length ≤ Config.nMax
  /-- R28. -/
  str : s.str.length ≤ Config.sMax

/-! ### Reachable states (R30) -/

/-- The states a run reaches from reset, whatever the host does. -/
inductive Reachable : State → Prop where
  /-- Reset, with any list of moves the host will make. -/
  | start (moves : List HostMove) : Reachable (State.reset.setMoves moves)
  /-- One more step. -/
  | step {s t : State} : Reachable s → step s = .next t → Reachable t

/-! ### The states a command leaves (R153) -/

/-- `s` after a success that writes nothing else: CODE 0, DETAIL 0, STICKY and everything else kept. -/
def State.success (s : State) : State := { s with status := statusWord (statusSticky s.status) 0 0 }

/-- `s` after a failure with these CODE, DETAIL and ERRPOS: STICKY is set and nothing else changes. -/
def State.failure (s : State) (code detail pos : Nat) : State :=
  { s with status := statusWord true (BitVec.ofNat 8 detail) (BitVec.ofNat 4 code), errpos := word pos }

/-- Every piece of the block's state (R20) is the same in `s` and `t`; the host's side may differ. -/
def SameBlock (s t : State) : Prop :=
  t.status = s.status ∧ t.res0 = s.res0 ∧ t.res1 = s.res1 ∧ t.errpos = s.errpos ∧ t.gf = s.gf ∧ t.qg = s.qg ∧
    t.alpha = s.alpha ∧ t.str = s.str ∧ t.dmValid = s.dmValid

/-! ### Which operand fields a command reads (R63) -/

/-- The command reads field A. -/
def readsA : Instr → Bool
  | .gfCfg _ | .gfAdd _ _ | .gfMul _ _ | .gfInv _ | .gfDiv _ _ | .qgBuild _ | .qgMul _ _ | .qgInv _ | .alRd _ | .stRd _ => true
  | .nop | .clrstat | .gfReduce _ | .alClr | .alPush _ | .dmInit | .stClr | .stPush _ | .dmProcess | .dmVerify | .dmCheck
  | .dmEncode | .gfAddR _ | .gfMulR _ | .gfInvR | .gfDivR _ | .qgMulR _ | .qgInvR => false

/-- The command reads field B. -/
def readsB : Instr → Bool
  | .gfReduce _ | .gfAdd _ _ | .gfMul _ _ | .gfDiv _ _ | .qgMul _ _ | .alPush _ | .stPush _ | .gfAddR _ | .gfMulR _ | .gfDivR _
  | .qgMulR _ => true
  | .nop | .clrstat | .gfCfg _ | .gfInv _ | .qgBuild _ | .qgInv _ | .alClr | .alRd _ | .dmInit | .stClr | .stRd _ | .dmProcess
  | .dmVerify | .dmCheck | .dmEncode | .gfInvR | .qgInvR => false

/-- The command writes RES0 and RES1 when it succeeds (D28). -/
def writesRes : Instr → Bool
  | .nop | .clrstat | .alClr | .alPush _ | .stClr | .stPush _ => false
  | .gfCfg _ | .gfReduce _ | .gfAdd _ _ | .gfMul _ _ | .gfInv _ | .gfDiv _ _ | .qgBuild _ | .qgMul _ _ | .qgInv _ | .alRd _
  | .dmInit | .stRd _ | .dmProcess | .dmVerify | .dmCheck | .dmEncode | .gfAddR _ | .gfMulR _ | .gfInvR | .gfDivR _ | .qgMulR _
  | .qgInvR => true

/-! ### The failures of each command (R152, R155, R157) -/

/-- CODE and DETAIL of every failure a command can report after it has been decoded. -/
def failuresOf : Instr → List (Nat × Nat)
  | .nop | .clrstat | .alClr | .stClr => []
  | .gfCfg _ => [(6, 1), (6, 2)]
  | .gfReduce _ => [(7, 1)]
  | .gfAdd _ _ | .gfAddR _ | .gfMul _ _ | .gfMulR _ => [(7, 1), (1, 1), (1, 2), (1, 3)]
  | .gfInv _ | .gfInvR => [(7, 1), (1, 1), (2, 1)]
  | .gfDiv _ _ | .gfDivR _ => [(7, 1), (1, 2), (1, 3), (2, 1), (1, 1)]
  | .qgBuild _ => [(3, 1), (3, 2), (3, 3), (3, 4), (3, 5)]
  | .qgMul _ _ | .qgMulR _ => [(7, 2), (1, 1), (1, 2), (1, 3)]
  | .qgInv _ | .qgInvR => [(7, 2), (1, 1), (2, 2)]
  | .alPush _ => [(9, 1)]
  | .alRd _ => [(9, 2)]
  | .dmInit => [(5, 1), (5, 2), (3, 1), (3, 2), (3, 3), (3, 4), (3, 5)]
  | .stPush _ => [(9, 3)]
  | .stRd _ => [(9, 4)]
  | .dmProcess | .dmVerify => [(7, 3), (4, 0)]
  | .dmCheck => [(7, 3), (4, 0), (2, 3)]
  | .dmEncode => [(7, 3), (4, 0), (2, 3), (9, 3)]

end Sys2Proof.Machine
end

