-- ==== Sys2Proof/Certificates/Slice0/Obligations.lean ====
section
/-!
DEFINITION. The statements for the provers. Where a statement speaks of parameters `P`, it holds for every block; the block of `exec`
is the one with `Config.params` (CommandsRunAtBlockParameters), so that a premise on T10 has a witness.
-/

open Sys2Proof Sys2Proof.Machine

/-! ### The machine and its ports -/

/-- R41: a word written to the command port that decodes to a well-formed command is executed: the step is `exec` of it, in the state
from which the host's move has been taken. -/
def Obligations.StepRunsDecodedCommand : Prop :=
  ∀ (s : State) (w : Command) (rest : List HostMove) (i : Instr), s.hostMoves = .command w :: rest → decode w = .ok i →
    i.wellFormed = true → step s = exec i { s with hostMoves := rest }

/-- R150, R185: every command ends, in success or failure, and the block itself never stops. -/
def Obligations.EveryStepAnswersNext : Prop :=
  (∀ (i : Instr) (s : State), ∃ t, exec i s = .next t) ∧ ∀ s : State, ∃ t, step s = .next t

/-- R44: reads of any addresses, any number of them, change no state of the block, and each gives the value its register has before
the first. (Where the moves come from and where the values go is the model's choice, logs 1 and 2.) -/
def Obligations.ReadsChangeNothing : Prop :=
  ∀ (reads : List (BitVec 8)) (s : State) (rest : List HostMove), s.hostMoves = reads.map .read ++ rest →
    ∃ t, runMoves reads.length s = some t ∧ SameBlock s t ∧ t.hostMoves = rest ∧
      t.hostReplies = s.hostReplies ++ reads.map (readReg s)

/-- R34: after reset every piece of state has the value of the table. -/
def Obligations.ResetGivesTableValues : Prop :=
  (∀ (s : State) (lost : List Command) (rest : List HostMove), s.hostMoves = .reset lost :: rest →
    ∃ t, step s = .next t ∧ SameBlock State.reset t) ∧
  State.reset.status = 0#32 ∧ State.reset.res0 = 0#32 ∧ State.reset.res1 = 0#32 ∧ State.reset.errpos = 0#32 ∧
  State.reset.gf = ⟨false, 0, 0⟩ ∧ State.reset.qg = ⟨false, .none, 0, 0, 0, 0⟩ ∧ State.reset.alpha = [] ∧ State.reset.str = [] ∧
  State.reset.dmValid = false

/-- What the host's side does (the model's own fields and choices, logs 1 to 4). A reset move gives the reset state whatever words were
written while reset was asserted (R178), and keeps what the host does next and has read; a read move appends its value to
`hostReplies`; a move is taken off `hostMoves`; with no move left the block holds its state. -/
def Obligations.HostSideOfTheStep : Prop :=
  (∀ (s : State) (lost : List Command) (rest : List HostMove), s.hostMoves = .reset lost :: rest →
    step s = .next { State.reset with hostMoves := rest, hostReplies := s.hostReplies }) ∧
  (∀ (s : State) (a : BitVec 8) (rest : List HostMove), s.hostMoves = .read a :: rest →
    step s = .next { s with hostMoves := rest, hostReplies := s.hostReplies ++ [readReg s a] }) ∧
  ∀ s : State, s.hostMoves = [] → step s = .next s

/-- R42: the register read map, each register as the number its fields make. -/
def Obligations.RegisterReadMap : Prop :=
  ∀ (P : Params) (s : State), s.WellFormed P →
    (readReg s 0x00#8).toNat = 0x44414D4D ∧ (readReg s 0x01#8).toNat = 8 ∧ (readReg s 0x02#8).toNat = 256 ∧
    (readReg s 0x03#8).toNat = 256 ∧ readReg s 0x04#8 = s.status ∧ readReg s 0x05#8 = s.res0 ∧ readReg s 0x06#8 = s.res1 ∧
    readReg s 0x07#8 = s.errpos ∧
    (readReg s 0x08#8).toNat = s.gf.valid.toNat + 2 ^ 8 * s.gf.deg ∧ (readReg s 0x09#8).toNat = s.gf.poly ∧
    (readReg s 0x0A#8).toNat = s.qg.valid.toNat + 2 * s.qg.strat.code + 2 ^ 8 * s.qg.deg + 2 ^ 16 * s.qg.order ∧
    (readReg s 0x0B#8).toNat = s.qg.m ∧ (readReg s 0x0C#8).toNat = s.qg.poly ∧ (readReg s 0x0D#8).toNat = s.dmValid.toNat ∧
    (readReg s 0x0E#8).toNat = s.alpha.length ∧ (readReg s 0x0F#8).toNat = s.str.length

/-- R43: a read of an address from 0x10 to 0xFF returns 0 and raises no error. -/
def Obligations.UnmappedReadsGiveZero : Prop :=
  ∀ (s : State) (a : BitVec 8) (rest : List HostMove), 0x10 ≤ a.toNat → s.hostMoves = .read a :: rest →
    readReg s a = 0 ∧ ∃ t, step s = .next t ∧ t.status = s.status ∧ t.errpos = s.errpos

/-! ### Encoding -/

/-- R61: the five fields of a word, as numbers; no field overlaps another and together they cover all 64 bits. -/
def Obligations.FieldsTileTheWord : Prop :=
  (∀ w : Command,
    (Fields.ofWord w).op.toNat = w.toNat / 2 ^ 56 ∧ (Fields.ofWord w).rsv.toNat = w.toNat / 2 ^ 49 % 2 ^ 7 ∧
    (Fields.ofWord w).sa.toNat = w.toNat / 2 ^ 48 % 2 ∧ (Fields.ofWord w).a.toNat = w.toNat / 2 ^ 32 % 2 ^ 16 ∧
    (Fields.ofWord w).b.toNat = w.toNat % 2 ^ 32 ∧ (Fields.ofWord w).toWord = w) ∧
  ∀ f : Fields, Fields.ofWord f.toWord = f

/-- R64, R71: decoding the encoding of a command gives the command back, for all 28 constructors and every value of their operands. -/
def Obligations.DecodeEncodeRoundTrip : Prop := ∀ i : Instr, decode (encode i) = .ok i

/-- R73: the decoder matches a command on OP, RSV and SA only: words that agree there are both commands of one row of the opcode map or
both not commands, and they are the same command if they agree in the operand fields it reads as well. -/
def Obligations.DecodeIgnoresUnreadFields : Prop :=
  ∀ (v w : Command) (i : Instr), (Fields.ofWord v).op = (Fields.ofWord w).op → (Fields.ofWord v).rsv = (Fields.ofWord w).rsv →
    (Fields.ofWord v).sa = (Fields.ofWord w).sa → decode w = .ok i →
    (∃ j, decode v = .ok j ∧ mnemonic j = mnemonic i) ∧
    ((readsA i = true → (Fields.ofWord v).a = (Fields.ofWord w).a) → (readsB i = true → (Fields.ofWord v).b = (Fields.ofWord w).b) →
      decode v = .ok i)

/-- R68: the decoder applies R65, then R66, then R67, and the first that applies gives the error; a word that passes all three is a
command. -/
def Obligations.DecodeChecksInOrder : Prop :=
  ∀ w : Command,
    ((Fields.ofWord w).opReserved = true → decode w = .error .reservedOp) ∧
    ((Fields.ofWord w).opReserved = false → (Fields.ofWord w).rsvZero = false → decode w = .error .reservedBits) ∧
    ((Fields.ofWord w).opReserved = false → (Fields.ofWord w).rsvZero = true → (Fields.ofWord w).saLegal = false →
      decode w = .error .saNotAllowed) ∧
    ((Fields.ofWord w).wellFormed = true → ∃ i, decode w = .ok i)

/-- R65, R66, R67: an illegal word fails with IllegalCommand, DETAIL 1, 2 or 3, and changes STATUS and ERRPOS only. -/
def Obligations.IllegalWordsFail : Prop :=
  ∀ (s : State) (w : Command) (rest : List HostMove), s.hostMoves = .command w :: rest →
    (((Fields.ofWord w).op.toNat = 0x00 ∨ (0x03 ≤ (Fields.ofWord w).op.toNat ∧ (Fields.ofWord w).op.toNat ≤ 0x0F) ∨
        (0x16 ≤ (Fields.ofWord w).op.toNat ∧ (Fields.ofWord w).op.toNat ≤ 0x1F) ∨
        (0x23 ≤ (Fields.ofWord w).op.toNat ∧ (Fields.ofWord w).op.toNat ≤ 0x2F) ∨ 0x3B ≤ (Fields.ofWord w).op.toNat) →
      step s = .next (State.failure { s with hostMoves := rest } 8 1 0)) ∧
    ((Fields.ofWord w).opReserved = false → (Fields.ofWord w).rsv ≠ 0 →
      step s = .next (State.failure { s with hostMoves := rest } 8 2 0)) ∧
    ((Fields.ofWord w).opReserved = false → (Fields.ofWord w).rsv = 0 → (Fields.ofWord w).sa = true →
      (Fields.ofWord w).op.toNat ∉ [0x12, 0x13, 0x14, 0x15, 0x21, 0x22] →
      step s = .next (State.failure { s with hostMoves := rest } 8 3 0))

/-- Words of 95_test_vectors.md, one of each family at least, and the commands they stand for. -/
def Obligations.SampleWordsDecode : Prop :=
  decode 0x0100FFFFFFFFFFFF#64 = .ok .nop ∧ decode 0x1300005700000083#64 = .ok (.gfMul 0x57 0x83) ∧
  decode 0x150100000000001B#64 = .ok (.gfDivR 0x1B) ∧ decode 0x2000000C00000000#64 = .ok (.qgBuild 12) ∧
  decode 0x2201000000000000#64 = .ok .qgInvR ∧ decode 0x3100000000000041#64 = .ok (.alPush 0x41) ∧
  decode 0x3600000400000000#64 = .ok (.stRd 4) ∧ decode 0x3A00000000000000#64 = .ok .dmEncode

/-- R71: assembling what a disassembler prints gives the command back. -/
def Obligations.AssembleDisassembledCommand : Prop := ∀ i : Instr, assembleCommand (mnemonic i) (operands i) = some i

/-! ### Status -/

/-- R23: where the fields of STATUS lie. -/
def Obligations.StatusLayout : Prop :=
  (∀ st : Word, (statusCode st).toNat = st.toNat % 2 ^ 4 ∧ (statusDetail st).toNat = st.toNat / 2 ^ 8 % 2 ^ 8 ∧
    (statusSticky st).toNat = st.toNat / 2 ^ 31) ∧
  ∀ (k : Bool) (d : BitVec 8) (c : BitVec 4), (statusWord k d c).toNat = c.toNat + 2 ^ 8 * d.toNat + 2 ^ 31 * k.toNat

/-- R150, R153, R154: a command succeeds (CODE 0, DETAIL 0, STICKY and ERRPOS kept but under CLRSTAT) or fails, and then nothing but STATUS
and ERRPOS changes; ERRPOS is 0 but for the two positional codes. -/
def Obligations.CommandSucceedsOrFailsWhole : Prop :=
  ∀ (i : Instr) (s : State), ∃ t, exec i s = .next t ∧
    ((statusCode t.status = 0 ∧ statusDetail t.status = 0 ∧
        (i ≠ .clrstat → statusSticky t.status = statusSticky s.status ∧ t.errpos = s.errpos)) ∨
      ∃ code detail pos, 1 ≤ code ∧ code ≤ 9 ∧ (code ≠ 4 → code ≠ 5 → pos = 0) ∧ t = s.failure code detail pos)

/-- R152, R155, R157: a command reports no failure but those the tables give it. -/
def Obligations.FailuresWithinTable : Prop :=
  ∀ (i : Instr) (s t : State), exec i s = .next t → statusCode t.status ≠ 0 →
    ((statusCode t.status).toNat, (statusDetail t.status).toNat) ∈ failuresOf i

/-- R33: nothing inside the block reads STATUS: with another STATUS before, a command does the same but for STICKY. -/
def Obligations.CommandsIgnoreStatus : Prop :=
  ∀ (i : Instr) (s : State) (st : Word), ∃ t u, exec i s = .next t ∧ exec i { s with status := st } = .next u ∧
    statusCode u.status = statusCode t.status ∧ statusDetail u.status = statusDetail t.status ∧
    { u with status := 0 } = { t with status := 0 }

/-- R21, R23, R25 to R29, R112, R139, R153, R180, D28: the frame of every command. A context, a list, DM_VALID and the results change under
the commands named alone. The clause that `hostMoves` and `hostReplies` never change is about the model's own fields and rests on its
choices, logs 1 and 2. -/
def Obligations.CommandsTouchOnlyTheirState : Prop :=
  ∀ (i : Instr) (s t : State), exec i s = .next t →
    t.hostMoves = s.hostMoves ∧ t.hostReplies = s.hostReplies ∧
    (t.gf = s.gf ∨ ∃ a, i = .gfCfg a) ∧
    (t.qg = s.qg ∨ (∃ a, i = .qgBuild a) ∨ i = .dmInit) ∧
    (t.alpha = s.alpha ∨ i = .alClr ∨ ∃ b, i = .alPush b) ∧
    (t.str = s.str ∨ i = .stClr ∨ (∃ b, i = .stPush b) ∨ i = .dmEncode) ∧
    (t.dmValid = s.dmValid ∨ (t.dmValid = false ∧ ((∃ a, i = .qgBuild a) ∨ i = .alClr ∨ ∃ b, i = .alPush b)) ∨
      (t.dmValid = true ∧ i = .dmInit)) ∧
    ((t.res0 = s.res0 ∧ t.res1 = s.res1) ∨ (writesRes i = true ∧ statusCode t.status = 0)) ∧
    (statusSticky s.status = true → statusSticky t.status = true ∨ i = .clrstat)

/-! ### Control commands -/

/-- R145, R146: NOP and CLRSTAT. -/
def Obligations.NopAndClrstatRules : Prop :=
  (∀ a b, decode (Fields.toWord ⟨0x01#8, 0, false, a, b⟩) = .ok .nop) ∧
  (∀ a b, decode (Fields.toWord ⟨0x02#8, 0, false, a, b⟩) = .ok .clrstat) ∧
  ∀ s : State,
    exec .nop s = .next { s with status := statusWord (statusSticky s.status) 0 0 } ∧
    exec .clrstat s = .next { s with status := 0, errpos := 0 }

/-! ### GF unit -/

/-- R85: GF.CFG d. -/
def Obligations.GfCfgRule : Prop :=
  (∀ a b, decode (Fields.toWord ⟨0x10#8, 0, false, a, b⟩) = .ok (.gfCfg a)) ∧
  ∀ (a : BitVec 16) (s : State),
    (a.toNat = 0 → exec (.gfCfg a) s = .next (s.failure 6 1 0)) ∧
    (8 < a.toNat → exec (.gfCfg a) s = .next (s.failure 6 2 0)) ∧
    (1 ≤ a.toNat → a.toNat ≤ 8 →
      exec (.gfCfg a) s = .next { s.success with
        gf := ⟨true, a.toNat, Config.params.irred a.toNat⟩
        res0 := word (2 ^ a.toNat)
        res1 := word (Config.params.irred a.toNat) })

/-- R86: GF.REDUCE bits. An element is returned unchanged, and the polynomial itself gives 0. -/
def Obligations.GfReduceRule : Prop :=
  (∀ a b, decode (Fields.toWord ⟨0x11#8, 0, false, a, b⟩) = .ok (.gfReduce b)) ∧
  ∀ (b : BitVec 32) (s : State),
    (s.gf.valid = false → exec (.gfReduce b) s = .next (s.failure 7 1 0)) ∧
    (s.gf.valid = true →
      exec (.gfReduce b) s = .next { s.success with res0 := word (reduce s.gf.deg s.gf.poly b.toNat), res1 := 0 }) ∧
    (b.toNat < 2 ^ s.gf.deg → reduce s.gf.deg s.gf.poly b.toNat = b.toNat) ∧
    (2 ^ s.gf.deg ≤ b.toNat → b.toNat < 2 ^ (s.gf.deg + 1) → s.gf.poly = b.toNat → reduce s.gf.deg s.gf.poly b.toNat = 0)

/-- R87: GF.ADD and GF.ADD.R; `x` is operand A. -/
def Obligations.GfAddRule : Prop :=
  (∀ a b, decode (Fields.toWord ⟨0x12#8, 0, false, a, b⟩) = .ok (.gfAdd a b)) ∧
  (∀ a b, decode (Fields.toWord ⟨0x12#8, 0, true, a, b⟩) = .ok (.gfAddR b)) ∧
  ∀ (i : Instr) (x : Nat) (b : BitVec 32) (s : State),
    ((∃ a : BitVec 16, i = .gfAdd a b ∧ x = a.toNat) ∨ (i = .gfAddR b ∧ x = s.res0.toNat)) →
    (s.gf.valid = false → exec i s = .next (s.failure 7 1 0)) ∧
    (s.gf.valid = true → 2 ^ s.gf.deg ≤ x → b.toNat < 2 ^ s.gf.deg → exec i s = .next (s.failure 1 1 0)) ∧
    (s.gf.valid = true → x < 2 ^ s.gf.deg → 2 ^ s.gf.deg ≤ b.toNat → exec i s = .next (s.failure 1 2 0)) ∧
    (s.gf.valid = true → 2 ^ s.gf.deg ≤ x → 2 ^ s.gf.deg ≤ b.toNat → exec i s = .next (s.failure 1 3 0)) ∧
    (s.gf.valid = true → x < 2 ^ s.gf.deg → b.toNat < 2 ^ s.gf.deg →
      exec i s = .next { s.success with res0 := word (x ^^^ b.toNat), res1 := 0 } ∧ x ^^^ b.toNat < 2 ^ s.gf.deg ∧
      (x = b.toNat → x ^^^ b.toNat = 0))

/-- R88: GF.MUL and GF.MUL.R; `x` is operand A. -/
def Obligations.GfMulRule : Prop :=
  (∀ a b, decode (Fields.toWord ⟨0x13#8, 0, false, a, b⟩) = .ok (.gfMul a b)) ∧
  (∀ a b, decode (Fields.toWord ⟨0x13#8, 0, true, a, b⟩) = .ok (.gfMulR b)) ∧
  ∀ (i : Instr) (x : Nat) (b : BitVec 32) (s : State),
    ((∃ a : BitVec 16, i = .gfMul a b ∧ x = a.toNat) ∨ (i = .gfMulR b ∧ x = s.res0.toNat)) →
    (s.gf.valid = false → exec i s = .next (s.failure 7 1 0)) ∧
    (s.gf.valid = true → 2 ^ s.gf.deg ≤ x → b.toNat < 2 ^ s.gf.deg → exec i s = .next (s.failure 1 1 0)) ∧
    (s.gf.valid = true → x < 2 ^ s.gf.deg → 2 ^ s.gf.deg ≤ b.toNat → exec i s = .next (s.failure 1 2 0)) ∧
    (s.gf.valid = true → 2 ^ s.gf.deg ≤ x → 2 ^ s.gf.deg ≤ b.toNat → exec i s = .next (s.failure 1 3 0)) ∧
    (s.gf.valid = true → x < 2 ^ s.gf.deg → b.toNat < 2 ^ s.gf.deg →
      exec i s = .next { s.success with res0 := word (gfmul s.gf.deg s.gf.poly x b.toNat), res1 := 0 } ∧
      (x = 0 ∨ b = 0 → gfmul s.gf.deg s.gf.poly x b.toNat = 0) ∧ (b = 1 → gfmul s.gf.deg s.gf.poly x b.toNat = x) ∧
      (x = 1 → gfmul s.gf.deg s.gf.poly x b.toNat = b.toNat))

/-- R89: GF.INV and GF.INV.R; `x` is operand A. In a field 0 has no inverse, 1 is its own, and the inverse of the inverse is the
element. -/
def Obligations.GfInvRule : Prop :=
  (∀ a b, decode (Fields.toWord ⟨0x14#8, 0, false, a, b⟩) = .ok (.gfInv a)) ∧
  (∀ a b, decode (Fields.toWord ⟨0x14#8, 0, true, a, b⟩) = .ok .gfInvR) ∧
  ∀ (i : Instr) (x : Nat) (s : State),
    ((∃ a : BitVec 16, i = .gfInv a ∧ x = a.toNat) ∨ (i = .gfInvR ∧ x = s.res0.toNat)) →
    (s.gf.valid = false → exec i s = .next (s.failure 7 1 0)) ∧
    (s.gf.valid = true → 2 ^ s.gf.deg ≤ x → exec i s = .next (s.failure 1 1 0)) ∧
    (s.gf.valid = true → x < 2 ^ s.gf.deg → (∀ p, p < 2 ^ s.gf.deg → gfmul s.gf.deg s.gf.poly p x ≠ 1) →
      exec i s = .next (s.failure 2 1 0)) ∧
    (∀ p, s.gf.valid = true → x < 2 ^ s.gf.deg → p < 2 ^ s.gf.deg → gfmul s.gf.deg s.gf.poly p x = 1 →
      (∀ q, q < p → gfmul s.gf.deg s.gf.poly q x ≠ 1) → exec i s = .next { s.success with res0 := word p, res1 := 0 }) ∧
    ∀ P : Params, s.gf.WellFormed P → s.gf.valid = true →
      (x = 0 → exec i s = .next (s.failure 2 1 0)) ∧
      (x = 1 → exec i s = .next { s.success with res0 := 1, res1 := 0 }) ∧
      ∀ p, x < 2 ^ s.gf.deg → gfinv s.gf.deg s.gf.poly x = some p → gfinv s.gf.deg s.gf.poly p = some x

/-- R90: GF.DIV and GF.DIV.R; `x` is operand A. The successful case is for a field, where operand B has an inverse `p`. -/
def Obligations.GfDivRule : Prop :=
  (∀ a b, decode (Fields.toWord ⟨0x15#8, 0, false, a, b⟩) = .ok (.gfDiv a b)) ∧
  (∀ a b, decode (Fields.toWord ⟨0x15#8, 0, true, a, b⟩) = .ok (.gfDivR b)) ∧
  ∀ (i : Instr) (x : Nat) (b : BitVec 32) (s : State),
    ((∃ a : BitVec 16, i = .gfDiv a b ∧ x = a.toNat) ∨ (i = .gfDivR b ∧ x = s.res0.toNat)) →
    (s.gf.valid = false → exec i s = .next (s.failure 7 1 0)) ∧
    (s.gf.valid = true → 2 ^ s.gf.deg ≤ b.toNat → x < 2 ^ s.gf.deg → exec i s = .next (s.failure 1 2 0)) ∧
    (s.gf.valid = true → 2 ^ s.gf.deg ≤ b.toNat → 2 ^ s.gf.deg ≤ x → exec i s = .next (s.failure 1 3 0)) ∧
    (s.gf.valid = true → b = 0 → exec i s = .next (s.failure 2 1 0)) ∧
    (s.gf.valid = true → b ≠ 0 → b.toNat < 2 ^ s.gf.deg → 2 ^ s.gf.deg ≤ x → exec i s = .next (s.failure 1 1 0)) ∧
    (∀ p, s.gf.valid = true → b ≠ 0 → b.toNat < 2 ^ s.gf.deg → x < 2 ^ s.gf.deg → gfinv s.gf.deg s.gf.poly b.toNat = some p →
      exec i s = .next { s.success with res0 := word (gfmul s.gf.deg s.gf.poly x p), res1 := 0 } ∧
      (x = 0 → gfmul s.gf.deg s.gf.poly x p = 0) ∧ (b = 1 → gfmul s.gf.deg s.gf.poly x p = x) ∧
      (x = b.toNat → gfmul s.gf.deg s.gf.poly x p = 1))

/-- R80: the carry-less product: what it is, its zeros, its length, and that it is multiplication in GF(2)[x]. -/
def Obligations.CarrylessProductLaws : Prop :=
  (∀ i j N, bitlen j ≤ N → clmul i j = (List.range N).foldl (fun r p => if j.testBit p then r ^^^ (i <<< p) else r) 0) ∧
  (∀ i, clmul i 0 = 0) ∧ (∀ j, clmul 0 j = 0) ∧
  (∀ i j, 1 ≤ i → 1 ≤ j → bitlen (clmul i j) = bitlen i + bitlen j - 1) ∧
  (∀ d i j, i < 2 ^ d → j < 2 ^ d → clmul i j < 2 ^ (2 * d - 1)) ∧
  (∀ i j, clmul i j = clmul j i) ∧ (∀ i j k, clmul (clmul i j) k = clmul i (clmul j k)) ∧
  ∀ i j k, clmul i (j ^^^ k) = clmul i j ^^^ clmul i k

/-- R92: the properties (a) to (f) of reduction, for every polynomial whose top bit is bit d. -/
def Obligations.ReduceProperties : Prop :=
  ∀ d poly, 2 ^ d ≤ poly → poly < 2 ^ (d + 1) →
    (∀ v, reduce d poly v < 2 ^ d) ∧
    (∀ v, v < 2 ^ d → reduce d poly v = v) ∧
    (∀ a b, reduce d poly (a ^^^ b) = reduce d poly a ^^^ reduce d poly b) ∧
    (∀ k, reduce d poly (poly <<< k) = 0) ∧
    (∀ v r, (r < 2 ^ d ∧ ∃ q, v ^^^ r = clmul poly q) ↔ r = reduce d poly v) ∧
    ∀ a b, reduce d poly (clmul a b) = gfmul d poly (reduce d poly a) (reduce d poly b)

/-- R93: multiplication by x is one shift and at most one XOR. -/
def Obligations.MultiplicationByX : Prop :=
  ∀ d poly i, 2 ≤ d → 2 ^ d ≤ poly → poly < 2 ^ (d + 1) → i < 2 ^ d →
    gfmul d poly 2 i = if i < 2 ^ (d - 1) then i <<< 1 else (i <<< 1) ^^^ poly

/-- R7, R17: the values the model admits for IRRED(d) are exactly the odd numbers with top bit d that have no nontrivial factors. (That
the model tests irreducibility by trial division is its choice, log 5; this statement says that the test says no more and no less than
R7.) -/
def Obligations.AdmissibleMeansIrreducible : Prop :=
  ∀ d p, 1 ≤ d →
    (Admissible d p ↔ 2 ^ d ≤ p ∧ p < 2 ^ (d + 1) ∧ p % 2 = 1 ∧ ∀ q r, clmul q r = p → q = 1 ∨ r = 1)

/-- R83: the field's inverse search finds none exactly for 0, and for every other element exactly one number matches. -/
def Obligations.FieldInverseSearch : Prop :=
  ∀ (P : Params) (d : Nat), 1 ≤ d → d ≤ 8 →
    gfinv d (P.irred d) 0 = none ∧
    ∀ k, 1 ≤ k → k < 2 ^ d →
      ∃ p, gfinv d (P.irred d) k = some p ∧ p < 2 ^ d ∧ gfmul d (P.irred d) p k = 1 ∧
        ∀ q, q < 2 ^ d → gfmul d (P.irred d) q k = 1 → q = p

/-- R91 (i) to (iii): the field laws, for every value IRRED(d) may take. -/
def Obligations.FieldLaws : Prop :=
  ∀ d poly, 1 ≤ d → d ≤ 8 → Admissible d poly →
    (∀ i j, i < 2 ^ d → j < 2 ^ d → gfmul d poly i j < 2 ^ d ∧ gfmul d poly i j = gfmul d poly j i) ∧
    (∀ i j k, i < 2 ^ d → j < 2 ^ d → k < 2 ^ d →
      gfmul d poly (gfmul d poly i j) k = gfmul d poly i (gfmul d poly j k) ∧
      gfmul d poly i (j ^^^ k) = gfmul d poly i j ^^^ gfmul d poly i k) ∧
    (∀ i, i < 2 ^ d → gfmul d poly i 1 = i ∧ gfmul d poly i 0 = 0) ∧
    ∀ i v, 1 ≤ i → i < 2 ^ d → 1 ≤ v → v < 2 ^ d → ∃ j, 1 ≤ j ∧ j < 2 ^ d ∧ gfmul d poly i j = v ∧
      ∀ k, k < 2 ^ d → gfmul d poly i k = v → k = j

/-- R94: division undoes multiplication, an element times its inverse is 1, and addition is its own inverse, command by command. -/
def Obligations.GfCommandIdentities : Prop :=
  ∀ (P : Params) (s : State) (a : BitVec 16) (b : BitVec 32), s.gf.WellFormed P → s.gf.valid = true → a.toNat < 2 ^ s.gf.deg →
    b.toNat < 2 ^ s.gf.deg →
    (b ≠ 0 → ∃ t u, exec (.gfMul a b) s = .next t ∧ exec (.gfDivR b) t = .next u ∧ u.Succeeded ∧ u.res0 = a.setWidth 32) ∧
    (a ≠ 0 → ∃ t u, exec (.gfInv a) s = .next t ∧ exec (.gfMulR (a.setWidth 32)) t = .next u ∧ u.Succeeded ∧ u.res0 = 1) ∧
    ∃ t u, exec (.gfAdd a b) s = .next t ∧ exec (.gfAddR b) t = .next u ∧ u.Succeeded ∧ u.res0 = a.setWidth 32

/-! ### QG unit -/

/-- R100, R104: QG.BUILD n, by the cases of the dispatch. -/
def Obligations.QgBuildRule : Prop :=
  (∀ a b, decode (Fields.toWord ⟨0x20#8, 0, false, a, b⟩) = .ok (.qgBuild a)) ∧
  ∀ (a : BitVec 16) (s : State),
    (a.toNat < 1 → exec (.qgBuild a) s = .next (s.failure 3 1 0)) ∧
    (a.toNat = 1 ∨ a.toNat = 2 → exec (.qgBuild a) s = .next (s.failure 3 2 0)) ∧
    (a.toNat = 6 → exec (.qgBuild a) s = .next (s.failure 3 3 0)) ∧
    (a.toNat % 4 = 2 → a.toNat ≠ 2 → a.toNat ≠ 6 → a.toNat ≠ 10 → exec (.qgBuild a) s = .next (s.failure 3 4 0)) ∧
    (a.toNat % 4 ≠ 2 → 256 < a.toNat → exec (.qgBuild a) s = .next (s.failure 3 5 0)) ∧
    (a.toNat = 10 → exec (.qgBuild a) s = .next { s.success with
      qg := ⟨true, .fixed10, 10, 0, 0, 0⟩, dmValid := false, res0 := 1, res1 := 10 }) ∧
    (a.toNat % 2 = 1 → 3 ≤ a.toNat → a.toNat ≤ 256 → exec (.qgBuild a) s = .next { s.success with
      qg := ⟨true, .odd, a.toNat, 0, a.toNat, 0⟩, dmValid := false, res0 := 2, res1 := word a.toNat }) ∧
    (∀ d, 2 ≤ d → a.toNat = 2 ^ d → a.toNat ≤ 256 → exec (.qgBuild a) s = .next { s.success with
      qg := ⟨true, .pow2, a.toNat, d, 1, Config.params.irred d⟩, dmValid := false, res0 := 3, res1 := word a.toNat }) ∧
    (∀ d m, 2 ≤ d → m % 2 = 1 → 3 ≤ m → a.toNat = 2 ^ d * m → a.toNat ≤ 256 → exec (.qgBuild a) s = .next { s.success with
      qg := ⟨true, .composite, a.toNat, d, m, Config.params.irred d⟩, dmValid := false, res0 := 4, res1 := word a.toNat })

/-- R105: QG.MUL and QG.MUL.R; `x` is operand A. But for FIXED10, 0 is a left identity. -/
def Obligations.QgMulRule : Prop :=
  (∀ a b, decode (Fields.toWord ⟨0x21#8, 0, false, a, b⟩) = .ok (.qgMul a b)) ∧
  (∀ a b, decode (Fields.toWord ⟨0x21#8, 0, true, a, b⟩) = .ok (.qgMulR b)) ∧
  ∀ (i : Instr) (x : Nat) (b : BitVec 32) (s : State),
    ((∃ a : BitVec 16, i = .qgMul a b ∧ x = a.toNat) ∨ (i = .qgMulR b ∧ x = s.res0.toNat)) →
    (s.qg.valid = false → exec i s = .next (s.failure 7 2 0)) ∧
    (s.qg.valid = true → s.qg.order ≤ x → b.toNat < s.qg.order → exec i s = .next (s.failure 1 1 0)) ∧
    (s.qg.valid = true → x < s.qg.order → s.qg.order ≤ b.toNat → exec i s = .next (s.failure 1 2 0)) ∧
    (s.qg.valid = true → s.qg.order ≤ x → s.qg.order ≤ b.toNat → exec i s = .next (s.failure 1 3 0)) ∧
    (s.qg.valid = true → x < s.qg.order → b.toNat < s.qg.order →
      exec i s = .next { s.success with res0 := word (qmult Config.params s.qg x b.toNat), res1 := 0 } ∧
      (s.qg.WellFormed Config.params → x = 0 → s.qg.strat ≠ .fixed10 → qmult Config.params s.qg x b.toNat = b.toNat))

/-- R107: QG.INV and QG.INV.R, the left inverse; `x` is operand A. But for FIXED10, 0 is its own; for ODD,
every element is. -/
def Obligations.QgInvRule : Prop :=
  (∀ a b, decode (Fields.toWord ⟨0x22#8, 0, false, a, b⟩) = .ok (.qgInv a)) ∧
  (∀ a b, decode (Fields.toWord ⟨0x22#8, 0, true, a, b⟩) = .ok .qgInvR) ∧
  ∀ (i : Instr) (x : Nat) (s : State),
    ((∃ a : BitVec 16, i = .qgInv a ∧ x = a.toNat) ∨ (i = .qgInvR ∧ x = s.res0.toNat)) →
    (s.qg.valid = false → exec i s = .next (s.failure 7 2 0)) ∧
    (s.qg.valid = true → s.qg.order ≤ x → exec i s = .next (s.failure 1 1 0)) ∧
    (s.qg.valid = true → x < s.qg.order → (∀ p, p < s.qg.order → qmult Config.params s.qg p x ≠ 0) →
      exec i s = .next (s.failure 2 2 0)) ∧
    (∀ p, s.qg.valid = true → x < s.qg.order → p < s.qg.order → qmult Config.params s.qg p x = 0 →
      (∀ q, q < p → qmult Config.params s.qg q x ≠ 0) → exec i s = .next { s.success with res0 := word p, res1 := 0 }) ∧
    (s.qg.valid = true → s.qg.WellFormed Config.params → s.qg.strat ≠ .fixed10 → x = 0 →
      exec i s = .next { s.success with res0 := 0, res1 := 0 }) ∧
    (s.qg.valid = true → s.qg.WellFormed Config.params → s.qg.strat = .odd → x < s.qg.order →
      exec i s = .next { s.success with res0 := word x, res1 := 0 })

/-- R101: the multiplication by strategy, its result is in [0, n), and the field's operands are elements of the internal field: in POW2 the
field has order n = 2^d with d ≥ 2 and 2, i and j are elements, in COMPOSITE 2 and the quotient parts are. -/
def Obligations.QuasigroupMultiplication : Prop :=
  ∀ (P : Params) (n : Nat) (c : QgContext), classify P n = .ok c → ∀ i j, i < n → j < n →
    qmult P c i j < n ∧
    (c.strat = .fixed10 → qmult P c i j = P.t10 i j) ∧
    (c.strat = .odd → qmult P c i j = (j + n - i) % n) ∧
    (c.strat = .pow2 → n = 2 ^ c.deg ∧ 2 ≤ c.deg ∧ 2 < 2 ^ c.deg ∧ i < 2 ^ c.deg ∧ j < 2 ^ c.deg ∧
      qmult P c i j = gfmul c.deg c.poly 2 i ^^^ j) ∧
    (c.strat = .composite → 2 ≤ c.deg ∧ 2 < 2 ^ c.deg ∧ i / c.m < 2 ^ c.deg ∧ j / c.m < 2 ^ c.deg ∧
      qmult P c i j = (gfmul c.deg c.poly 2 (i / c.m) ^^^ (j / c.m)) * c.m + (j % c.m + c.m - i % c.m) % c.m)

/-- R103: in a composite quasigroup, k = q·m + r pairs [0, n) with [0, 2^d) × [0, m), and the multiplication is that of the
power-of-two quasigroup of degree d on q and that of the odd quasigroup of order m on r. -/
def Obligations.CompositeIsDirectProduct : Prop :=
  ∀ (P : Params) (n : Nat) (c : QgContext), classify P n = .ok c → c.strat = .composite →
    n = 2 ^ c.deg * c.m ∧ c.m % 2 = 1 ∧ 3 ≤ c.m ∧ (∀ k, k < n → k / c.m < 2 ^ c.deg ∧ k / c.m * c.m + k % c.m = k) ∧
    ∃ cq cr, classify P (2 ^ c.deg) = .ok cq ∧ cq.strat = .pow2 ∧ classify P c.m = .ok cr ∧ cr.strat = .odd ∧
      ∀ q₁ r₁ q₂ r₂, q₁ < 2 ^ c.deg → r₁ < c.m → q₂ < 2 ^ c.deg → r₂ < c.m →
        q₁ * c.m + r₁ < n ∧ (q₁ * c.m + r₁) / c.m = q₁ ∧ (q₁ * c.m + r₁) % c.m = r₁ ∧
        qmult P c (q₁ * c.m + r₁) (q₂ * c.m + r₂) = qmult P cq q₁ q₂ * c.m + qmult P cr r₁ r₂

/-- R108: the Latin property of every quasigroup the hardware builds. -/
def Obligations.LatinProperty : Prop :=
  ∀ (P : Params) (n : Nat) (c : QgContext), classify P n = .ok c → (c.strat = .fixed10 → P.T10Latin) → LatinSquare n (qmult P c)

/-- R109: every quasigroup the hardware builds is weakly totally anti-symmetric, composite orders included (C2). -/
def Obligations.WeakAntiSymmetry : Prop :=
  ∀ (P : Params) (n : Nat) (c : QgContext), classify P n = .ok c → (c.strat = .fixed10 → P.T10WTA) →
    WeaklyAntiSymmetric n (qmult P c)

/-- R110: for ODD, POW2 and COMPOSITE the multiplication is also strongly totally anti-symmetric; the reference T10 is not. -/
def Obligations.StrongAntiSymmetry : Prop :=
  (∀ (P : Params) (n : Nat) (c : QgContext), classify P n = .ok c → c.strat ≠ .fixed10 → StronglyAntiSymmetric n (qmult P c)) ∧
  ¬ StronglyAntiSymmetric 10 Params.reference.t10

/-- R111: the closed forms of the two searches, and where they differ. -/
def Obligations.InverseSearchClosedForms : Prop :=
  (∀ (P : Params) (n : Nat) (c : QgContext), classify P n = .ok c → ∀ k, k < n →
    (c.strat = .odd → linv P c k = some k ∧ rsolve P c k = some k) ∧
    (c.strat = .pow2 → ∃ xi, gfinv c.deg c.poly 2 = some xi ∧
      linv P c k = some (gfmul c.deg c.poly xi k) ∧ rsolve P c k = some (gfmul c.deg c.poly 2 k)) ∧
    (c.strat = .composite → ∃ xi, gfinv c.deg c.poly 2 = some xi ∧
      linv P c k = some (gfmul c.deg c.poly xi (k / c.m) * c.m + k % c.m) ∧
      rsolve P c k = some (gfmul c.deg c.poly 2 (k / c.m) * c.m + k % c.m)) ∧
    (c.strat = .pow2 ∨ c.strat = .composite → k / c.m ≠ 0 → linv P c k ≠ rsolve P c k) ∧
    (c.strat = .fixed10 → P.T10Latin → ∀ p, p < 10 →
      (P.t10 p k = 0 → linv P c k = some p) ∧ (P.t10 k p = 0 → rsolve P c k = some p))) ∧
  ∀ c, classify Params.reference 10 = .ok c →
    ∀ k, k < 10 → Params.reference.t10 k k = 0 ∧ linv Params.reference c k = some k ∧ rsolve Params.reference c k = some k

/-! ### DM engine -/

/-- R122, R123, R124: AL.CLR, AL.PUSH and AL.RD. -/
def Obligations.AlphabetListRules : Prop :=
  (∀ a b, decode (Fields.toWord ⟨0x30#8, 0, false, a, b⟩) = .ok .alClr) ∧
  (∀ a b, decode (Fields.toWord ⟨0x31#8, 0, false, a, b⟩) = .ok (.alPush b)) ∧
  (∀ a b, decode (Fields.toWord ⟨0x32#8, 0, false, a, b⟩) = .ok (.alRd a)) ∧
  ∀ (s : State) (a : BitVec 16) (b : BitVec 32),
    exec .alClr s = .next { s.success with alpha := [], dmValid := false } ∧
    (s.alpha.length = 256 → exec (.alPush b) s = .next (s.failure 9 1 0)) ∧
    (s.alpha.length ≠ 256 → exec (.alPush b) s = .next { s.success with alpha := s.alpha ++ [b], dmValid := false }) ∧
    (s.alpha.length ≤ a.toNat → exec (.alRd a) s = .next (s.failure 9 2 0)) ∧
    (∀ h : a.toNat < s.alpha.length, exec (.alRd a) s = .next { s.success with res0 := s.alpha[a.toNat], res1 := 0 })

/-- R127, R128, R129: ST.CLR, ST.PUSH and ST.RD. -/
def Obligations.StringListRules : Prop :=
  (∀ a b, decode (Fields.toWord ⟨0x34#8, 0, false, a, b⟩) = .ok .stClr) ∧
  (∀ a b, decode (Fields.toWord ⟨0x35#8, 0, false, a, b⟩) = .ok (.stPush b)) ∧
  (∀ a b, decode (Fields.toWord ⟨0x36#8, 0, false, a, b⟩) = .ok (.stRd a)) ∧
  ∀ (s : State) (a : BitVec 16) (b : BitVec 32),
    exec .stClr s = .next { s.success with str := [] } ∧
    (s.str.length = 256 → exec (.stPush b) s = .next (s.failure 9 3 0)) ∧
    (s.str.length ≠ 256 → exec (.stPush b) s = .next { s.success with str := s.str ++ [b] }) ∧
    (s.str.length ≤ a.toNat → exec (.stRd a) s = .next (s.failure 9 4 0)) ∧
    (∀ h : a.toNat < s.str.length, exec (.stRd a) s = .next { s.success with res0 := s.str[a.toNat], res1 := 0 })

/-- R125, R126: DM.INIT. A failing position `j` has only single, distinct characters before it. In a well-formed state a failing DM.INIT
finds no codec, and no alphabet is too long for it. -/
def Obligations.DmInitRule : Prop :=
  (∀ a b, decode (Fields.toWord ⟨0x33#8, 0, false, a, b⟩) = .ok .dmInit) ∧
  ∀ s : State,
    (∀ j c, s.alpha[j]? = some c → (∀ e ∈ s.alpha.take j, e.toNat ≤ 0x10FFFF) → (s.alpha.take j).Nodup → 0x10FFFF < c.toNat →
      exec .dmInit s = .next (s.failure 5 1 j)) ∧
    (∀ j c, s.alpha[j]? = some c → (∀ e ∈ s.alpha.take j, e.toNat ≤ 0x10FFFF) → (s.alpha.take j).Nodup → c.toNat ≤ 0x10FFFF →
      c ∈ s.alpha.take j → exec .dmInit s = .next (s.failure 5 2 j)) ∧
    ((∀ e ∈ s.alpha, e.toNat ≤ 0x10FFFF) → s.alpha.Nodup →
      (∀ f, classify Config.params s.alpha.length = .error f → exec .dmInit s = .next (s.failure 3 f.detail 0)) ∧
      ∀ c, classify Config.params s.alpha.length = .ok c → exec .dmInit s = .next { s.success with
        qg := c, dmValid := true, res0 := word c.strat.code, res1 := word s.alpha.length }) ∧
    ∀ t, s.WellFormed Config.params → exec .dmInit s = .next t → statusCode t.status ≠ 0 →
      s.dmValid = false ∧ ¬ (statusCode t.status = 3 ∧ statusDetail t.status = 5)

/-- R130, R131: DM.PROCESS and DM.VERIFY. `ks` are the alphabet indices of the string's entries, and the accumulator is their left fold
from 0 (R121). It is 0 exactly when the fold's character is the neutral element. -/
def Obligations.ProcessAndVerifyRules : Prop :=
  (∀ a b, decode (Fields.toWord ⟨0x37#8, 0, false, a, b⟩) = .ok .dmProcess) ∧
  (∀ a b, decode (Fields.toWord ⟨0x38#8, 0, false, a, b⟩) = .ok .dmVerify) ∧
  ∀ s : State,
    (s.dmValid = false → exec .dmProcess s = .next (s.failure 7 3 0) ∧ exec .dmVerify s = .next (s.failure 7 3 0)) ∧
    (∀ pos c, s.dmValid = true → s.str[pos]? = some c → c ∉ s.alpha → (∀ e ∈ s.str.take pos, e ∈ s.alpha) →
      exec .dmProcess s = .next (s.failure 4 0 pos) ∧ exec .dmVerify s = .next (s.failure 4 0 pos)) ∧
    ∀ (ks : List Nat) (acc : Nat) (c : Word), s.dmValid = true → s.alpha.Nodup →
      s.str.map some = ks.map (fun k => s.alpha[k]?) → acc = ks.foldl (qmult Config.params s.qg) 0 → s.alpha[acc]? = some c →
      exec .dmProcess s = .next { s.success with res0 := c, res1 := word acc } ∧
      exec .dmVerify s = .next { s.success with res0 := if acc = 0 then 1 else 0, res1 := word acc } ∧
      (acc = 0 ↔ s.alpha[0]? = some c)

/-- R132, R133: DM.CHECK and DM.ENCODE, with `x` the right solution of the accumulator (R106). But for FIXED10, encoding an encoded
string appends the neutral element. -/
def Obligations.CheckAndEncodeRules : Prop :=
  (∀ a b, decode (Fields.toWord ⟨0x39#8, 0, false, a, b⟩) = .ok .dmCheck) ∧
  (∀ a b, decode (Fields.toWord ⟨0x3A#8, 0, false, a, b⟩) = .ok .dmEncode) ∧
  ∀ s : State,
    (s.dmValid = false → exec .dmCheck s = .next (s.failure 7 3 0) ∧ exec .dmEncode s = .next (s.failure 7 3 0)) ∧
    (∀ pos c, s.dmValid = true → s.str[pos]? = some c → c ∉ s.alpha → (∀ e ∈ s.str.take pos, e ∈ s.alpha) →
      exec .dmCheck s = .next (s.failure 4 0 pos) ∧ exec .dmEncode s = .next (s.failure 4 0 pos)) ∧
    (∀ t c, s.WellFormed Config.params → s.qg.strat ≠ .fixed10 → exec .dmEncode s = .next t → t.Succeeded → t.str.length < 256 →
      s.alpha[0]? = some c → exec .dmEncode t = .next { t.success with str := t.str ++ [c], res0 := c, res1 := 0 }) ∧
    ∀ (ks : List Nat) (acc : Nat), s.dmValid = true → s.alpha.Nodup →
      s.str.map some = ks.map (fun k => s.alpha[k]?) → acc = ks.foldl (qmult Config.params s.qg) 0 →
      ((∀ x, x < s.qg.order → qmult Config.params s.qg acc x ≠ 0) →
        exec .dmCheck s = .next (s.failure 2 3 0) ∧ exec .dmEncode s = .next (s.failure 2 3 0)) ∧
      ∀ (x : Nat) (c : Word), x < s.qg.order → qmult Config.params s.qg acc x = 0 →
        (∀ y, y < x → qmult Config.params s.qg acc y ≠ 0) → s.alpha[x]? = some c →
        exec .dmCheck s = .next { s.success with res0 := c, res1 := word x } ∧
        (s.str.length = 256 → exec .dmEncode s = .next (s.failure 9 3 0)) ∧
        (s.str.length ≠ 256 → exec .dmEncode s = .next { s.success with str := s.str ++ [c], res0 := c, res1 := word x })

/-- R140: a fold command with a foreign entry fails with ForeignCharacter and the first foreign position; nothing else changes, even in
DM.ENCODE on a full string. -/
def Obligations.ForeignCharacterRule : Prop :=
  ∀ (i : Instr) (s : State) (pos : Nat) (c : Word), i ∈ [Instr.dmProcess, .dmVerify, .dmCheck, .dmEncode] → s.dmValid = true →
    s.str[pos]? = some c → c ∉ s.alpha → (∀ e ∈ s.str.take pos, e ∈ s.alpha) → exec i s = .next (s.failure 4 0 pos)

/-- The commands that use IRRED or T10 are their rules at the block's own parameters (R31), so that a statement about every `P` is one
about them. -/
def Obligations.CommandsRunAtBlockParameters : Prop :=
  ∀ (s : State) (a : BitVec 16) (b : BitVec 32),
    exec (.gfCfg a) s = execute (ruleGfCfg Config.params a) s ∧ exec (.qgBuild a) s = execute (ruleQgBuild Config.params a) s ∧
    exec (.qgMul a b) s = execute (ruleQgMul Config.params (.field a) b) s ∧
    exec (.qgMulR b) s = execute (ruleQgMul Config.params .res0 b) s ∧
    exec (.qgInv a) s = execute (ruleQgInv Config.params (.field a)) s ∧
    exec .qgInvR s = execute (ruleQgInv Config.params .res0) s ∧ exec .dmInit s = execute (ruleDmInit Config.params) s ∧
    exec .dmProcess s = execute (ruleDmProcess Config.params) s ∧ exec .dmVerify s = execute (ruleDmVerify Config.params) s ∧
    exec .dmCheck s = execute (ruleDmCheck Config.params) s ∧ exec .dmEncode s = execute (ruleDmEncode Config.params) s

/-- R141: encode passes verify. -/
def Obligations.EncodePassesVerify : Prop :=
  ∀ (P : Params) (s : State), s.WellFormed P → s.dmValid = true → (s.qg.strat = .fixed10 → P.T10Latin) → (∀ c ∈ s.str, c ∈ s.alpha) →
    s.str.length < 256 →
    ∃ t u, execute (ruleDmEncode P) s = .next t ∧ t.Succeeded ∧ execute (ruleDmVerify P) t = .next u ∧ u.Succeeded ∧ u.res0 = 1 ∧
      u.res1 = 0

/-- R142: one substituted entry of a verified string is detected. -/
def Obligations.SubstitutionIsDetected : Prop :=
  ∀ (P : Params) (s t : State) (pos : Nat) (c : Word), s.WellFormed P → s.dmValid = true → (s.qg.strat = .fixed10 → P.T10Latin) →
    execute (ruleDmVerify P) s = .next t → t.Succeeded → t.res0 = 1 → pos < s.str.length → c ∈ s.alpha → s.str[pos]? ≠ some c →
    ∃ u, execute (ruleDmVerify P) { s with str := s.str.set pos c } = .next u ∧ u.Succeeded ∧ u.res0 = 0

/-- R143: a swap of two adjacent distinct entries of a verified string is detected, at every strategy. For FIXED10 both premises of R8
are named: T10_WTA for the pair, T10_Latin for the steps after it (as in R142). -/
def Obligations.AdjacentTranspositionIsDetected : Prop :=
  ∀ (P : Params) (s t : State) (before after : List Word) (x y : Word), s.WellFormed P → s.dmValid = true →
    (s.qg.strat = .fixed10 → P.T10Latin ∧ P.T10WTA) → s.str = before ++ x :: y :: after → x ≠ y →
    execute (ruleDmVerify P) s = .next t → t.Succeeded → t.res0 = 1 →
    ∃ u, execute (ruleDmVerify P) { s with str := before ++ y :: x :: after } = .next u ∧ u.Succeeded ∧ u.res0 = 0

/-- R134: a host fold through QG.MUL and QG.MUL.R (pseudo-instruction QG.FOLD, R72) ends with RES0 equal to the RES1 of DM.PROCESS. -/
def Obligations.HostFoldEqualsDmFold : Prop :=
  ∀ (s : State) (v : BitVec 32) (vs : List (BitVec 32)), s.WellFormed Config.params → s.dmValid = true →
    s.str.map some = (v :: vs).map (fun k => s.alpha[k.toNat]?) →
    ∃ t u, runInstrs (Pseudo.expand (.qgFold v vs)) s = some t ∧ t.Succeeded ∧ exec .dmProcess s = .next u ∧ u.Succeeded ∧
      t.res0 = u.res1

/-- R135: the multiplication is not associative: at order 5 the left fold of 1, 2, 4 is 3 and the tree gives 1. -/
def Obligations.FoldIsNotAssociative : Prop :=
  ∀ (P : Params) (c : QgContext), classify P 5 = .ok c →
    [1, 2, 4].foldl (qmult P c) 0 = 3 ∧ qmult P c (qmult P c 0 1) (qmult P c 2 4) = 1

/-- R136, R137: the empty string and a string of one entry, for every strategy. -/
def Obligations.EmptyAndSingleStrings : Prop :=
  ∀ (P : Params) (s : State) (c₀ : Word), s.WellFormed P → s.dmValid = true → (s.qg.strat = .fixed10 → P.T10Latin) →
    s.alpha[0]? = some c₀ →
    (s.str = [] →
      (∃ t, execute (ruleDmProcess P) s = .next t ∧ t.Succeeded ∧ t.res0 = c₀ ∧ t.res1 = 0) ∧
      (∃ t, execute (ruleDmVerify P) s = .next t ∧ t.Succeeded ∧ t.res0 = 1 ∧ t.res1 = 0) ∧
      (∃ t, execute (ruleDmCheck P) s = .next t ∧ t.Succeeded ∧ (s.qg.strat ≠ .fixed10 ∨ P.t10 0 0 = 0 → t.res0 = c₀) ∧
        ∃ x, rsolve P s.qg 0 = some x ∧ t.res1 = word x ∧ s.alpha[x]? = some t.res0) ∧
      (∃ t, execute (ruleDmEncode P) s = .next t ∧ t.Succeeded ∧ t.str.length = 1)) ∧
    ∀ (c : Word) (k : Nat), s.str = [c] → s.alpha[k]? = some c →
      (s.qg.strat ≠ .fixed10 →
        (∃ t, execute (ruleDmProcess P) s = .next t ∧ t.Succeeded ∧ t.res0 = c ∧ t.res1 = word k) ∧
        ∃ t, execute (ruleDmVerify P) s = .next t ∧ t.Succeeded ∧ (t.res0 = 1 ↔ c = c₀)) ∧
      (s.qg.strat = .fixed10 → ∃ t, execute (ruleDmProcess P) s = .next t ∧ t.Succeeded ∧ t.res1 = word (P.t10 0 k) ∧
        s.alpha[P.t10 0 k]? = some t.res0)

/-- R144: the relations among the fold commands. -/
def Obligations.FoldCommandRelations : Prop :=
  ∀ (P : Params) (s : State), s.WellFormed P → s.dmValid = true → (s.qg.strat = .fixed10 → P.T10Latin) → (∀ c ∈ s.str, c ∈ s.alpha) →
    s.str.length < 256 →
    ∃ tc te tp tv up, execute (ruleDmCheck P) s = .next tc ∧ execute (ruleDmEncode P) tc = .next te ∧
      execute (ruleDmProcess P) s = .next tp ∧ execute (ruleDmVerify P) s = .next tv ∧ execute (ruleDmProcess P) te = .next up ∧
      tc.Succeeded ∧ te.Succeeded ∧ tp.Succeeded ∧ tv.Succeeded ∧ up.Succeeded ∧
      te.res0 = tc.res0 ∧ te.res1 = tc.res1 ∧ te.str = s.str ++ [tc.res0] ∧ s.alpha[0]? = some up.res0 ∧ up.res1 = 0 ∧
      tv.res1 = tp.res1 ∧ (tv.res0 = 1 ↔ s.alpha[0]? = some tp.res0)

/-- R158: NoInverseExists with DETAIL 2 or 3 cannot occur, for FIXED10 under T10_Latin. -/
def Obligations.InternalConsistencyErrorsUnreachable : Prop :=
  ∀ (P : Params) (s t : State) (rule : State → Result), s.WellFormed P → (s.qg.strat = .fixed10 → P.T10Latin) →
    ((∃ src, rule = ruleQgInv P src) ∨ rule = ruleDmCheck P ∨ rule = ruleDmEncode P) → execute rule s = .next t →
    statusCode t.status ≠ 2

/-! ### Invariants -/

/-- R30: the well-formed states: no step leaves them, whatever the host's next move is. -/
def Obligations.StepKeepsWellFormed : Prop :=
  ∀ s t : State, s.WellFormed Config.params → step s = .next t → t.WellFormed Config.params

/-- R30, R34: the state after reset is well formed, for every block and whatever the host will do. -/
def Obligations.ResetIsWellFormed : Prop :=
  ∀ (P : Params) (moves : List HostMove), State.WellFormed P { State.reset with hostMoves := moves }

/-- R30: every state reachable from reset satisfies the invariants. -/
def Obligations.ReachableStatesAreWellFormed : Prop := ∀ s : State, Reachable s → s.WellFormed Config.params
end

