-- ==== Sys2Proof/Laws/State.lean ====
section
/-!
SUPPORT. Reading a field after a write: one lemma per field per write of Machine/Ops.lean, so that no proof unfolds a
record update. Also the fields of STATUS after it is made of them.
-/

namespace Sys2Proof.Machine

/-! ### setStatus -/

@[simp] theorem State.setStatus_status (s : State) (st : Word) : (s.setStatus st).status = st := rfl
@[simp] theorem State.setStatus_res0 (s : State) (st : Word) : (s.setStatus st).res0 = s.res0 := rfl
@[simp] theorem State.setStatus_res1 (s : State) (st : Word) : (s.setStatus st).res1 = s.res1 := rfl
@[simp] theorem State.setStatus_errpos (s : State) (st : Word) : (s.setStatus st).errpos = s.errpos := rfl
@[simp] theorem State.setStatus_gf (s : State) (st : Word) : (s.setStatus st).gf = s.gf := rfl
@[simp] theorem State.setStatus_qg (s : State) (st : Word) : (s.setStatus st).qg = s.qg := rfl
@[simp] theorem State.setStatus_alpha (s : State) (st : Word) : (s.setStatus st).alpha = s.alpha := rfl
@[simp] theorem State.setStatus_str (s : State) (st : Word) : (s.setStatus st).str = s.str := rfl
@[simp] theorem State.setStatus_dmValid (s : State) (st : Word) : (s.setStatus st).dmValid = s.dmValid := rfl
@[simp] theorem State.setStatus_hostMoves (s : State) (st : Word) : (s.setStatus st).hostMoves = s.hostMoves := rfl
@[simp] theorem State.setStatus_hostReplies (s : State) (st : Word) : (s.setStatus st).hostReplies = s.hostReplies := rfl

/-! ### setErrpos -/

@[simp] theorem State.setErrpos_status (s : State) (p : Word) : (s.setErrpos p).status = s.status := rfl
@[simp] theorem State.setErrpos_res0 (s : State) (p : Word) : (s.setErrpos p).res0 = s.res0 := rfl
@[simp] theorem State.setErrpos_res1 (s : State) (p : Word) : (s.setErrpos p).res1 = s.res1 := rfl
@[simp] theorem State.setErrpos_errpos (s : State) (p : Word) : (s.setErrpos p).errpos = p := rfl
@[simp] theorem State.setErrpos_gf (s : State) (p : Word) : (s.setErrpos p).gf = s.gf := rfl
@[simp] theorem State.setErrpos_qg (s : State) (p : Word) : (s.setErrpos p).qg = s.qg := rfl
@[simp] theorem State.setErrpos_alpha (s : State) (p : Word) : (s.setErrpos p).alpha = s.alpha := rfl
@[simp] theorem State.setErrpos_str (s : State) (p : Word) : (s.setErrpos p).str = s.str := rfl
@[simp] theorem State.setErrpos_dmValid (s : State) (p : Word) : (s.setErrpos p).dmValid = s.dmValid := rfl
@[simp] theorem State.setErrpos_hostMoves (s : State) (p : Word) : (s.setErrpos p).hostMoves = s.hostMoves := rfl
@[simp] theorem State.setErrpos_hostReplies (s : State) (p : Word) : (s.setErrpos p).hostReplies = s.hostReplies := rfl

/-! ### setRes -/

@[simp] theorem State.setRes_status (s : State) (r0 r1 : Word) : (s.setRes r0 r1).status = s.status := rfl
@[simp] theorem State.setRes_res0 (s : State) (r0 r1 : Word) : (s.setRes r0 r1).res0 = r0 := rfl
@[simp] theorem State.setRes_res1 (s : State) (r0 r1 : Word) : (s.setRes r0 r1).res1 = r1 := rfl
@[simp] theorem State.setRes_errpos (s : State) (r0 r1 : Word) : (s.setRes r0 r1).errpos = s.errpos := rfl
@[simp] theorem State.setRes_gf (s : State) (r0 r1 : Word) : (s.setRes r0 r1).gf = s.gf := rfl
@[simp] theorem State.setRes_qg (s : State) (r0 r1 : Word) : (s.setRes r0 r1).qg = s.qg := rfl
@[simp] theorem State.setRes_alpha (s : State) (r0 r1 : Word) : (s.setRes r0 r1).alpha = s.alpha := rfl
@[simp] theorem State.setRes_str (s : State) (r0 r1 : Word) : (s.setRes r0 r1).str = s.str := rfl
@[simp] theorem State.setRes_dmValid (s : State) (r0 r1 : Word) : (s.setRes r0 r1).dmValid = s.dmValid := rfl
@[simp] theorem State.setRes_hostMoves (s : State) (r0 r1 : Word) : (s.setRes r0 r1).hostMoves = s.hostMoves := rfl
@[simp] theorem State.setRes_hostReplies (s : State) (r0 r1 : Word) : (s.setRes r0 r1).hostReplies = s.hostReplies := rfl

/-! ### setGf -/

@[simp] theorem State.setGf_status (s : State) (c : GfContext) : (s.setGf c).status = s.status := rfl
@[simp] theorem State.setGf_res0 (s : State) (c : GfContext) : (s.setGf c).res0 = s.res0 := rfl
@[simp] theorem State.setGf_res1 (s : State) (c : GfContext) : (s.setGf c).res1 = s.res1 := rfl
@[simp] theorem State.setGf_errpos (s : State) (c : GfContext) : (s.setGf c).errpos = s.errpos := rfl
@[simp] theorem State.setGf_gf (s : State) (c : GfContext) : (s.setGf c).gf = c := rfl
@[simp] theorem State.setGf_qg (s : State) (c : GfContext) : (s.setGf c).qg = s.qg := rfl
@[simp] theorem State.setGf_alpha (s : State) (c : GfContext) : (s.setGf c).alpha = s.alpha := rfl
@[simp] theorem State.setGf_str (s : State) (c : GfContext) : (s.setGf c).str = s.str := rfl
@[simp] theorem State.setGf_dmValid (s : State) (c : GfContext) : (s.setGf c).dmValid = s.dmValid := rfl
@[simp] theorem State.setGf_hostMoves (s : State) (c : GfContext) : (s.setGf c).hostMoves = s.hostMoves := rfl
@[simp] theorem State.setGf_hostReplies (s : State) (c : GfContext) : (s.setGf c).hostReplies = s.hostReplies := rfl

/-! ### setQg -/

@[simp] theorem State.setQg_status (s : State) (c : QgContext) : (s.setQg c).status = s.status := rfl
@[simp] theorem State.setQg_res0 (s : State) (c : QgContext) : (s.setQg c).res0 = s.res0 := rfl
@[simp] theorem State.setQg_res1 (s : State) (c : QgContext) : (s.setQg c).res1 = s.res1 := rfl
@[simp] theorem State.setQg_errpos (s : State) (c : QgContext) : (s.setQg c).errpos = s.errpos := rfl
@[simp] theorem State.setQg_gf (s : State) (c : QgContext) : (s.setQg c).gf = s.gf := rfl
@[simp] theorem State.setQg_qg (s : State) (c : QgContext) : (s.setQg c).qg = c := rfl
@[simp] theorem State.setQg_alpha (s : State) (c : QgContext) : (s.setQg c).alpha = s.alpha := rfl
@[simp] theorem State.setQg_str (s : State) (c : QgContext) : (s.setQg c).str = s.str := rfl
@[simp] theorem State.setQg_dmValid (s : State) (c : QgContext) : (s.setQg c).dmValid = s.dmValid := rfl
@[simp] theorem State.setQg_hostMoves (s : State) (c : QgContext) : (s.setQg c).hostMoves = s.hostMoves := rfl
@[simp] theorem State.setQg_hostReplies (s : State) (c : QgContext) : (s.setQg c).hostReplies = s.hostReplies := rfl

/-! ### setAlpha -/

@[simp] theorem State.setAlpha_status (s : State) (l : List Word) : (s.setAlpha l).status = s.status := rfl
@[simp] theorem State.setAlpha_res0 (s : State) (l : List Word) : (s.setAlpha l).res0 = s.res0 := rfl
@[simp] theorem State.setAlpha_res1 (s : State) (l : List Word) : (s.setAlpha l).res1 = s.res1 := rfl
@[simp] theorem State.setAlpha_errpos (s : State) (l : List Word) : (s.setAlpha l).errpos = s.errpos := rfl
@[simp] theorem State.setAlpha_gf (s : State) (l : List Word) : (s.setAlpha l).gf = s.gf := rfl
@[simp] theorem State.setAlpha_qg (s : State) (l : List Word) : (s.setAlpha l).qg = s.qg := rfl
@[simp] theorem State.setAlpha_alpha (s : State) (l : List Word) : (s.setAlpha l).alpha = l := rfl
@[simp] theorem State.setAlpha_str (s : State) (l : List Word) : (s.setAlpha l).str = s.str := rfl
@[simp] theorem State.setAlpha_dmValid (s : State) (l : List Word) : (s.setAlpha l).dmValid = s.dmValid := rfl
@[simp] theorem State.setAlpha_hostMoves (s : State) (l : List Word) : (s.setAlpha l).hostMoves = s.hostMoves := rfl
@[simp] theorem State.setAlpha_hostReplies (s : State) (l : List Word) : (s.setAlpha l).hostReplies = s.hostReplies := rfl

/-! ### setStr -/

@[simp] theorem State.setStr_status (s : State) (l : List Word) : (s.setStr l).status = s.status := rfl
@[simp] theorem State.setStr_res0 (s : State) (l : List Word) : (s.setStr l).res0 = s.res0 := rfl
@[simp] theorem State.setStr_res1 (s : State) (l : List Word) : (s.setStr l).res1 = s.res1 := rfl
@[simp] theorem State.setStr_errpos (s : State) (l : List Word) : (s.setStr l).errpos = s.errpos := rfl
@[simp] theorem State.setStr_gf (s : State) (l : List Word) : (s.setStr l).gf = s.gf := rfl
@[simp] theorem State.setStr_qg (s : State) (l : List Word) : (s.setStr l).qg = s.qg := rfl
@[simp] theorem State.setStr_alpha (s : State) (l : List Word) : (s.setStr l).alpha = s.alpha := rfl
@[simp] theorem State.setStr_str (s : State) (l : List Word) : (s.setStr l).str = l := rfl
@[simp] theorem State.setStr_dmValid (s : State) (l : List Word) : (s.setStr l).dmValid = s.dmValid := rfl
@[simp] theorem State.setStr_hostMoves (s : State) (l : List Word) : (s.setStr l).hostMoves = s.hostMoves := rfl
@[simp] theorem State.setStr_hostReplies (s : State) (l : List Word) : (s.setStr l).hostReplies = s.hostReplies := rfl

/-! ### setDmValid -/

@[simp] theorem State.setDmValid_status (s : State) (v : Bool) : (s.setDmValid v).status = s.status := rfl
@[simp] theorem State.setDmValid_res0 (s : State) (v : Bool) : (s.setDmValid v).res0 = s.res0 := rfl
@[simp] theorem State.setDmValid_res1 (s : State) (v : Bool) : (s.setDmValid v).res1 = s.res1 := rfl
@[simp] theorem State.setDmValid_errpos (s : State) (v : Bool) : (s.setDmValid v).errpos = s.errpos := rfl
@[simp] theorem State.setDmValid_gf (s : State) (v : Bool) : (s.setDmValid v).gf = s.gf := rfl
@[simp] theorem State.setDmValid_qg (s : State) (v : Bool) : (s.setDmValid v).qg = s.qg := rfl
@[simp] theorem State.setDmValid_alpha (s : State) (v : Bool) : (s.setDmValid v).alpha = s.alpha := rfl
@[simp] theorem State.setDmValid_str (s : State) (v : Bool) : (s.setDmValid v).str = s.str := rfl
@[simp] theorem State.setDmValid_dmValid (s : State) (v : Bool) : (s.setDmValid v).dmValid = v := rfl
@[simp] theorem State.setDmValid_hostMoves (s : State) (v : Bool) : (s.setDmValid v).hostMoves = s.hostMoves := rfl
@[simp] theorem State.setDmValid_hostReplies (s : State) (v : Bool) : (s.setDmValid v).hostReplies = s.hostReplies := rfl

/-! ### setMoves -/

@[simp] theorem State.setMoves_status (s : State) (l : List HostMove) : (s.setMoves l).status = s.status := rfl
@[simp] theorem State.setMoves_res0 (s : State) (l : List HostMove) : (s.setMoves l).res0 = s.res0 := rfl
@[simp] theorem State.setMoves_res1 (s : State) (l : List HostMove) : (s.setMoves l).res1 = s.res1 := rfl
@[simp] theorem State.setMoves_errpos (s : State) (l : List HostMove) : (s.setMoves l).errpos = s.errpos := rfl
@[simp] theorem State.setMoves_gf (s : State) (l : List HostMove) : (s.setMoves l).gf = s.gf := rfl
@[simp] theorem State.setMoves_qg (s : State) (l : List HostMove) : (s.setMoves l).qg = s.qg := rfl
@[simp] theorem State.setMoves_alpha (s : State) (l : List HostMove) : (s.setMoves l).alpha = s.alpha := rfl
@[simp] theorem State.setMoves_str (s : State) (l : List HostMove) : (s.setMoves l).str = s.str := rfl
@[simp] theorem State.setMoves_dmValid (s : State) (l : List HostMove) : (s.setMoves l).dmValid = s.dmValid := rfl
@[simp] theorem State.setMoves_hostMoves (s : State) (l : List HostMove) : (s.setMoves l).hostMoves = l := rfl
@[simp] theorem State.setMoves_hostReplies (s : State) (l : List HostMove) : (s.setMoves l).hostReplies = s.hostReplies := rfl

/-! ### setReplies -/

@[simp] theorem State.setReplies_status (s : State) (l : List Word) : (s.setReplies l).status = s.status := rfl
@[simp] theorem State.setReplies_res0 (s : State) (l : List Word) : (s.setReplies l).res0 = s.res0 := rfl
@[simp] theorem State.setReplies_res1 (s : State) (l : List Word) : (s.setReplies l).res1 = s.res1 := rfl
@[simp] theorem State.setReplies_errpos (s : State) (l : List Word) : (s.setReplies l).errpos = s.errpos := rfl
@[simp] theorem State.setReplies_gf (s : State) (l : List Word) : (s.setReplies l).gf = s.gf := rfl
@[simp] theorem State.setReplies_qg (s : State) (l : List Word) : (s.setReplies l).qg = s.qg := rfl
@[simp] theorem State.setReplies_alpha (s : State) (l : List Word) : (s.setReplies l).alpha = s.alpha := rfl
@[simp] theorem State.setReplies_str (s : State) (l : List Word) : (s.setReplies l).str = s.str := rfl
@[simp] theorem State.setReplies_dmValid (s : State) (l : List Word) : (s.setReplies l).dmValid = s.dmValid := rfl
@[simp] theorem State.setReplies_hostMoves (s : State) (l : List Word) : (s.setReplies l).hostMoves = s.hostMoves := rfl
@[simp] theorem State.setReplies_hostReplies (s : State) (l : List Word) : (s.setReplies l).hostReplies = l := rfl

/-! ### succeed -/

@[simp] theorem succeed_status (s : State) : (succeed s).status = statusOnSuccess s.status := rfl
@[simp] theorem succeed_res0 (s : State) : (succeed s).res0 = s.res0 := rfl
@[simp] theorem succeed_res1 (s : State) : (succeed s).res1 = s.res1 := rfl
@[simp] theorem succeed_errpos (s : State) : (succeed s).errpos = s.errpos := rfl
@[simp] theorem succeed_gf (s : State) : (succeed s).gf = s.gf := rfl
@[simp] theorem succeed_qg (s : State) : (succeed s).qg = s.qg := rfl
@[simp] theorem succeed_alpha (s : State) : (succeed s).alpha = s.alpha := rfl
@[simp] theorem succeed_str (s : State) : (succeed s).str = s.str := rfl
@[simp] theorem succeed_dmValid (s : State) : (succeed s).dmValid = s.dmValid := rfl
@[simp] theorem succeed_hostMoves (s : State) : (succeed s).hostMoves = s.hostMoves := rfl
@[simp] theorem succeed_hostReplies (s : State) : (succeed s).hostReplies = s.hostReplies := rfl

/-! ### raise -/

@[simp] theorem raise_status (f : Failure) (s : State) : (raise f s).status = statusOnFailure f := rfl
@[simp] theorem raise_res0 (f : Failure) (s : State) : (raise f s).res0 = s.res0 := rfl
@[simp] theorem raise_res1 (f : Failure) (s : State) : (raise f s).res1 = s.res1 := rfl
@[simp] theorem raise_errpos (f : Failure) (s : State) : (raise f s).errpos = errposOnFailure f := rfl
@[simp] theorem raise_gf (f : Failure) (s : State) : (raise f s).gf = s.gf := rfl
@[simp] theorem raise_qg (f : Failure) (s : State) : (raise f s).qg = s.qg := rfl
@[simp] theorem raise_alpha (f : Failure) (s : State) : (raise f s).alpha = s.alpha := rfl
@[simp] theorem raise_str (f : Failure) (s : State) : (raise f s).str = s.str := rfl
@[simp] theorem raise_dmValid (f : Failure) (s : State) : (raise f s).dmValid = s.dmValid := rfl
@[simp] theorem raise_hostMoves (f : Failure) (s : State) : (raise f s).hostMoves = s.hostMoves := rfl
@[simp] theorem raise_hostReplies (f : Failure) (s : State) : (raise f s).hostReplies = s.hostReplies := rfl

/-! ### STATUS -/

@[simp] theorem statusCode_statusWord (k : Bool) (d : BitVec 8) (c : BitVec 4) : statusCode (statusWord k d c) = c := by
  ext i hi
  simp only [statusCode, statusWord, BitVec.getElem_extractLsb', BitVec.getLsbD_append]
  simp [hi]

@[simp] theorem statusDetail_statusWord (k : Bool) (d : BitVec 8) (c : BitVec 4) : statusDetail (statusWord k d c) = d := by
  ext i hi
  simp only [statusDetail, statusWord, BitVec.getElem_extractLsb', BitVec.getLsbD_append]
  simp [hi, show ¬ 8 + i < 4 by omega, show ¬ 8 + i - 4 < 4 by omega, show 8 + i - 4 - 4 = i by omega]

@[simp] theorem statusSticky_statusWord (k : Bool) (d : BitVec 8) (c : BitVec 4) : statusSticky (statusWord k d c) = k := by
  simp only [statusSticky, statusWord, BitVec.getLsbD_append]
  simp

end Sys2Proof.Machine
end

