-- ==== Sys2Proof/Laws/Ops.lean ====
section
/-!
SUPPORT. What the shared operations of Machine/Ops.lean can do, each said once.
-/

namespace Sys2Proof.Machine

/-- A command always completes: a step of `execute` is a next state. -/
theorem execute_eq (rule : State → Result) (s : State) : execute rule s = .next (complete s (rule s)) := rfl

@[simp] theorem complete_ok (s t : State) : complete s (.ok t) = succeed t := rfl

@[simp] theorem complete_error (s : State) (f : Failure) : complete s (.error f) = raise f s := rfl

/-- What `execute` can do: the rule succeeds and its state is completed, or it fails and the error is taken. -/
theorem execute_cases {rule : State → Result} {s t : State} (h : execute rule s = .next t) :
    (∃ u, rule s = .ok u ∧ t = succeed u) ∨ (∃ f, rule s = .error f ∧ t = raise f s) := by
  rw [execute_eq] at h
  injection h with h
  cases hr : rule s with
  | ok u => exact .inl ⟨u, rfl, by rw [← h, hr, complete_ok]⟩
  | error f => exact .inr ⟨f, rfl, by rw [← h, hr, complete_error]⟩

/-- What `failIf` can do: it raises its failure when the condition holds, and goes on otherwise. -/
theorem failIf_cases (c : Bool) (f : Failure) (k : Result) :
    (c = true ∧ failIf c f k = .error f) ∨ (c = false ∧ failIf c f k = k) := by
  cases c
  · exact .inr ⟨rfl, rfl⟩
  · exact .inl ⟨rfl, rfl⟩

@[simp] theorem failIf_true (f : Failure) (k : Result) : failIf true f k = .error f := rfl

@[simp] theorem failIf_false (f : Failure) (k : Result) : failIf false f k = k := rfl

/-- A check that is passed: the result is a success exactly when the condition is false and the rest succeeds. -/
theorem failIf_ok_iff {c : Bool} {f : Failure} {k : Result} {t : State} :
    failIf c f k = .ok t ↔ c = false ∧ k = .ok t := by
  cases c <;> simp

/-- A failure comes from the check or from the rest. -/
theorem failIf_error_iff {c : Bool} {f g : Failure} {k : Result} :
    failIf c f k = .error g ↔ (c = true ∧ f = g) ∨ (c = false ∧ k = .error g) := by
  cases c <;> simp

/-- An entry of ALPHA that exists reads as itself. -/
theorem State.alphaEntry_eq {s : State} {k : Nat} {c : Word} (h : s.alpha[k]? = some c) : s.alphaEntry k = c := by
  simp [State.alphaEntry, List.getD, h]

/-- The mask of invalid operands is 0 exactly when both are below the order. -/
theorem invalidMask_eq_zero_iff {n a b : Nat} : invalidMask n a b = 0 ↔ a < n ∧ b < n := by
  unfold invalidMask
  by_cases ha : n ≤ a <;> by_cases hb : n ≤ b <;> simp [ha, hb, Nat.lt_of_not_le]

end Sys2Proof.Machine
end

