-- ==== Sys2Proof/Laws/Completion.lean ====
section
/-!
SUPPORT. The two ends of a command in the terms of Safety.lean: `State.success` and `State.failure` (R153).
-/

namespace Sys2Proof.Machine

/-- A failure without a list position, in the terms of the statements. -/
theorem raise_eq_failure {f : Failure} (s : State) (h : f.kind.positional = false) :
    raise f s = s.failure f.kind.code.toNat f.detail 0 := by
  simp [raise, State.failure, State.setStatus, State.setErrpos, statusOnFailure, errposOnFailure, h, word]

/-- A failure with a list position. -/
theorem raise_eq_failure_at {f : Failure} (s : State) (h : f.kind.positional = true) :
    raise f s = s.failure f.kind.code.toNat f.detail f.pos := by
  simp [raise, State.failure, State.setStatus, State.setErrpos, statusOnFailure, errposOnFailure, h, word]

/-- A success writes CODE and DETAIL and nothing more than the rule did. -/
theorem succeed_eq_success (s : State) : succeed s = s.success := rfl

/-- What a command that ends in success leaves. -/
theorem execute_ok {rule : State → Result} {s t : State} (h : rule s = .ok t) : execute rule s = .next t.success := by
  rw [execute_eq, h]; rfl

/-- What a command that fails leaves: CODE of the kind, its DETAIL, its position if it has one. -/
theorem execute_error {rule : State → Result} {s : State} {f : Failure} (h : rule s = .error f) :
    execute rule s = .next (s.failure f.kind.code.toNat f.detail (if f.kind.positional then f.pos else 0)) := by
  rw [execute_eq, h, complete_error]
  cases hp : f.kind.positional
  · simp [raise_eq_failure s hp]
  · simp [raise_eq_failure_at s hp]

@[simp] theorem State.success_status (s : State) : s.success.status = statusWord (statusSticky s.status) 0 0 := rfl
@[simp] theorem State.failure_status (s : State) (c d p : Nat) :
    (s.failure c d p).status = statusWord true (BitVec.ofNat 8 d) (BitVec.ofNat 4 c) := rfl

/-- A state that `State.success` leaves is one of success. -/
theorem State.success_succeeded (s : State) : s.success.Succeeded := by
  simp [State.Succeeded]

end Sys2Proof.Machine
end

