-- ==== Sys2Proof/Laws/Search.lean ====
section
/-!
SUPPORT. What the searches can answer: `first` (R12), and the index lookup, the two inverse searches and the field inverse that
are made of it.
-/

namespace Sys2Proof.Machine

/-- `first` answers the least number below the bound that satisfies the predicate. -/
theorem first_eq_some {n k : Nat} {p : Nat → Bool} :
    first n p = some k ↔ k < n ∧ p k = true ∧ ∀ j, j < k → p j = false := by
  unfold first
  rw [List.find?_range_eq_some]
  simp only [List.mem_range, Bool.not_eq_true']
  tauto

/-- `first` answers none when no number below the bound satisfies the predicate. -/
theorem first_eq_none {n : Nat} {p : Nat → Bool} : first n p = none ↔ ∀ j, j < n → p j = false := by
  unfold first
  simp [List.find?_eq_none]

theorem gfinv_eq_some {d poly k p : Nat} :
    gfinv d poly k = some p ↔ p < 2 ^ d ∧ gfmul d poly p k = 1 ∧ ∀ j, j < p → gfmul d poly j k ≠ 1 := by
  simp [gfinv, first_eq_some]

theorem linv_eq_some {P : Params} {c : QgContext} {k p : Nat} :
    linv P c k = some p ↔ p < c.order ∧ qmult P c p k = 0 ∧ ∀ j, j < p → qmult P c j k ≠ 0 := by
  simp [linv, first_eq_some]

theorem rsolve_eq_some {P : Params} {c : QgContext} {a x : Nat} :
    rsolve P c a = some x ↔ x < c.order ∧ qmult P c a x = 0 ∧ ∀ j, j < x → qmult P c a j ≠ 0 := by
  simp [rsolve, first_eq_some]

/-- The index of a code value: an entry equal to it, and no earlier entry is. -/
theorem indexOf_eq_some {alpha : List Word} {c : Word} {k : Nat} :
    indexOf alpha c = some k ↔ alpha[k]? = some c ∧ ∀ j, j < k → alpha[j]? ≠ some c := by
  simp only [indexOf, first_eq_some, beq_iff_eq, beq_eq_false_iff_ne]
  constructor
  · rintro ⟨-, h⟩; exact h
  · rintro ⟨h, h'⟩; exact ⟨(List.getElem?_eq_some_iff.mp h).1, h, h'⟩

theorem gfinv_eq_none {d poly k : Nat} : gfinv d poly k = none ↔ ∀ p, p < 2 ^ d → gfmul d poly p k ≠ 1 := by
  simp [gfinv, first_eq_none]

theorem linv_eq_none {P : Params} {c : QgContext} {k : Nat} : linv P c k = none ↔ ∀ p, p < c.order → qmult P c p k ≠ 0 := by
  simp [linv, first_eq_none]

theorem rsolve_eq_none {P : Params} {c : QgContext} {a : Nat} : rsolve P c a = none ↔ ∀ x, x < c.order → qmult P c a x ≠ 0 := by
  simp [rsolve, first_eq_none]

/-- A code value has no index exactly when it is no entry. -/
theorem indexOf_eq_none {alpha : List Word} {c : Word} : indexOf alpha c = none ↔ c ∉ alpha := by
  simp only [indexOf, first_eq_none, beq_eq_false_iff_ne, List.mem_iff_getElem?, not_exists]
  constructor
  · intro h k hk; exact h k (List.getElem?_eq_some_iff.mp hk).1 hk
  · intro h k _; exact h k

/-- Where the entries are distinct, the index of an entry is its position. -/
theorem indexOf_of_nodup {alpha : List Word} {c : Word} {k : Nat} (hn : alpha.Nodup) (h : alpha[k]? = some c) :
    indexOf alpha c = some k := by
  rw [indexOf_eq_some]
  refine ⟨h, fun j hj hj' => ?_⟩
  have hlt : j < alpha.length := (List.getElem?_eq_some_iff.mp hj').1
  exact absurd ((List.getElem?_inj hlt hn).mp (hj'.trans h.symm)) (by omega)

end Sys2Proof.Machine
end

