-- ==== Sys2Proof/Laws/Fold.lean ====
section
/-!
SUPPORT. What the alphabet check, the index map and the fold of the DM engine can answer (R121, R125), and the opening of the fold commands.
-/

namespace Sys2Proof.Machine

@[simp] theorem indicesFrom_nil (alpha : List Word) (pos : Nat) : indicesFrom alpha pos [] = .ok [] := rfl

theorem indicesFrom_cons_none {alpha : List Word} {pos : Nat} {c : Word} (rest : List Word) (h : indexOf alpha c = none) :
    indicesFrom alpha pos (c :: rest) = .error { kind := .foreignCharacter, detail := 0, pos := pos } := by
  simp [indicesFrom, h]

theorem indicesFrom_cons_some {alpha : List Word} {pos k : Nat} {c : Word} (rest : List Word) (h : indexOf alpha c = some k) :
    indicesFrom alpha pos (c :: rest) = (indicesFrom alpha (pos + 1) rest).map (k :: ·) := by
  simp [indicesFrom, h]

/-- The index map succeeds exactly with the list of the entries' indices. -/
theorem indicesFrom_eq_ok {alpha : List Word} {str : List Word} {ks : List Nat} :
    ∀ {pos : Nat}, indicesFrom alpha pos str = .ok ks ↔ str.map (indexOf alpha) = ks.map some := by
  induction str generalizing ks with
  | nil => intro pos; cases ks <;> simp [indicesFrom]
  | cons c rest ih =>
    intro pos
    cases hc : indexOf alpha c with
    | none => cases ks <;> simp [indicesFrom, hc]
    | some k =>
      rw [indicesFrom_cons_some rest hc]
      cases hr : indicesFrom alpha (pos + 1) rest with
      | error f =>
        have hne : ∀ ks' : List Nat, rest.map (indexOf alpha) ≠ ks'.map some := by
          intro ks' h'
          have := (ih (ks := ks') (pos := pos + 1)).mpr h'
          simp [hr] at this
        cases ks with
        | nil => simp [Except.map]
        | cons k' ks' => simpa [hc, Except.map] using fun _ => hne ks'
      | ok ks' =>
        have h' := (ih (ks := ks') (pos := pos + 1)).mp hr
        cases ks with
        | nil => simp [Except.map]
        | cons k'' ks'' =>
          simp only [Except.map, Except.ok.injEq, List.map_cons, hc, List.cons.injEq, Option.some.injEq, h']
          constructor
          · rintro ⟨rfl, rfl⟩; exact ⟨rfl, rfl⟩
          · rintro ⟨rfl, h''⟩
            exact ⟨rfl, List.map_injective_iff.mpr (Option.some_injective _) h''⟩

/-- The fold is the left fold of the entries' indices from 0. -/
theorem fold_eq_ok {P : Params} {s : State} {ks : List Nat} (h : s.str.map (indexOf s.alpha) = ks.map some) :
    fold P s = .ok (ks.foldl (qmult P s.qg) 0) := by
  simp [fold, indicesFrom_eq_ok.mpr h, foldIndices, Except.map]

/-- The fold of a string of entries, for distinct entries with the positions `ks`. -/
theorem fold_of_nodup {P : Params} {s : State} {ks : List Nat} (hn : s.alpha.Nodup)
    (h : s.str.map some = ks.map (fun k => s.alpha[k]?)) : fold P s = .ok (ks.foldl (qmult P s.qg) 0) := by
  apply fold_eq_ok
  generalize s.str = str at h
  induction ks generalizing str with
  | nil => cases str <;> simp_all
  | cons k ks ih =>
    cases str with
    | nil => simp at h
    | cons c str =>
      simp only [List.map_cons, List.cons.injEq] at h
      rw [List.map_cons, List.map_cons, indexOf_of_nodup hn h.1.symm, ih _ h.2]

/-- The index map fails at the first entry that is not in the alphabet. -/
theorem indicesFrom_foreign {alpha : List Word} {c : Word} (hc : c ∉ alpha) :
    ∀ {str : List Word} {pos at_ : Nat}, str[pos]? = some c → (∀ e ∈ str.take pos, e ∈ alpha) →
      indicesFrom alpha at_ str = .error { kind := .foreignCharacter, detail := 0, pos := at_ + pos }
  | [], pos, at_, h, _ => by simp at h
  | e :: rest, 0, at_, h, _ => by
    simp only [List.getElem?_cons_zero, Option.some.injEq] at h
    rw [indicesFrom_cons_none rest (indexOf_eq_none.mpr (h ▸ hc)), Nat.add_zero]
  | e :: rest, pos + 1, at_, h, hm => by
    rw [List.getElem?_cons_succ] at h
    obtain ⟨k, hk⟩ := Option.ne_none_iff_exists'.mp (fun hn => indexOf_eq_none.mp hn (hm e (by simp)))
    rw [indicesFrom_cons_some rest hk, indicesFrom_foreign hc h (fun x hx => hm x (by simp [hx]))]
    simp only [Except.map, Nat.add_assoc, Nat.add_comm 1]

/-! ### The alphabet check -/

/-- The check passes exactly when every entry is a single character, none is among the earlier ones, and they are distinct. -/
theorem alphabetDefect_eq_none {l : List Word} :
    ∀ {before : List Word} {j : Nat}, alphabetDefect before j l = none ↔
      (∀ c ∈ l, c.toNat ≤ Config.charMax) ∧ (∀ c ∈ l, c ∉ before) ∧ l.Nodup := by
  induction l with
  | nil => simp [alphabetDefect]
  | cons c rest ih =>
    intro before j
    unfold alphabetDefect
    by_cases h1 : Config.charMax < c.toNat
    · simp [h1]
    by_cases h2 : c ∈ before
    · simp [h1, h2]
    simp only [h1, h2, if_false, List.contains_eq_mem, decide_false, Bool.false_eq_true, ih, List.mem_cons, forall_eq_or_imp,
      List.mem_append, List.not_mem_nil, or_false, List.nodup_cons, not_or, not_false_eq_true, true_and]
    constructor
    · rintro ⟨a, b, d⟩
      exact ⟨⟨Nat.le_of_not_lt h1, a⟩, fun x hx => (b x hx).1, fun hc => (b c hc).2 rfl, d⟩
    · rintro ⟨⟨-, a⟩, b, hc, d⟩
      exact ⟨a, fun x hx => ⟨b x hx, fun e => hc (e ▸ hx)⟩, d⟩

theorem checkAlphabet_eq_none {alpha : List Word} :
    checkAlphabet alpha = none ↔ (∀ c ∈ alpha, c.toNat ≤ Config.charMax) ∧ alpha.Nodup := by
  simp [checkAlphabet, alphabetDefect_eq_none]

/-- The check goes past entries that are in order. -/
theorem alphabetDefect_append {l r : List Word} :
    ∀ {before : List Word} {j : Nat}, alphabetDefect before j l = none →
      alphabetDefect before j (l ++ r) = alphabetDefect (before ++ l) (j + l.length) r := by
  induction l with
  | nil => simp
  | cons c rest ih =>
    intro before j h
    unfold alphabetDefect at h
    split at h
    · cases h
    split at h
    · cases h
    next h1 h2 =>
    rw [List.cons_append, alphabetDefect, if_neg h1, if_neg h2, ih h, List.append_assoc, List.singleton_append, List.length_cons]
    congr 1
    omega

/-- The check at a position whose earlier entries are in order. -/
theorem checkAlphabet_at {alpha : List Word} {j : Nat} {c : Word} (h : alpha[j]? = some c)
    (hb : ∀ e ∈ alpha.take j, e.toNat ≤ Config.charMax) (hn : (alpha.take j).Nodup) :
    checkAlphabet alpha = alphabetDefect (alpha.take j) j (alpha.drop j) := by
  have hlt : j < alpha.length := (List.getElem?_eq_some_iff.mp h).1
  conv_lhs => rw [checkAlphabet, ← List.take_append_drop j alpha]
  rw [alphabetDefect_append (alphabetDefect_eq_none.mpr ⟨hb, by simp, hn⟩)]
  simp [Nat.min_eq_left (Nat.le_of_lt hlt)]

theorem checkAlphabet_value {alpha : List Word} {j : Nat} {c : Word} (h : alpha[j]? = some c)
    (hb : ∀ e ∈ alpha.take j, e.toNat ≤ Config.charMax) (hn : (alpha.take j).Nodup) (hc : Config.charMax < c.toNat) :
    checkAlphabet alpha = some { kind := .invalidAlphabet, detail := 1, pos := j } := by
  obtain ⟨hlt, rfl⟩ := List.getElem?_eq_some_iff.mp h
  rw [checkAlphabet_at h hb hn, List.drop_eq_getElem_cons hlt, alphabetDefect, if_pos hc]

theorem checkAlphabet_duplicate {alpha : List Word} {j : Nat} {c : Word} (h : alpha[j]? = some c)
    (hb : ∀ e ∈ alpha.take j, e.toNat ≤ Config.charMax) (hn : (alpha.take j).Nodup) (hc : c.toNat ≤ Config.charMax)
    (hd : c ∈ alpha.take j) : checkAlphabet alpha = some { kind := .invalidAlphabet, detail := 2, pos := j } := by
  obtain ⟨hlt, rfl⟩ := List.getElem?_eq_some_iff.mp h
  rw [checkAlphabet_at h hb hn, List.drop_eq_getElem_cons hlt, alphabetDefect, if_neg (Nat.not_lt.mpr hc), if_pos (by simpa using hd)]

/-- A failure of the check is InvalidAlphabet with DETAIL 1 or 2. -/
theorem alphabetDefect_eq_some {l : List Word} :
    ∀ {before : List Word} {j : Nat} {f : Failure}, alphabetDefect before j l = some f →
      f.kind = .invalidAlphabet ∧ (f.detail = 1 ∨ f.detail = 2) := by
  induction l with
  | nil => intro before j f h; cases h
  | cons c rest ih =>
    intro before j f h
    unfold alphabetDefect at h
    split at h
    · cases h; exact ⟨rfl, .inl rfl⟩
    split at h
    · cases h; exact ⟨rfl, .inr rfl⟩
    exact ih h

/-! ### The opening of the fold commands -/

theorem folded_without_codec {P : Params} {s : State} (h : s.dmValid = false) :
    folded P s = .error { kind := .notConfigured, detail := 3 } := by
  simp [folded, h]

theorem folded_with_codec {P : Params} {s : State} (h : s.dmValid = true) : folded P s = fold P s := by
  simp [folded, h]

/-- The fold fails with ForeignCharacter and nothing else. -/
theorem indicesFrom_eq_error {alpha str : List Word} :
    ∀ {pos : Nat} {f : Failure}, indicesFrom alpha pos str = .error f → f.kind = .foreignCharacter ∧ f.detail = 0 := by
  induction str with
  | nil => intro pos f h; cases h
  | cons c rest ih =>
    intro pos f h
    cases hc : indexOf alpha c with
    | none => rw [indicesFrom_cons_none rest hc] at h; cases h; exact ⟨rfl, rfl⟩
    | some k =>
      rw [indicesFrom_cons_some rest hc] at h
      cases hr : indicesFrom alpha (pos + 1) rest with
      | error g => rw [hr] at h; cases h; exact ih hr
      | ok ks => rw [hr] at h; cases h

/-- What DM.CHECK and DM.ENCODE open with: a failure of the fold, no right solution, or the right solution. -/
theorem checkIndex_of_none {P : Params} {s : State} {acc : Nat} (h : folded P s = .ok acc) (hr : rsolve P s.qg acc = none) :
    checkIndex P s = .error { kind := .noInverseExists, detail := 3 } := by
  simp [checkIndex, h, hr]

theorem checkIndex_of_some {P : Params} {s : State} {acc x : Nat} (h : folded P s = .ok acc) (hr : rsolve P s.qg acc = some x) :
    checkIndex P s = .ok x := by
  simp [checkIndex, h, hr]

theorem checkIndex_of_error {P : Params} {s : State} {f : Failure} (h : folded P s = .error f) : checkIndex P s = .error f := by
  simp [checkIndex, h]

end Sys2Proof.Machine
end

