-- ==== Sys2Proof/Laws/PerInstr.lean ====
section
/-!
SUPPORT. Laws made per instruction. FieldCoding: the fields a command is encoded with pass the checks of R65 to R67, and the
decoder reads the command back from them.
-/

namespace Sys2Proof.Laws

/-- A command's fields are well formed and decode to the command. -/
def FieldCoding.Statement (i : Instr) : Prop := i.wellFormed = true ∧ decodeFields (encodeFields i) = .ok i

theorem FieldCoding.nop : FieldCoding.Statement (.nop) := ⟨rfl, rfl⟩
theorem FieldCoding.clrstat : FieldCoding.Statement (.clrstat) := ⟨rfl, rfl⟩
theorem FieldCoding.gfCfg (a : BitVec 16) : FieldCoding.Statement (.gfCfg a) := ⟨rfl, rfl⟩
theorem FieldCoding.gfReduce (b : BitVec 32) : FieldCoding.Statement (.gfReduce b) := ⟨rfl, rfl⟩
theorem FieldCoding.gfAdd (a : BitVec 16) (b : BitVec 32) : FieldCoding.Statement (.gfAdd a b) := ⟨rfl, rfl⟩
theorem FieldCoding.gfMul (a : BitVec 16) (b : BitVec 32) : FieldCoding.Statement (.gfMul a b) := ⟨rfl, rfl⟩
theorem FieldCoding.gfInv (a : BitVec 16) : FieldCoding.Statement (.gfInv a) := ⟨rfl, rfl⟩
theorem FieldCoding.gfDiv (a : BitVec 16) (b : BitVec 32) : FieldCoding.Statement (.gfDiv a b) := ⟨rfl, rfl⟩
theorem FieldCoding.qgBuild (a : BitVec 16) : FieldCoding.Statement (.qgBuild a) := ⟨rfl, rfl⟩
theorem FieldCoding.qgMul (a : BitVec 16) (b : BitVec 32) : FieldCoding.Statement (.qgMul a b) := ⟨rfl, rfl⟩
theorem FieldCoding.qgInv (a : BitVec 16) : FieldCoding.Statement (.qgInv a) := ⟨rfl, rfl⟩
theorem FieldCoding.alClr : FieldCoding.Statement (.alClr) := ⟨rfl, rfl⟩
theorem FieldCoding.alPush (b : BitVec 32) : FieldCoding.Statement (.alPush b) := ⟨rfl, rfl⟩
theorem FieldCoding.alRd (a : BitVec 16) : FieldCoding.Statement (.alRd a) := ⟨rfl, rfl⟩
theorem FieldCoding.dmInit : FieldCoding.Statement (.dmInit) := ⟨rfl, rfl⟩
theorem FieldCoding.stClr : FieldCoding.Statement (.stClr) := ⟨rfl, rfl⟩
theorem FieldCoding.stPush (b : BitVec 32) : FieldCoding.Statement (.stPush b) := ⟨rfl, rfl⟩
theorem FieldCoding.stRd (a : BitVec 16) : FieldCoding.Statement (.stRd a) := ⟨rfl, rfl⟩
theorem FieldCoding.dmProcess : FieldCoding.Statement (.dmProcess) := ⟨rfl, rfl⟩
theorem FieldCoding.dmVerify : FieldCoding.Statement (.dmVerify) := ⟨rfl, rfl⟩
theorem FieldCoding.dmCheck : FieldCoding.Statement (.dmCheck) := ⟨rfl, rfl⟩
theorem FieldCoding.dmEncode : FieldCoding.Statement (.dmEncode) := ⟨rfl, rfl⟩
theorem FieldCoding.gfAddR (b : BitVec 32) : FieldCoding.Statement (.gfAddR b) := ⟨rfl, rfl⟩
theorem FieldCoding.gfMulR (b : BitVec 32) : FieldCoding.Statement (.gfMulR b) := ⟨rfl, rfl⟩
theorem FieldCoding.gfInvR : FieldCoding.Statement (.gfInvR) := ⟨rfl, rfl⟩
theorem FieldCoding.gfDivR (b : BitVec 32) : FieldCoding.Statement (.gfDivR b) := ⟨rfl, rfl⟩
theorem FieldCoding.qgMulR (b : BitVec 32) : FieldCoding.Statement (.qgMulR b) := ⟨rfl, rfl⟩
theorem FieldCoding.qgInvR : FieldCoding.Statement (.qgInvR) := ⟨rfl, rfl⟩

end Sys2Proof.Laws
end

