-- ==== Sys2Proof/Laws/Quasigroup.lean ====
section
/-!
SUPPORT. What the dispatch can build (R100), said once, and the product of each strategy (R101).
-/

namespace Sys2Proof.Machine

theorem log2_half {n : Nat} (h : 2 ≤ n) : Nat.log2 n = Nat.log2 (n / 2) + 1 := by
  rw [Nat.log2_def, if_pos h]

/-- With enough fuel, `halvings` finds the largest power of two that divides `n`. -/
theorem halvings_spec : ∀ (fuel n : Nat), 1 ≤ n → bitlen n ≤ fuel →
    2 ^ halvings fuel n * (n / 2 ^ halvings fuel n) = n ∧ n / 2 ^ halvings fuel n % 2 = 1
  | 0, n, hn, hf => by simp [bitlen] at hf; omega
  | fuel + 1, n, hn, hf => by
    by_cases he : n % 2 = 0
    · have h2 : 2 ≤ n := by omega
      have hf' : bitlen (n / 2) ≤ fuel := by
        have := log2_half h2
        unfold bitlen at hf ⊢
        rw [if_neg (by omega)] at hf
        rw [if_neg (by omega)]
        omega
      obtain ⟨h1, h3⟩ := halvings_spec fuel (n / 2) (by omega) hf'
      have e : halvings (fuel + 1) n = halvings fuel (n / 2) + 1 := by simp [halvings, he]
      have ed : n / 2 ^ (halvings fuel (n / 2) + 1) = n / 2 / 2 ^ halvings fuel (n / 2) := by
        rw [Nat.pow_succ, Nat.mul_comm, Nat.div_div_eq_div_mul]
      rw [e, ed]
      refine ⟨?_, h3⟩
      rw [Nat.pow_succ, Nat.mul_assoc, Nat.mul_comm 2, ← Nat.mul_assoc, h1]
      omega
    · have e : halvings (fuel + 1) n = 0 := by simp [halvings, he]
      rw [e]
      simp
      omega

/-- R100: `n` is 2 to its `twoAdic` times an odd number. -/
theorem twoAdic_spec {n : Nat} (h : 1 ≤ n) : 2 ^ twoAdic n * (n / 2 ^ twoAdic n) = n ∧ n / 2 ^ twoAdic n % 2 = 1 :=
  halvings_spec _ n h (Nat.le_refl _)

/-- The factors of `n` are unique: a power of two times an odd number is it only with `twoAdic n` as the exponent. -/
theorem twoAdic_unique {d m n : Nat} (hm : m % 2 = 1) (h : n = 2 ^ d * m) : twoAdic n = d ∧ n / 2 ^ d = m := by
  have hn : 1 ≤ n := by
    have := Nat.two_pow_pos d
    rw [h]
    exact Nat.mul_pos this (by omega)
  obtain ⟨h1, h2⟩ := twoAdic_spec hn
  have key : ∀ (a b x y : Nat), x % 2 = 1 → y % 2 = 1 → 2 ^ a * x = 2 ^ b * y → b ≤ a := by
    intro a b x y hx hy e
    by_contra hlt
    obtain ⟨k, rfl⟩ : ∃ k, b = a + 1 + k := ⟨b - a - 1, by omega⟩
    have e' : x = 2 * (2 ^ k * y) := by
      have : 2 ^ a * x = 2 ^ a * (2 * (2 ^ k * y)) := by rw [e]; ring
      exact Nat.eq_of_mul_eq_mul_left (Nat.two_pow_pos a) this
    omega
  have hd : twoAdic n = d :=
    Nat.le_antisymm (key _ _ _ _ hm h2 (h.symm.trans h1.symm)) (key _ _ _ _ h2 hm (h1.trans h))
  exact ⟨hd, by rw [h, Nat.mul_div_cancel_left _ (Nat.two_pow_pos d)]⟩

/-- The size test, which every constructible order meets last (R100). -/
theorem classify_eq (P : Params) (n : Nat) :
    classify P n =
      if n < 1 then .error (unsupportedOrder 1) else if n ≤ 2 then .error (unsupportedOrder 2)
      else if n = 6 then .error (unsupportedOrder 3)
      else if n = 10 then if 256 < n then .error (unsupportedOrder 5) else .ok ⟨true, .fixed10, n, 0, 0, 0⟩
      else if n % 2 = 1 then if 256 < n then .error (unsupportedOrder 5) else .ok ⟨true, .odd, n, 0, n, 0⟩
      else if n % 4 = 2 then .error (unsupportedOrder 4)
      else if n / 2 ^ twoAdic n = 1 then
        if 256 < n then .error (unsupportedOrder 5) else .ok ⟨true, .pow2, n, twoAdic n, 1, P.irred (twoAdic n)⟩
      else if 256 < n then .error (unsupportedOrder 5)
      else .ok ⟨true, .composite, n, twoAdic n, n / 2 ^ twoAdic n, P.irred (twoAdic n)⟩ := rfl

/-- What the dispatch builds: one of four contexts, of an order from 3 to N_MAX. -/
theorem classify_eq_ok {P : Params} {n : Nat} {c : QgContext} (h : classify P n = .ok c) :
    3 ≤ n ∧ n ≤ 256 ∧
      ((n = 10 ∧ c = ⟨true, .fixed10, n, 0, 0, 0⟩) ∨
        (n % 2 = 1 ∧ c = ⟨true, .odd, n, 0, n, 0⟩) ∨
        (∃ d, 2 ≤ d ∧ d ≤ 8 ∧ n = 2 ^ d ∧ c = ⟨true, .pow2, n, d, 1, P.irred d⟩) ∨
        ∃ d m, 2 ≤ d ∧ d ≤ 8 ∧ m % 2 = 1 ∧ 3 ≤ m ∧ n = 2 ^ d * m ∧ c = ⟨true, .composite, n, d, m, P.irred d⟩) := by
  rw [classify_eq] at h
  by_cases h1 : n < 1
  · simp [h1] at h
  rw [if_neg h1] at h
  by_cases h2 : n ≤ 2
  · simp [h2] at h
  rw [if_neg h2] at h
  by_cases h6 : n = 6
  · simp [h6] at h
  rw [if_neg h6] at h
  by_cases hmax : 256 < n
  · simp only [if_pos hmax, ite_self] at h
    repeat' split at h
    all_goals cases h
  simp only [if_neg hmax] at h
  refine ⟨by omega, by omega, ?_⟩
  by_cases h10 : n = 10
  · rw [if_pos h10] at h
    injection h with h
    exact .inl ⟨h10, h.symm⟩
  rw [if_neg h10] at h
  by_cases hodd : n % 2 = 1
  · rw [if_pos hodd] at h
    injection h with h
    exact .inr (.inl ⟨hodd, h.symm⟩)
  rw [if_neg hodd] at h
  by_cases h4 : n % 4 = 2
  · simp [h4] at h
  rw [if_neg h4] at h
  obtain ⟨hmul, hm⟩ := twoAdic_spec (n := n) (by omega)
  generalize n / 2 ^ twoAdic n = q at h hmul hm
  generalize twoAdic n = d at h hmul
  have hd2 : 2 ≤ d := by
    by_contra hlt
    obtain rfl | rfl : d = 0 ∨ d = 1 := by omega
    · omega
    · omega
  have hd8 : d ≤ 8 := by
    by_contra hlt
    have h9 : 2 ^ 9 ≤ 2 ^ d := Nat.pow_le_pow_right (by omega) (by omega)
    have : 2 ^ d * 1 ≤ 2 ^ d * q := Nat.mul_le_mul_left _ (by omega)
    omega
  by_cases hone : q = 1
  · rw [if_pos hone] at h
    injection h with h
    exact .inr (.inr (.inl ⟨d, hd2, hd8, by rw [← hmul, hone, Nat.mul_one], h.symm⟩))
  · rw [if_neg hone] at h
    injection h with h
    exact .inr (.inr (.inr ⟨d, q, hd2, hd8, hm, by omega, hmul.symm, h.symm⟩))

/-- A built context is valid and holds the order it was built for. -/
theorem classify_valid_order {P : Params} {n : Nat} {c : QgContext} (h : classify P n = .ok c) : c.valid = true ∧ c.order = n := by
  obtain ⟨-, -, ⟨-, rfl⟩ | ⟨-, rfl⟩ | ⟨d, -, -, -, rfl⟩ | ⟨d, m, -, -, -, -, -, rfl⟩⟩ := classify_eq_ok h <;> exact ⟨rfl, rfl⟩

/-- A failure of the dispatch is UnsupportedOrder. -/
theorem classify_eq_error {P : Params} {n : Nat} {f : Failure} (h : classify P n = .error f) :
    f.kind = .unsupportedOrder ∧ 1 ≤ f.detail ∧ f.detail ≤ 5 ∧ (f.detail = 5 → 256 < n) := by
  rw [classify_eq] at h
  repeat' split at h
  all_goals first
    | (injection h with h; subst h; simp [unsupportedOrder] <;> omega)
    | cases h

@[simp] theorem qmult_fixed10 (P : Params) (n d m poly i j : Nat) : qmult P ⟨true, .fixed10, n, d, m, poly⟩ i j = P.t10 i j := rfl

@[simp] theorem qmult_pow2 (P : Params) (n d m poly i j : Nat) :
    qmult P ⟨true, .pow2, n, d, m, poly⟩ i j = gfmul d poly 2 i ^^^ j := rfl

theorem subMod_eq {n a b : Nat} (hb : b < n) : subMod n a b = (a + n - b) % n := by
  have e : ((a : Int) - (b : Int)) % (n : Int) = ((a + n - b : Nat) : Int) % (n : Int) := by
    rw [Nat.cast_sub (by omega), Nat.cast_add]
    rw [show (a : Int) + n - b = a - b + n by ring, Int.add_emod_right]
  rw [subMod, e, ← Int.natCast_mod, Int.toNat_natCast]

theorem qmult_odd {P : Params} {n d m poly i j : Nat} (hi : i < n) :
    qmult P ⟨true, .odd, n, d, m, poly⟩ i j = (j + n - i) % n := subMod_eq hi

end Sys2Proof.Machine
end

