-- ==== Sys2Proof/Laws/Run.lean ====
section
/-!
SUPPORT. What the runs of Machine/Run.lean do (R185), and that its two readings of a run that did not fail agree where no word is CLRSTAT.
-/

namespace Sys2Proof.Machine

@[simp] theorem runTrace_zero (s : State) : runTrace 0 s = some [] := rfl
@[simp] theorem runMoves_zero (s : State) : runMoves 0 s = some s := rfl

theorem runTrace_succ {n : Nat} {s t : State} (h : step s = .next t) : runTrace (n + 1) s = (runTrace n t).map (t :: ·) := by
  simp [runTrace, h]

theorem runMoves_succ {n : Nat} {s t : State} (h : step s = .next t) : runMoves (n + 1) s = runMoves n t := by
  simp [runMoves, h]

/-- The end of a run is the last state of its trace. -/
theorem runMoves_eq_getLastD (n : Nat) (s : State) : runMoves n s = (runTrace n s).map (·.getLastD s) := by
  induction n generalizing s with
  | zero => rfl
  | succ n ih =>
    unfold runMoves runTrace
    cases step s with
    | next t =>
      simp only [ih t, Option.map_map]
      congr 1
      funext ts
      cases ts <;> rfl
    | fault f => rfl
    | refused r => rfl

/-- The end of a program's run is the state after its last word. -/
theorem runProgram_eq_getLastD (p : Program) (s : State) :
    runProgram p s = (programTrace p s).map (·.getLastD (loadProgram p s)) := runMoves_eq_getLastD _ _

/-- The moves of a program are its words, in order. -/
@[simp] theorem loadProgram_hostMoves (p : Program) (s : State) : (loadProgram p s).hostMoves = p.map .command := rfl
@[simp] theorem loadProgram_status (p : Program) (s : State) : (loadProgram p s).status = s.status := rfl

/-- A rule that does not write STATUS itself. -/
def RuleKeepsStatus (rule : State → Result) : Prop := ∀ s u, rule s = .ok u → u.status = s.status ∧ u.hostMoves = s.hostMoves

/-- What a command does to STATUS: STICKY afterwards is STICKY before, or that the command failed. -/
def StickyAccumulates (s t : State) : Prop :=
  statusSticky t.status = (statusSticky s.status || decide (statusCode t.status ≠ 0)) ∧ t.hostMoves = s.hostMoves

theorem raise_stickyAccumulates (f : Failure) (s : State) : StickyAccumulates s (raise f s) := by
  have h : f.kind.code ≠ 0 := by cases f.kind <;> decide
  refine ⟨?_, rfl⟩
  show statusSticky (statusOnFailure f) = (_ || decide (statusCode (statusOnFailure f) ≠ 0))
  simpa [statusOnFailure] using Or.inr h

theorem execute_stickyAccumulates {rule : State → Result} (hr : RuleKeepsStatus rule) {s t : State} (h : execute rule s = .next t) :
    StickyAccumulates s t := by
  obtain ⟨u, hu, rfl⟩ | ⟨f, -, rfl⟩ := execute_cases h
  · obtain ⟨h1, h2⟩ := hr s u hu
    simp [StickyAccumulates, succeed, State.setStatus, statusOnSuccess, h1, h2]
  · exact raise_stickyAccumulates f s

/-- Every command but CLRSTAT accumulates its failure in STICKY, and none changes the host's moves. -/
theorem exec_stickyAccumulates {i : Instr} (hi : i ≠ .clrstat) {s t : State} (h : exec i s = .next t) : StickyAccumulates s t := by
  cases i
  case clrstat => exact absurd rfl hi
  all_goals
    refine execute_stickyAccumulates ?_ h
    intro s u hu
    first
      | (cases hu; exact ⟨rfl, rfl⟩)
      | (simp only [ruleGfCfg, ruleGfReduce, ruleGfAdd, ruleGfMul, ruleQgMul, ruleAlPush, ruleStPush, failIf_ok_iff] at hu
         obtain ⟨-, hu⟩ := hu
         first
           | (cases hu; exact ⟨rfl, rfl⟩)
           | (obtain ⟨-, hu⟩ := hu; cases hu; exact ⟨rfl, rfl⟩))
      | (simp only [ruleGfInv, ruleGfDiv, ruleQgBuild, ruleQgInv, ruleAlRd, ruleDmInit, ruleStRd, ruleDmProcess, ruleDmVerify,
           ruleDmCheck, ruleDmEncode, failIf] at hu
         repeat' split at hu
         all_goals cases hu
         all_goals exact ⟨rfl, rfl⟩)

/-- Every word but CLRSTAT's accumulates its failure in STICKY, a word that is no command among them. -/
theorem execWord_stickyAccumulates {w : Command} (hw : decode w ≠ .ok .clrstat) {s t : State} (h : execWord w s = .next t) :
    StickyAccumulates s t := by
  unfold execWord at h
  cases hd : decode w with
  | ok i =>
    rw [hd] at h
    exact exec_stickyAccumulates (fun e => hw (e ▸ hd)) h
  | error e =>
    rw [hd] at h
    cases h
    exact raise_stickyAccumulates _ _

/-- The step that executes the next word of a program. -/
theorem step_command {s : State} {w : Command} {rest : List HostMove} (h : s.hostMoves = .command w :: rest) :
    step s = execWord w (s.setMoves rest) := by
  unfold step nextMove
  rw [h]
  rfl

/-- At the end of a run without CLRSTAT, STICKY is 0 exactly when it was 0 at the start and every word succeeded. -/
theorem runTrace_sticky : ∀ (p : Program) {s : State} {ts : List State}, (∀ w ∈ p, decode w ≠ .ok .clrstat) →
    s.hostMoves = p.map .command → runTrace p.length s = some ts →
    (statusSticky (ts.getLastD s).status = false ↔ statusSticky s.status = false ∧ EveryWordSucceeded ts)
  | [], s, ts, _, _, h => by
    cases h
    simp [EveryWordSucceeded]
  | w :: p, s, ts, hw, hm, h => by
    cases he : execWord w (s.setMoves (p.map .command)) with
    | fault f => cases f
    | refused r => rw [List.length_cons, runTrace, step_command hm, he] at h; cases h
    | next t =>
      rw [List.length_cons, runTrace_succ ((step_command hm).trans he)] at h
      obtain ⟨us, hu, rfl⟩ := Option.map_eq_some_iff.mp h
      obtain ⟨h1, h2⟩ := execWord_stickyAccumulates (hw w (by simp)) he
      have ih := runTrace_sticky p (fun v hv => hw v (by simp [hv])) h2 hu
      have hl : (t :: us).getLastD s = us.getLastD t := by cases us <;> rfl
      rw [hl, ih, h1]
      simp [EveryWordSucceeded, State.Succeeded, and_assoc]

/-- R185's two readings of a run that did not fail are one, for a program without CLRSTAT that starts with STICKY = 0. -/
theorem programDidNotFail_iff {p : Program} {s : State} (hs : statusSticky s.status = false)
    (hp : ∀ w ∈ p, decode w ≠ .ok .clrstat) : ProgramDidNotFail p s ↔ ProgramWordsSucceeded p s := by
  unfold ProgramDidNotFail ProgramWordsSucceeded DidNotFail
  constructor
  · rintro ⟨t, ht, -, he⟩
    rw [runProgram_eq_getLastD] at ht
    obtain ⟨ts, hts, rfl⟩ := Option.map_eq_some_iff.mp ht
    exact ⟨ts, hts, ((runTrace_sticky p hp rfl hts).mp he).2⟩
  · rintro ⟨ts, hts, hall⟩
    refine ⟨ts.getLastD (loadProgram p s), by rw [runProgram_eq_getLastD, hts]; rfl, hs, ?_⟩
    exact (runTrace_sticky p hp rfl hts).mpr ⟨hs, hall⟩

end Sys2Proof.Machine
end

