-- ==== Sys2Proof/Tests/Slice0.lean ====
section
/-!
SUPPORT. Tests. The expected values are those of spec/95_test_vectors.md (the section stands beside each group) or are worked out by
hand from a rule; none is the model's own answer. The last part shows, for every statement with hypotheses, concrete states and operands
that meet them, at the edges of their ranges.

The tests of commands that read IRRED or T10 run the command's rule at `Params.reference`, the parameters of the spec's vectors.
-/

namespace Sys2Proof.Tests

open Sys2Proof Sys2Proof.Machine

/-! ### Helpers -/

/-- The state a step leaves. -/
def after (o : Step) : State :=
  match o with
  | .next t => t
  | .fault _ => State.reset
  | .refused _ => State.reset

/-- CODE and DETAIL of a state. -/
def outcome (s : State) : Nat × Nat := ((statusCode s.status).toNat, (statusDetail s.status).toNat)

/-- A rule run at the reference parameters. -/
def run (rule : Params → State → Result) (s : State) : State := after (execute (rule Params.reference) s)

/-- A field configured at degree 8 (0x11B), 3 (0xB) and 1 (0x3). -/
def gf8 : State := { State.reset with gf := ⟨true, 8, 0x11B⟩ }
def gf3 : State := { State.reset with gf := ⟨true, 3, 0xB⟩ }
def gf1 : State := { State.reset with gf := ⟨true, 1, 0x3⟩ }

/-- The quasigroups of order 3 (ODD), 4 (POW2), 12 (COMPOSITE) and 10 (FIXED10). -/
def qg3 : QgContext := ⟨true, .odd, 3, 0, 3, 0⟩
def qg4 : QgContext := ⟨true, .pow2, 4, 2, 1, 0x7⟩
def qg12 : QgContext := ⟨true, .composite, 12, 2, 3, 0x7⟩
def qg10 : QgContext := ⟨true, .fixed10, 10, 0, 0, 0⟩

/-- A state with a quasigroup alone. -/
def built (c : QgContext) : State := { State.reset with qg := c }

/-- A codec over "xyz" (ODD), over "ABCD" (POW2) and over "0123456789" (FIXED10), with a string. -/
def xyz (str : List Word) : State := { State.reset with qg := qg3, alpha := [0x78, 0x79, 0x7A], str := str, dmValid := true }
def abcd (str : List Word) : State := { State.reset with qg := qg4, alpha := [0x41, 0x42, 0x43, 0x44], str := str, dmValid := true }
def digits (str : List Word) : State :=
  { State.reset with
    qg := qg10, alpha := [0x30, 0x31, 0x32, 0x33, 0x34, 0x35, 0x36, 0x37, 0x38, 0x39], str := str, dmValid := true }

/-- A list filled to the capacity of ALPHA and STR (R6). -/
def full : List Word := List.replicate 256 0x31

/-- A property of every entry of a list, from its evaluation. -/
theorem all_mem {α : Type} {p : α → Prop} [DecidablePred p] {l : List α} (h : l.all (fun c => decide (p c)) = true) :
    ∀ c ∈ l, p c := by
  simpa using h

/-! ### The three checks refuse ill-formed words (R65, R66, R67) -/

theorem test_wellFormed_refuses_reserved_op : Fields.wellFormed ⟨0x3B, 0, false, 0, 0⟩ = false := by decide
theorem test_wellFormed_refuses_reserved_bits : Fields.wellFormed ⟨0x01, 1, false, 0, 0⟩ = false := by decide
theorem test_wellFormed_refuses_sa : Fields.wellFormed ⟨0x11, 0, true, 0, 0⟩ = false := by decide
theorem test_wellFormed_accepts_sa : Fields.wellFormed ⟨0x15, 0, true, 0xFFFF, 0⟩ = true := by decide

/-! ### Decoding: each constructor's word, written out from the map of R64 -/

theorem test_decode_nop : decode 0x0100FFFFFFFFFFFF#64 = .ok .nop := by decide
theorem test_decode_clrstat : decode 0x0200000000000000#64 = .ok .clrstat := by decide
theorem test_decode_gfCfg : decode 0x1000010800000000#64 = .ok (.gfCfg 0x108) := by decide
theorem test_decode_gfReduce : decode 0x11000000FFFFFFFE#64 = .ok (.gfReduce 0xFFFFFFFE) := by decide
theorem test_decode_gfAdd : decode 0x1200000100000100#64 = .ok (.gfAdd 1 0x100) := by decide
theorem test_decode_gfMul : decode 0x1300005700000083#64 = .ok (.gfMul 0x57 0x83) := by decide
theorem test_decode_gfInv : decode 0x1400010000000000#64 = .ok (.gfInv 0x100) := by decide
theorem test_decode_gfDiv : decode 0x1500010000000003#64 = .ok (.gfDiv 0x100 3) := by decide
theorem test_decode_qgBuild : decode 0x2000000C00000000#64 = .ok (.qgBuild 12) := by decide
theorem test_decode_qgMul : decode 0x210000FF00000100#64 = .ok (.qgMul 255 256) := by decide
theorem test_decode_qgInv : decode 0x2200010000000000#64 = .ok (.qgInv 256) := by decide
theorem test_decode_alClr : decode 0x3000000000000000#64 = .ok .alClr := by decide
theorem test_decode_alPush : decode 0x3100000000110000#64 = .ok (.alPush 0x110000) := by decide
theorem test_decode_alRd : decode 0x3200000900000000#64 = .ok (.alRd 9) := by decide
theorem test_decode_dmInit : decode 0x3300000000000000#64 = .ok .dmInit := by decide
theorem test_decode_stClr : decode 0x3400000000000000#64 = .ok .stClr := by decide
theorem test_decode_stPush : decode 0x3500000000000034#64 = .ok (.stPush 0x34) := by decide
theorem test_decode_stRd : decode 0x360000FF00000000#64 = .ok (.stRd 255) := by decide
theorem test_decode_dmProcess : decode 0x3700000000000000#64 = .ok .dmProcess := by decide
theorem test_decode_dmVerify : decode 0x3800000000000000#64 = .ok .dmVerify := by decide
theorem test_decode_dmCheck : decode 0x3900000000000000#64 = .ok .dmCheck := by decide
theorem test_decode_dmEncode : decode 0x3A00000000000000#64 = .ok .dmEncode := by decide
theorem test_decode_gfAddR : decode 0x1201000000000083#64 = .ok (.gfAddR 0x83) := by decide
theorem test_decode_gfMulR : decode 0x1301FFFF00000002#64 = .ok (.gfMulR 2) := by decide
theorem test_decode_gfInvR : decode 0x1401000000000000#64 = .ok .gfInvR := by decide
theorem test_decode_gfDivR : decode 0x150100000000001B#64 = .ok (.gfDivR 0x1B) := by decide
theorem test_decode_qgMulR : decode 0x2101000000000007#64 = .ok (.qgMulR 7) := by decide
theorem test_decode_qgInvR : decode 0x2201000000000000#64 = .ok .qgInvR := by decide

/-- R68: a word that is illegal in all three ways gives the first error; in two ways, the second. -/
theorem test_decode_order : decode 0x0003000000000000#64 = .error .reservedOp ∧ decode 0x1003000000000000#64 = .error .reservedBits ∧
    decode 0x1001000000000000#64 = .error .saNotAllowed := by decide

/-- The opcode table's numbering: its word is the port's word. -/
theorem test_decodeTableWord : decodeTableWord 64 0x1401000000000000 = some .gfInvR := by decide

/-! ### One step of each command -/

/-- R41: the step takes the word the host writes and runs it (95_test_vectors.md P5: STATUS = 0x80000107). -/
theorem test_step_runs_word : (after (step (State.reset.withFetchWord 64 0x1400000100000000))).status = 0x80000107 := by decide

/-- R175: reset drops the words written while it is asserted, and the context that was there. -/
theorem test_step_reset : (after (step { gf8 with hostMoves := [.reset [0x0100000000000000]] })).gf = ⟨false, 0, 0⟩ := by decide

/-- 95_test_vectors.md L1.4: QG_CTX of order 12. -/
theorem test_readReg_qgctx : readReg (built qg12) 0x0A = 0x000C0209 := by decide

theorem test_nop : (after (exec .nop { State.reset with status := 0x80000303 })).status = 0x80000000 := by decide
theorem test_clrstat : (after (exec .clrstat { State.reset with status := 0x80000205, errpos := 2 })).status = 0 := by decide

/-! 95_test_vectors.md 2.1. -/

theorem test_gfCfg : (run (ruleGfCfg · 8) gf3).gf = ⟨true, 8, 0x11B⟩ := by decide
theorem test_gfCfg_whole_field_A : outcome (after (exec (.gfCfg 0x108) gf3)) = (6, 2) := by decide
theorem test_gfReduce : (after (exec (.gfReduce 0xFFFFFFFF) gf8)).res0 = 0xAA := by decide +kernel
theorem test_gfReduce_degree_1 : (after (exec (.gfReduce 0xFFFFFFFE) gf1)).res0 = 1 := by decide +kernel
theorem test_gfAdd : (after (exec (.gfAdd 0x57 0x83) gf8)).res0 = 0xD4 := by decide
theorem test_gfAdd_operand_b : outcome (after (exec (.gfAdd 1 0x100) gf8)) = (1, 2) := by decide
theorem test_gfMul : (after (exec (.gfMul 0x57 0x83) gf8)).res0 = 0xC1 := by decide +kernel
theorem test_gfMul_degree_1 : outcome (after (exec (.gfMul 2 1) gf1)) = (1, 1) := by decide
theorem test_gfInv : (after (exec (.gfInv 0x53) gf8)).res0 = 0xCA := by decide +kernel
theorem test_gfInv_zero : outcome (after (exec (.gfInv 0) gf3)) = (2, 1) := by decide +kernel
theorem test_gfDiv : (after (exec (.gfDiv 5 3) gf3)).res0 = 3 := by decide +kernel
theorem test_gfDiv_zero_first : outcome (after (exec (.gfDiv 0x100 0) gf8)) = (2, 1) := by decide
theorem test_gfAddR : (after (exec (.gfAddR 0x83) { gf8 with res0 := 0x57 })).res0 = 0xD4 := by decide
theorem test_gfMulR : (after (exec (.gfMulR 0x02) { gf8 with res0 := 0x80 })).res0 = 0x1B := by decide +kernel
theorem test_gfInvR : (after (exec .gfInvR { gf3 with res0 := 2 })).res0 = 5 := by decide +kernel
theorem test_gfInvR_whole_res0 : outcome (after (exec .gfInvR { gf3 with res0 := 0x10002 })) = (1, 1) := by decide
theorem test_gfDivR : (after (exec (.gfDivR 2) { gf3 with res0 := 1 })).res0 = 5 := by decide +kernel

/-! 95_test_vectors.md 2.2 and 42_quasigroup.md R105. -/

theorem test_qgBuild : (run (ruleQgBuild · 12) (xyz [])).qg = qg12 := by decide +kernel
theorem test_qgBuild_258 : outcome (after (exec (.qgBuild 258) State.reset)) = (3, 4) := by decide
theorem test_qgMul : (run (ruleQgMul · (.field 7) 5) (built qg12)).res0 = 7 := by decide +kernel
theorem test_qgMul_fixed10 : (run (ruleQgMul · (.field 9) 0) (built qg10)).res0 = 2 := by decide
theorem test_qgMulR : (run (ruleQgMul · .res0 11) { built qg12 with res0 := 2 }).res0 = 9 := by decide +kernel
theorem test_qgMulR_operand_b : outcome (run (ruleQgMul · .res0 12) (built qg12)) = (1, 2) := by decide
theorem test_qgInv : (run (ruleQgInv · (.field 1)) (built qg4)).res0 = 3 := by decide +kernel
theorem test_qgInvR : (run (ruleQgInv · .res0) { built qg12 with res0 := 3 }).res0 = 9 := by decide +kernel

/-! 95_test_vectors.md 2.3. -/

theorem test_alClr : (after (exec .alClr (xyz []))).dmValid = false := by decide
theorem test_alPush : (after (exec (.alPush 0x41) (xyz []))).alpha = [0x78, 0x79, 0x7A, 0x41] := by decide
theorem test_alPush_full : outcome (after (exec (.alPush 0x41) { State.reset with alpha := full })) = (9, 1) := by decide +kernel
theorem test_alRd : (after (exec (.alRd 9) (digits []))).res0 = 0x39 := by decide
theorem test_alRd_past_end : outcome (after (exec (.alRd 10) (digits []))) = (9, 2) := by decide
theorem test_dmInit : (run ruleDmInit { abcd [] with qg := qg3, dmValid := false }).qg = qg4 := by decide +kernel
theorem test_dmInit_first_defect :
    (fun s => (outcome s, s.errpos)) (run ruleDmInit { State.reset with alpha := [0x41, 0x41, 0x110000] }) = ((5, 2), 1) := by decide
theorem test_stClr : (after (exec .stClr (xyz [0x78]))).str = [] := by decide
theorem test_stPush : (after (exec (.stPush 0x34) (digits [0x35]))).str = [0x35, 0x34] := by decide
theorem test_stPush_full : outcome (after (exec (.stPush 0x31) (digits full))) = (9, 3) := by decide +kernel
theorem test_stRd : (after (exec (.stRd 255) (digits full))).res0 = 0x31 := by decide +kernel
theorem test_stRd_past_end : outcome (after (exec (.stRd 256) (digits full))) = (9, 4) := by decide +kernel
theorem test_dmProcess : (run ruleDmProcess (digits [0x37])).res0 = 0x36 := by decide
theorem test_dmProcess_foreign :
    (fun s => (outcome s, s.errpos)) (run ruleDmProcess (digits [0x31, 0x32, 0x61, 0x34])) = ((4, 0), 2) := by decide
theorem test_dmVerify : (run ruleDmVerify (digits [0x34, 0x35, 0x36, 0x31, 0x34])).res0 = 1 := by decide
theorem test_dmVerify_transposed : (fun s => (s.res0, s.res1)) (run ruleDmVerify (digits [0x34, 0x35, 0x31, 0x36, 0x34])) = (0, 9) := by
  decide
theorem test_dmCheck : (run ruleDmCheck (abcd [0x43, 0x42])).res0 = 0x44 := by decide +kernel
theorem test_dmCheck_uninitialised : outcome (after (exec .dmCheck (built qg4))) = (7, 3) := by decide
theorem test_dmEncode : (run ruleDmEncode (digits [0x34, 0x35, 0x36, 0x31])).str = [0x34, 0x35, 0x36, 0x31, 0x34] := by decide
theorem test_dmEncode_full : outcome (run ruleDmEncode (digits full)) = (9, 3) := by decide +kernel

/-! 70_reset_and_hazards.md R185: programs and runs. -/

/-- A word that is no command is part of the run: the NOP after it completes, and STICKY shows it at the end (R153). -/
theorem test_runProgram_failing_word : (runProgram [0x0000000000000000, 0x0100000000000000]).map (·.status) = some 0x80000000 := by decide

/-- STICKY = 0 at the end is not enough where it was 1 at the start, as under CLRSTAT. -/
theorem test_didNotFail_start : ¬ DidNotFail ({ State.reset with status := 0x80000000 } : State) State.reset := by
  unfold DidNotFail; decide

/-- A run of one NOP from reset did not fail, by STICKY and by CODE. -/
theorem test_programDidNotFail : ProgramDidNotFail [0x0100000000000000] State.reset ∧ ProgramWordsSucceeded [0x0100000000000000] State.reset :=
  ⟨⟨_, rfl, by unfold DidNotFail; decide⟩, _, rfl, by simp [EveryWordSucceeded, State.Succeeded]; decide⟩

/-- The result of the empty program: the read map after reset (R34, R42). -/
theorem test_runResult : (runProgram []).map runResult = some ⟨[0x44414D4D, 8, 256, 256, 0, 0, 0, 0, 0, 0, 0, 0, 0, 0, 0, 0], [], []⟩ := by
  decide

/-! 30_encoding.md R71, R72. -/

theorem test_assembleLine : assembleLine "GF.MUL.R 0x1B ; chained" = some [.gfMulR 0x1B] := by decide +kernel
theorem test_assembleLine_pseudo : assembleLine "ST.LOAD \"ab\"" = some [.stClr, .stPush 0x61, .stPush 0x62] := by decide +kernel

/-! ### What the reference parameters satisfy (93_implementation_defined.md I1, I2) -/

theorem reference_t10Latin : Params.reference.T10Latin := by decide +kernel
theorem reference_t10WTA : Params.reference.T10WTA := by decide +kernel

/-! ### Well-formed states for the witnesses -/

theorem reset_status_wellFormed : StatusWellFormed 0 := by unfold StatusWellFormed; decide

theorem gf8_wellFormed : gf8.gf.WellFormed Params.reference := by unfold GfContext.WellFormed; decide

theorem gf_none_wellFormed (P : Params) : GfContext.WellFormed P ⟨false, 0, 0⟩ := ⟨rfl, rfl⟩

theorem qg3_wellFormed (P : Params) : qg3.WellFormed P := show classify P 3 = .ok qg3 from rfl

theorem qg10_wellFormed (P : Params) : qg10.WellFormed P := show classify P 10 = .ok qg10 from rfl

/-- An alphabet of one entry, for which DM.INIT finds no quasigroup. -/
def single : State := { State.reset with alpha := [0x41] }

theorem single_wellFormed (P : Params) : single.WellFormed P where
  status := reset_status_wellFormed
  gf := gf_none_wellFormed P
  qg := ⟨rfl, rfl, rfl, rfl, rfl⟩
  codec := fun h => nomatch h
  alpha := show 1 ≤ 256 by decide
  str := Nat.zero_le _

theorem xyz_wellFormed (P : Params) {str : List Word} (h : str.length ≤ 256) : (xyz str).WellFormed P where
  status := reset_status_wellFormed
  gf := gf_none_wellFormed P
  qg := qg3_wellFormed P
  codec _ := ⟨rfl, rfl, show [0x78#32, 0x79, 0x7A].Nodup by decide, all_mem (l := [0x78#32, 0x79, 0x7A]) (by decide)⟩
  alpha := show 3 ≤ 256 by decide
  str := h

theorem digits_wellFormed (P : Params) {str : List Word} (h : str.length ≤ 256) : (digits str).WellFormed P where
  status := reset_status_wellFormed
  gf := gf_none_wellFormed P
  qg := qg10_wellFormed P
  codec _ := ⟨rfl, rfl, show (digits []).alpha.Nodup by decide, all_mem (l := (digits []).alpha) (by decide)⟩
  alpha := show 10 ≤ 256 by decide
  str := h

/-! ### Witnesses: states and operands that meet the hypotheses of the statements

`witness_<Name>` is about `Obligations.<Name>`; its docstring says which clause a line is for where there are several. A statement
without hypotheses, or one whose only hypothesis another witness meets, has none. -/

/-- The host's next move is one word, a command with every operand field set. -/
theorem witness_StepRunsDecodedCommand :
    ({ State.reset with hostMoves := [.command 0x1301FFFF00000002] } : State).hostMoves = .command 0x1301FFFF00000002 :: [] ∧
      decode 0x1301FFFF00000002 = .ok (.gfMulR 2) ∧ (Instr.gfMulR 2).wellFormed = true := by decide

/-- Two reads, at both ends of the address space, before another move. -/
theorem witness_ReadsChangeNothing :
    ({ gf8 with hostMoves := [.read 0x00, .read 0xFF, .reset []] } : State).hostMoves =
      [(0x00 : BitVec 8), 0xFF].map .read ++ [.reset []] := by decide

theorem witness_ResetGivesTableValues :
    ({ gf8 with hostMoves := [.reset [0x0100000000000000]] } : State).hostMoves = .reset [0x0100000000000000] :: [] := by decide

/-- The three clauses: a reset, a read, no move. -/
theorem witness_HostSideOfTheStep :
    ({ gf8 with hostMoves := [.reset [0], .read 1] } : State).hostMoves = .reset [0] :: [.read 1] ∧
      ({ gf8 with hostMoves := [.read 0xFF] } : State).hostMoves = .read 0xFF :: [] ∧ gf8.hostMoves = [] := by decide

theorem witness_RegisterReadMap : ∃ P, (xyz full).WellFormed P := ⟨Params.reference, xyz_wellFormed _ (by decide +kernel)⟩

/-- The two ends of the unmapped addresses. -/
theorem witness_UnmappedReadsGiveZero :
    0x10 ≤ (0x10 : BitVec 8).toNat ∧ 0x10 ≤ (0xFF : BitVec 8).toNat ∧
      ({ gf8 with hostMoves := [.read 0x10] } : State).hostMoves = .read 0x10 :: [] := by decide

/-- Two words of GF.INV 1 that differ in field B alone, which it does not read; two of GF.ADD that differ in field A, which it reads. -/
theorem witness_DecodeIgnoresUnreadFields :
    (Fields.ofWord 0x1400000100000000).op = (Fields.ofWord 0x14000001FFFFFFFF).op ∧
      (Fields.ofWord 0x1400000100000000).rsv = (Fields.ofWord 0x14000001FFFFFFFF).rsv ∧
      (Fields.ofWord 0x1400000100000000).sa = (Fields.ofWord 0x14000001FFFFFFFF).sa ∧
      decode 0x14000001FFFFFFFF = .ok (.gfInv 1) ∧ readsA (.gfInv 1) = true ∧ readsB (.gfInv 1) = false ∧
      (Fields.ofWord 0x1400000100000000).a = (Fields.ofWord 0x14000001FFFFFFFF).a ∧
      ((Fields.ofWord 0x1200000000000001).op = (Fields.ofWord 0x1200000200000001).op ∧
        (Fields.ofWord 0x1200000000000001).rsv = (Fields.ofWord 0x1200000200000001).rsv ∧
        (Fields.ofWord 0x1200000000000001).sa = (Fields.ofWord 0x1200000200000001).sa ∧
        decode 0x1200000200000001 = .ok (.gfAdd 2 1) ∧
        (Fields.ofWord 0x1200000000000001).a ≠ (Fields.ofWord 0x1200000200000001).a) := by decide

/-- One word for each clause. -/
theorem witness_DecodeChecksInOrder :
    (Fields.ofWord 0x3BFFFFFFFFFFFFFF).opReserved = true ∧
      ((Fields.ofWord 0x3A03000000000000).opReserved = false ∧ (Fields.ofWord 0x3A03000000000000).rsvZero = false) ∧
      ((Fields.ofWord 0x3A01000000000000).opReserved = false ∧ (Fields.ofWord 0x3A01000000000000).rsvZero = true ∧
        (Fields.ofWord 0x3A01000000000000).saLegal = false) ∧
      (Fields.ofWord 0x2201000000000000).wellFormed = true := by decide

/-- Each end of each reserved range of OP; the least and the greatest RSV; SA on the command before those that allow it. -/
theorem witness_IllegalWordsFail :
    (∀ op ∈ [0x00, 0x03, 0x0F, 0x16, 0x1F, 0x23, 0x2F, 0x3B, 0xFF],
        (Fields.ofWord (BitVec.ofNat 64 (op * 2 ^ 56))).op.toNat = op) ∧
      ((Fields.ofWord 0x0102000000000000).opReserved = false ∧ (Fields.ofWord 0x0102000000000000).rsv ≠ 0) ∧
      ((Fields.ofWord 0x3AFE000000000000).opReserved = false ∧ (Fields.ofWord 0x3AFE000000000000).rsv ≠ 0) ∧
      ((Fields.ofWord 0x1101000000000000).opReserved = false ∧ (Fields.ofWord 0x1101000000000000).rsv = 0 ∧
        (Fields.ofWord 0x1101000000000000).sa = true ∧
        (Fields.ofWord 0x1101000000000000).op.toNat ∉ [0x12, 0x13, 0x14, 0x15, 0x21, 0x22]) ∧
      ({ gf8 with hostMoves := [.command 0] } : State).hostMoves = .command 0 :: [] := by decide +kernel

/-- A failing command, and one that succeeds; the second for the frame. -/
theorem witness_FailuresWithinTable :
    exec (.gfInv 1) State.reset = .next (after (exec (.gfInv 1) State.reset)) ∧
      statusCode (after (exec (.gfInv 1) State.reset)).status ≠ 0 := ⟨rfl, by decide⟩

theorem witness_CommandsTouchOnlyTheirState :
    exec .alClr (xyz [0x78]) = .next (after (exec .alClr (xyz [0x78]))) ∧
      statusSticky ({ xyz [] with status := 0x80000107 } : State).status = true := ⟨rfl, by decide⟩

/-- The least and the greatest failing degrees, and both ends of the degrees a field has. -/
theorem witness_GfCfgRule :
    (0 : BitVec 16).toNat = 0 ∧ 8 < (9 : BitVec 16).toNat ∧ 8 < (0xFFFF : BitVec 16).toNat ∧
      (1 ≤ (1 : BitVec 16).toNat ∧ (1 : BitVec 16).toNat ≤ 8) ∧ (1 ≤ (8 : BitVec 16).toNat ∧ (8 : BitVec 16).toNat ≤ 8) := by decide

theorem witness_GfReduceRule :
    State.reset.gf.valid = false ∧ gf8.gf.valid = true ∧ (0xFF : BitVec 32).toNat < 2 ^ gf8.gf.deg ∧
      (2 ^ gf8.gf.deg ≤ (0x11B : BitVec 32).toNat ∧ (0x11B : BitVec 32).toNat < 2 ^ (gf8.gf.deg + 1) ∧
        gf8.gf.poly = (0x11B : BitVec 32).toNat) := by decide

/-- Both forms; operands on both sides of the order. -/
theorem witness_GfAddRule :
    ((∃ a : BitVec 16, Instr.gfAdd 0xFF 0x100 = .gfAdd a 0x100 ∧ 0xFF = a.toNat) ∧
        (Instr.gfAddR 0x100 = .gfAddR 0x100 ∧ 0x100 = ({ gf8 with res0 := 0x100 } : State).res0.toNat)) ∧
      State.reset.gf.valid = false ∧ gf8.gf.valid = true ∧ 2 ^ gf8.gf.deg ≤ 0x100 ∧ 0xFF < 2 ^ gf8.gf.deg ∧
      2 ^ gf8.gf.deg ≤ (0x100 : BitVec 32).toNat ∧ (0xFF : BitVec 32).toNat < 2 ^ gf8.gf.deg :=
  ⟨⟨⟨0xFF, rfl, rfl⟩, rfl, rfl⟩, by decide⟩

theorem witness_GfMulRule :
    ((∃ a : BitVec 16, Instr.gfMul 0xFF 0x100 = .gfMul a 0x100 ∧ 0xFF = a.toNat) ∧
        (Instr.gfMulR 0x100 = .gfMulR 0x100 ∧ 0x100 = ({ gf8 with res0 := 0x100 } : State).res0.toNat)) ∧
      State.reset.gf.valid = false ∧ gf8.gf.valid = true ∧ 2 ^ gf8.gf.deg ≤ 0x100 ∧ 0xFF < 2 ^ gf8.gf.deg ∧
      2 ^ gf8.gf.deg ≤ (0x100 : BitVec 32).toNat ∧ (0xFF : BitVec 32).toNat < 2 ^ gf8.gf.deg :=
  ⟨⟨⟨0xFF, rfl, rfl⟩, rfl, rfl⟩, by decide⟩

/-- Both forms; an invalid operand; 0 without an inverse; 7 with the inverse 4 (95_test_vectors.md, d = 3); a well-formed field. -/
theorem witness_GfInvRule :
    ((∃ a : BitVec 16, Instr.gfInv 7 = .gfInv a ∧ 7 = a.toNat) ∧
        (Instr.gfInvR = .gfInvR ∧ 7 = ({ gf3 with res0 := 7 } : State).res0.toNat)) ∧
      (State.reset.gf.valid = false ∧ gf3.gf.valid = true ∧ 2 ^ gf3.gf.deg ≤ 8) ∧
      (∀ p, p < 2 ^ gf3.gf.deg → gfmul gf3.gf.deg gf3.gf.poly p 0 ≠ 1) ∧
      ((7 < 2 ^ gf3.gf.deg ∧ 4 < 2 ^ gf3.gf.deg ∧ gfmul gf3.gf.deg gf3.gf.poly 4 7 = 1) ∧
        (∀ q, q < 4 → gfmul gf3.gf.deg gf3.gf.poly q 7 ≠ 1) ∧ gfinv gf3.gf.deg gf3.gf.poly 7 = some 4) ∧
      ∃ P, gf3.gf.WellFormed P :=
  ⟨⟨⟨7, rfl, rfl⟩, rfl, rfl⟩, by decide, by decide +kernel, by decide +kernel, Params.reference,
    by unfold GfContext.WellFormed; decide⟩

/-- Both forms; the two operands on both sides of the order; b = 0; b = 2 with its inverse 5 (95_test_vectors.md, d = 3). -/
theorem witness_GfDivRule :
    ((∃ a : BitVec 16, Instr.gfDiv 7 2 = .gfDiv a 2 ∧ 7 = a.toNat) ∧
        (Instr.gfDivR 2 = .gfDivR 2 ∧ 7 = ({ gf3 with res0 := 7 } : State).res0.toNat)) ∧
      (State.reset.gf.valid = false ∧ gf3.gf.valid = true ∧ 2 ^ gf3.gf.deg ≤ (8 : BitVec 32).toNat ∧ 7 < 2 ^ gf3.gf.deg ∧
        2 ^ gf3.gf.deg ≤ 8) ∧
      ((2 : BitVec 32) ≠ 0 ∧ (2 : BitVec 32).toNat < 2 ^ gf3.gf.deg ∧
        gfinv gf3.gf.deg gf3.gf.poly (2 : BitVec 32).toNat = some 5) :=
  ⟨⟨⟨7, rfl, rfl⟩, rfl, rfl⟩, by decide, by decide +kernel⟩

theorem witness_CarrylessProductLaws : bitlen 5 ≤ 3 ∧ bitlen 0 ≤ 0 ∧ 1 ≤ 5 ∧ 255 < 2 ^ 8 ∧ 0 < 2 ^ 0 := by decide

/-- The smallest and the largest polynomial of degree 8, and the one of degree 0. -/
theorem witness_ReduceProperties :
    (2 ^ 8 ≤ 0x100 ∧ 0x100 < 2 ^ 9) ∧ (2 ^ 8 ≤ 0x1FF ∧ 0x1FF < 2 ^ 9) ∧ (2 ^ 0 ≤ 1 ∧ 1 < 2 ^ 1) ∧ 0xFF < 2 ^ 8 := by decide

theorem witness_MultiplicationByX : 2 ≤ 2 ∧ 2 ^ 2 ≤ 7 ∧ 7 < 2 ^ (2 + 1) ∧ 3 < 2 ^ 2 := by decide

/-- Both ends of the degrees; two values that are admitted, and x^8 + 1 = (x^4 + 1)^2, odd and of degree 8, which is not. -/
theorem witness_AdmissibleMeansIrreducible :
    (1 ≤ 1 ∧ Admissible 1 3 ∧ clmul 1 3 = 3) ∧ (1 ≤ 8 ∧ Admissible 8 0x11B ∧ clmul 0x11B 1 = 0x11B) ∧
      (2 ^ 8 ≤ 0x101 ∧ 0x101 < 2 ^ (8 + 1) ∧ 0x101 % 2 = 1 ∧ clmul 0x11 0x11 = 0x101 ∧ ¬ Admissible 8 0x101) := by decide +kernel

theorem witness_FieldInverseSearch :
    (1 ≤ 1 ∧ 1 ≤ 8 ∧ 8 ≤ 8) ∧ (1 ≤ 1 ∧ 1 < 2 ^ 1) ∧ (255 < 2 ^ 8) ∧
      gfmul 8 (Params.reference.irred 8) 0x1C 255 = 1 := by decide +kernel

theorem witness_FieldLaws : (1 ≤ 8 ∧ 8 ≤ 8 ∧ Admissible 8 0x11B) ∧ (1 ≤ 1 ∧ Admissible 1 3) ∧ 255 < 2 ^ 8 := by decide +kernel

/-- The largest elements of the field of degree 8. -/
theorem witness_GfCommandIdentities :
    ∃ P, gf8.gf.WellFormed P ∧ gf8.gf.valid = true ∧ (0xFF : BitVec 16).toNat < 2 ^ gf8.gf.deg ∧
      (0xFF : BitVec 32).toNat < 2 ^ gf8.gf.deg ∧ (0xFF : BitVec 32) ≠ 0 ∧ (0xFF : BitVec 16) ≠ 0 :=
  ⟨Params.reference, gf8_wellFormed, by decide⟩

/-- The orders at the ends of each clause: 0; 1, 2; 6; 14, 65534; 257, 65535; 10; 3, 255; 4, 256; 12, 252. -/
theorem witness_QgBuildRule :
    (0 : BitVec 16).toNat < 1 ∧ (1 : BitVec 16).toNat = 1 ∧ (2 : BitVec 16).toNat = 2 ∧ (6 : BitVec 16).toNat = 6 ∧
      (∀ a ∈ [14, 65534], (BitVec.ofNat 16 a).toNat % 4 = 2 ∧ a ≠ 2 ∧ a ≠ 6 ∧ a ≠ 10) ∧
      (∀ a ∈ [257, 65535], (BitVec.ofNat 16 a).toNat % 4 ≠ 2 ∧ 256 < (BitVec.ofNat 16 a).toNat) ∧ (10 : BitVec 16).toNat = 10 ∧
      (∀ a ∈ [3, 255], (BitVec.ofNat 16 a).toNat % 2 = 1 ∧ 3 ≤ a ∧ a ≤ 256) ∧
      (2 ≤ 2 ∧ (4 : BitVec 16).toNat = 2 ^ 2) ∧ (2 ≤ 8 ∧ (256 : BitVec 16).toNat = 2 ^ 8 ∧ (256 : BitVec 16).toNat ≤ 256) ∧
      (3 % 2 = 1 ∧ 3 ≤ 3 ∧ (12 : BitVec 16).toNat = 2 ^ 2 * 3) ∧ (63 % 2 = 1 ∧ (252 : BitVec 16).toNat = 2 ^ 2 * 63) := by decide

/-- Both forms; operands on both sides of the order; a well-formed quasigroup that is not FIXED10. -/
theorem witness_QgMulRule :
    ((∃ a : BitVec 16, Instr.qgMul 2 3 = .qgMul a 3 ∧ 2 = a.toNat) ∧
        (Instr.qgMulR 3 = .qgMulR 3 ∧ 3 = ({ xyz [] with res0 := 3 } : State).res0.toNat)) ∧
      (State.reset.qg.valid = false ∧ (xyz []).qg.valid = true ∧ (xyz []).qg.order ≤ 3 ∧ 2 < (xyz []).qg.order ∧
        (xyz []).qg.order ≤ (3 : BitVec 32).toNat ∧ (2 : BitVec 32).toNat < (xyz []).qg.order) ∧
      (xyz []).qg.WellFormed Config.params ∧ (xyz []).qg.strat ≠ .fixed10 :=
  ⟨⟨⟨2, rfl, rfl⟩, rfl, rfl⟩, by decide, qg3_wellFormed _, by decide⟩

/-- Both forms; an invalid operand; no left inverse, which only a context no run reaches shows (order 2 in the field of degree 8); the
left inverse 2 of 2 at order 3; a well-formed quasigroup that is not FIXED10. -/
theorem witness_QgInvRule :
    ((∃ a : BitVec 16, Instr.qgInv 2 = .qgInv a ∧ 2 = a.toNat) ∧
        (Instr.qgInvR = .qgInvR ∧ 2 = ({ xyz [] with res0 := 2 } : State).res0.toNat)) ∧
      (State.reset.qg.valid = false ∧ (xyz []).qg.valid = true ∧ (xyz []).qg.order ≤ 3 ∧ 2 < (xyz []).qg.order) ∧
      (∀ p, p < 2 → qmult Config.params ⟨true, .pow2, 2, 8, 1, 0x11B⟩ p 1 ≠ 0) ∧
      (qmult Config.params qg3 2 2 = 0 ∧ ∀ q, q < 2 → qmult Config.params qg3 q 2 ≠ 0) ∧
      (xyz []).qg.WellFormed Config.params ∧ (xyz []).qg.strat ≠ .fixed10 ∧ (xyz []).qg.strat = .odd :=
  ⟨⟨⟨2, rfl, rfl⟩, rfl, rfl⟩, by decide, by decide +kernel, by decide +kernel, qg3_wellFormed _, by decide⟩

/-- A quasigroup of each strategy that the dispatch builds at the reference parameters; its premises on T10 hold
(`reference_t10Latin`, `reference_t10WTA`). For QuasigroupMultiplication, CompositeIsDirectProduct, LatinProperty, WeakAntiSymmetry,
StrongAntiSymmetry and InverseSearchClosedForms. -/
theorem witness_built :
    classify Params.reference 10 = .ok qg10 ∧ classify Params.reference 3 = .ok qg3 ∧ classify Params.reference 4 = .ok qg4 ∧
      classify Params.reference 12 = .ok qg12 ∧ qg12.strat = .composite ∧ 11 < 12 ∧ (1 < 2 ^ 2 ∧ 2 < 3) ∧ 3 / qg4.m ≠ 0 ∧
      11 / qg12.m ≠ 0 := by decide +kernel

/-- A full alphabet and one with room; the first index past the end and the last of the list. -/
theorem witness_AlphabetListRules :
    ({ State.reset with alpha := full } : State).alpha.length = 256 ∧ (xyz []).alpha.length ≠ 256 ∧
      (xyz []).alpha.length ≤ (3 : BitVec 16).toNat ∧ (2 : BitVec 16).toNat < (xyz []).alpha.length := by decide +kernel

theorem witness_StringListRules :
    (xyz full).str.length = 256 ∧ (xyz []).str.length ≠ 256 ∧ (xyz full).str.length ≤ (256 : BitVec 16).toNat ∧
      (255 : BitVec 16).toNat < (xyz full).str.length := by decide +kernel

/-- A value that is no single character at position 0; a duplicate at position 1; an empty alphabet; one of order 3; a well-formed
state whose DM.INIT fails. -/
theorem witness_DmInitRule :
    ([0x110000#32][0]? = some 0x110000 ∧ 0x10FFFF < (0x110000 : Word).toNat) ∧
      ([0x10FFFF#32, 0x10FFFF][1]? = some 0x10FFFF ∧ (0x10FFFF : Word).toNat ≤ 0x10FFFF ∧
        (∀ e ∈ [0x10FFFF#32, 0x10FFFF].take 1, e.toNat ≤ 0x10FFFF) ∧ ([0x10FFFF#32, 0x10FFFF].take 1).Nodup ∧
        0x10FFFF#32 ∈ [0x10FFFF#32, 0x10FFFF].take 1) ∧
      (State.reset.alpha.Nodup ∧ classify Config.params State.reset.alpha.length = .error (unsupportedOrder 1)) ∧
      ((∀ e ∈ (xyz []).alpha, e.toNat ≤ 0x10FFFF) ∧ (xyz []).alpha.Nodup ∧
        classify Config.params (xyz []).alpha.length = .ok qg3) ∧
      (single.WellFormed Config.params ∧ exec .dmInit single = .next (after (exec .dmInit single)) ∧
        statusCode (after (exec .dmInit single)).status ≠ 0) :=
  ⟨by decide, ⟨by decide, by decide, all_mem (by decide), by decide, by decide⟩, ⟨by decide, rfl⟩, ⟨all_mem (by decide), by decide, rfl⟩,
    single_wellFormed _, rfl, by decide⟩

/-- No codec; a foreign entry at position 0; the string "yz", whose indices 1 and 2 fold to 1, the index of 'y'. -/
theorem witness_ProcessAndVerifyRules :
    State.reset.dmValid = false ∧
      ((xyz [0x21]).dmValid = true ∧ (xyz [0x21]).str[0]? = some 0x21 ∧ 0x21 ∉ (xyz [0x21]).alpha ∧
        ∀ e ∈ (xyz [0x21]).str.take 0, e ∈ (xyz [0x21]).alpha) ∧
      ((xyz [0x79, 0x7A]).alpha.Nodup ∧
        (xyz [0x79, 0x7A]).str.map some = [1, 2].map (fun k => (xyz [0x79, 0x7A]).alpha[k]?) ∧
        1 = [1, 2].foldl (qmult Config.params (xyz [0x79, 0x7A]).qg) 0 ∧ (xyz [0x79, 0x7A]).alpha[1]? = some 0x79) :=
  ⟨by decide, ⟨by decide, by decide, by decide, all_mem (by decide)⟩, by decide⟩

/-- No codec; a foreign entry; a string that has been encoded; no right solution, which only a context no run reaches shows (order
0); the right solution 1 of the accumulator 1; a string with room and a full one. -/
theorem witness_CheckAndEncodeRules :
    State.reset.dmValid = false ∧
      ((xyz [0x79, 0x21]).str[1]? = some 0x21 ∧ 0x21 ∉ (xyz []).alpha ∧ ∀ e ∈ (xyz [0x79, 0x21]).str.take 1, e ∈ (xyz []).alpha) ∧
      ((xyz [0x79]).WellFormed Config.params ∧ (xyz [0x79]).qg.strat ≠ .fixed10 ∧
        exec .dmEncode (xyz [0x79]) = .next (after (exec .dmEncode (xyz [0x79]))) ∧
        (after (exec .dmEncode (xyz [0x79]))).Succeeded ∧ (after (exec .dmEncode (xyz [0x79]))).str.length < 256 ∧
        (xyz [0x79]).alpha[0]? = some 0x78) ∧
      (∀ x, x < 0 → qmult Config.params ⟨true, .odd, 0, 0, 0, 0⟩ 0 x ≠ 0) ∧
      ((xyz [0x79, 0x7A]).alpha.Nodup ∧
        (xyz [0x79, 0x7A]).str.map some = [1, 2].map (fun k => (xyz [0x79, 0x7A]).alpha[k]?) ∧
        1 = [1, 2].foldl (qmult Config.params qg3) 0 ∧ 1 < qg3.order ∧ qmult Config.params qg3 1 1 = 0 ∧
        (∀ y, y < 1 → qmult Config.params qg3 1 y ≠ 0) ∧ (xyz []).alpha[1]? = some 0x79) ∧
      ((xyz [0x79, 0x7A]).str.length ≠ 256 ∧ (xyz full).str.length = 256) :=
  ⟨by decide, ⟨by decide, by decide, all_mem (by decide)⟩, ⟨xyz_wellFormed _ (by decide), by decide, rfl, by unfold State.Succeeded; decide, by decide, by decide⟩,
    by decide, by decide, by decide +kernel⟩

/-- A foreign entry at the first and at the last position of a full string. -/
theorem witness_ForeignCharacterRule :
    Instr.dmEncode ∈ [Instr.dmProcess, .dmVerify, .dmCheck, .dmEncode] ∧
      ((xyz full).dmValid = true ∧ (xyz full).str[0]? = some 0x31 ∧ 0x31 ∉ (xyz full).alpha ∧
        ∀ e ∈ (xyz full).str.take 0, e ∈ (xyz full).alpha) ∧
      ((xyz (List.replicate 255 0x78 ++ [0x21])).str[255]? = some 0x21 ∧
        ∀ e ∈ (xyz (List.replicate 255 0x78 ++ [0x21])).str.take 255, e ∈ (xyz []).alpha) :=
  ⟨by decide, ⟨by decide, by decide +kernel, by decide, all_mem (by decide +kernel)⟩, by decide +kernel, all_mem (by decide +kernel)⟩

/-- The decimal codec with a string of 255 entries, the longest DM.ENCODE extends. For EncodePassesVerify and FoldCommandRelations. -/
theorem witness_EncodePassesVerify :
    ∃ P s, State.WellFormed P s ∧ s.dmValid = true ∧ (s.qg.strat = .fixed10 → P.T10Latin) ∧ (∀ c ∈ s.str, c ∈ s.alpha) ∧
      s.str.length < 256 ∧ s.str.length = 255 :=
  ⟨Params.reference, digits (List.replicate 255 0x31), digits_wellFormed _ (by decide +kernel), rfl, fun _ => reference_t10Latin,
    all_mem (by decide +kernel), by decide +kernel, by decide +kernel⟩

/-- "45614" verifies (95_test_vectors.md L1.1); '0' at position 3 (L1.2), and at the last position, the check character. -/
theorem witness_SubstitutionIsDetected :
    ∃ P s t, State.WellFormed P s ∧ s.dmValid = true ∧ (s.qg.strat = .fixed10 → P.T10Latin) ∧
      execute (ruleDmVerify P) s = .next t ∧ t.Succeeded ∧ t.res0 = 1 ∧ (3 < s.str.length ∧ 4 < s.str.length) ∧ 0x30 ∈ s.alpha ∧
      s.str[3]? ≠ some 0x30 ∧ s.str[4]? ≠ some 0x30 :=
  ⟨Params.reference, digits [0x34, 0x35, 0x36, 0x31, 0x34], _, digits_wellFormed _ (by decide), rfl, fun _ => reference_t10Latin, rfl,
    by unfold State.Succeeded; decide, by decide, by decide, by decide, by decide, by decide⟩

/-- "45614" verifies, and its positions 2 and 3 differ (95_test_vectors.md L1.3). -/
theorem witness_AdjacentTranspositionIsDetected :
    ∃ P s t, State.WellFormed P s ∧ s.dmValid = true ∧ (s.qg.strat = .fixed10 → P.T10Latin ∧ P.T10WTA) ∧
      s.str = [0x34, 0x35] ++ 0x36 :: 0x31 :: [0x34] ∧ (0x36 : Word) ≠ 0x31 ∧
      execute (ruleDmVerify P) s = .next t ∧ t.Succeeded ∧ t.res0 = 1 :=
  ⟨Params.reference, digits [0x34, 0x35, 0x36, 0x31, 0x34], _, digits_wellFormed _ (by decide), rfl,
    fun _ => ⟨reference_t10Latin, reference_t10WTA⟩, rfl, by decide, rfl, by unfold State.Succeeded; decide, by decide⟩

/-- The string "yz" with the indices 1 and 2, at the block's own parameters. -/
theorem witness_HostFoldEqualsDmFold :
    (xyz [0x79, 0x7A]).WellFormed Config.params ∧ (xyz [0x79, 0x7A]).dmValid = true ∧
      (xyz [0x79, 0x7A]).str.map some = ((1 : BitVec 32) :: [2]).map (fun k => (xyz [0x79, 0x7A]).alpha[k.toNat]?) :=
  ⟨xyz_wellFormed _ (by decide), by decide⟩

theorem witness_FoldIsNotAssociative (P : Params) : classify P 5 = .ok ⟨true, .odd, 5, 0, 5, 0⟩ := rfl

/-- The empty string and a string of one entry, the last of the alphabet, for FIXED10 and for another strategy. -/
theorem witness_EmptyAndSingleStrings :
    ((digits []).WellFormed Params.reference ∧ (digits []).alpha[0]? = some 0x30 ∧ (digits []).str = [] ∧
        Params.reference.t10 0 0 = 0 ∧ (digits []).dmValid = true) ∧
      ((digits [0x39]).WellFormed Params.reference ∧ (digits [0x39]).str = [0x39] ∧ (digits [0x39]).alpha[9]? = some 0x39) ∧
      ((xyz [0x7A]).WellFormed Params.reference ∧ (xyz [0x7A]).alpha[2]? = some 0x7A ∧ (xyz [0x7A]).qg.strat ≠ .fixed10) :=
  ⟨⟨digits_wellFormed _ (by decide), by decide⟩, ⟨digits_wellFormed _ (by decide), by decide⟩, xyz_wellFormed _ (by decide), by decide⟩

/-- QG.INV.R, DM.CHECK and DM.ENCODE in the decimal codec. -/
theorem witness_InternalConsistencyErrorsUnreachable :
    ∃ P s, State.WellFormed P s ∧ (s.qg.strat = .fixed10 → P.T10Latin) ∧
      (∃ t, execute (ruleQgInv P .res0) s = .next t) ∧ (∃ t, execute (ruleDmCheck P) s = .next t) ∧
      ∃ t, execute (ruleDmEncode P) s = .next t :=
  ⟨Params.reference, digits [0x34], digits_wellFormed _ (by decide), fun _ => reference_t10Latin, ⟨_, rfl⟩, ⟨_, rfl⟩, _, rfl⟩

/-- A well-formed state with a codec, and a step from it. -/
theorem witness_StepKeepsWellFormed : ∃ s t, State.WellFormed Config.params s ∧ step s = .next t :=
  ⟨(xyz [0x79]).setMoves [.command 0x3A00000000000000], _,
    ⟨reset_status_wellFormed, gf_none_wellFormed _, qg3_wellFormed _, (xyz_wellFormed (str := [0x79]) Config.params (by decide)).codec,
      show 3 ≤ 256 by decide, show 1 ≤ 256 by decide⟩, rfl⟩

theorem witness_ReachableStatesAreWellFormed : Reachable (State.reset.setMoves [.command 0, .read 4]) := .start _

end Sys2Proof.Tests
end

section
/-!
SUPPORT. What a successful command writes (R153), said once for all 28 commands, and from it: STATUS and its layout (R23, R33), the frame
of every command, and the well-formed states (R30). Family 10_state.md.
-/

namespace Sys2Proof.Machine

/-! ### The layout of STATUS (R23) -/

/-- The number of a concatenation: the high part stands above the low one. -/
theorem toNat_append_eq_add {m n : Nat} (x : BitVec m) (y : BitVec n) : (x ++ y).toNat = x.toNat * 2 ^ n + y.toNat := by
  rw [BitVec.toNat_append, Nat.shiftLeft_eq, Nat.mul_comm, Nat.two_pow_add_eq_or_of_lt y.isLt]

theorem statusCode_toNat (st : Word) : (statusCode st).toNat = st.toNat % 2 ^ 4 := by
  simp [statusCode, BitVec.extractLsb'_toNat]

theorem statusDetail_toNat (st : Word) : (statusDetail st).toNat = st.toNat / 2 ^ 8 % 2 ^ 8 := by
  simp [statusDetail, BitVec.extractLsb'_toNat, Nat.shiftRight_eq_div_pow]

theorem statusSticky_toNat (st : Word) : (statusSticky st).toNat = st.toNat / 2 ^ 31 := by
  rw [statusSticky, BitVec.getLsbD, Nat.toNat_testBit]
  have := st.isLt
  omega

theorem statusWord_toNat (k : Bool) (d : BitVec 8) (c : BitVec 4) :
    (statusWord k d c).toNat = c.toNat + 2 ^ 8 * d.toNat + 2 ^ 31 * k.toNat := by
  simp only [statusWord, toNat_append_eq_add, BitVec.toNat_ofBool, BitVec.toNat_ofNat]
  omega

/-- Settles O15: each field of STATUS as a quotient and remainder, and STATUS as the sum of its fields. -/
theorem statusLayout : Obligations.StatusLayout :=
  ⟨fun st => ⟨statusCode_toNat st, statusDetail_toNat st, statusSticky_toNat st⟩, statusWord_toNat⟩

/-! ### One rule per command -/

/-- The rule of a command, in the block with parameters `P`. -/
def commandRule (P : Params) : Instr → State → Result
  | .nop => ruleNop
  | .clrstat => ruleClrstat
  | .gfCfg a => ruleGfCfg P a
  | .gfReduce b => ruleGfReduce b
  | .gfAdd a b => ruleGfAdd (.field a) b
  | .gfMul a b => ruleGfMul (.field a) b
  | .gfInv a => ruleGfInv (.field a)
  | .gfDiv a b => ruleGfDiv (.field a) b
  | .qgBuild a => ruleQgBuild P a
  | .qgMul a b => ruleQgMul P (.field a) b
  | .qgInv a => ruleQgInv P (.field a)
  | .alClr => ruleAlClr
  | .alPush b => ruleAlPush b
  | .alRd a => ruleAlRd a
  | .dmInit => ruleDmInit P
  | .stClr => ruleStClr
  | .stPush b => ruleStPush b
  | .stRd a => ruleStRd a
  | .dmProcess => ruleDmProcess P
  | .dmVerify => ruleDmVerify P
  | .dmCheck => ruleDmCheck P
  | .dmEncode => ruleDmEncode P
  | .gfAddR b => ruleGfAdd .res0 b
  | .gfMulR b => ruleGfMul .res0 b
  | .gfInvR => ruleGfInv .res0
  | .gfDivR b => ruleGfDiv .res0 b
  | .qgMulR b => ruleQgMul P .res0 b
  | .qgInvR => ruleQgInv P .res0

/-- R31, R153: `exec` runs a command's rule at the block's own parameters. -/
theorem exec_eq_execute (i : Instr) (s : State) : exec i s = execute (commandRule Config.params i) s := by
  cases i <;> rfl

/-! ### The rules whose only write is to RES0 and RES1 -/

/-- A success of `r`, computed in state `s`, writes RES0 and RES1 and nothing else. -/
def WritesResOnly (s : State) (r : Result) : Prop := ∀ u, r = .ok u → ∃ r0 r1, u = s.setRes r0 r1

theorem writesResOnly_setRes (s : State) (r0 r1 : Word) : WritesResOnly s (.ok (s.setRes r0 r1)) :=
  fun _ h => ⟨r0, r1, (Except.ok.inj h).symm⟩

theorem writesResOnly_error (s : State) (f : Failure) : WritesResOnly s (.error f) := fun _ h => nomatch h

theorem writesResOnly_failIf {s : State} {c : Bool} {f : Failure} {k : Result} (h : WritesResOnly s k) :
    WritesResOnly s (failIf c f k) := fun u hu => h u (failIf_ok_iff.mp hu).2

theorem ruleGfReduce_writesResOnly (b : BitVec 32) (s : State) : WritesResOnly s (ruleGfReduce b s) :=
  writesResOnly_failIf (writesResOnly_setRes s _ _)

theorem ruleGfAdd_writesResOnly (src : Source) (b : BitVec 32) (s : State) : WritesResOnly s (ruleGfAdd src b s) :=
  writesResOnly_failIf (writesResOnly_failIf (writesResOnly_setRes s _ _))

theorem ruleGfMul_writesResOnly (src : Source) (b : BitVec 32) (s : State) : WritesResOnly s (ruleGfMul src b s) :=
  writesResOnly_failIf (writesResOnly_failIf (writesResOnly_setRes s _ _))

theorem ruleGfInv_writesResOnly (src : Source) (s : State) : WritesResOnly s (ruleGfInv src s) := by
  refine writesResOnly_failIf (writesResOnly_failIf ?_)
  cases gfinv s.gf.deg s.gf.poly (opA src s) with
  | none => exact writesResOnly_error s _
  | some p => exact writesResOnly_setRes s _ _

theorem ruleGfDiv_writesResOnly (src : Source) (b : BitVec 32) (s : State) : WritesResOnly s (ruleGfDiv src b s) := by
  refine writesResOnly_failIf (writesResOnly_failIf (writesResOnly_failIf (writesResOnly_failIf ?_)))
  cases gfinv s.gf.deg s.gf.poly (opB b) with
  | none => exact writesResOnly_error s _
  | some p => exact writesResOnly_setRes s _ _

theorem ruleQgMul_writesResOnly (P : Params) (src : Source) (b : BitVec 32) (s : State) :
    WritesResOnly s (ruleQgMul P src b s) :=
  writesResOnly_failIf (writesResOnly_failIf (writesResOnly_setRes s _ _))

theorem ruleQgInv_writesResOnly (P : Params) (src : Source) (s : State) : WritesResOnly s (ruleQgInv P src s) := by
  refine writesResOnly_failIf (writesResOnly_failIf ?_)
  cases linv P s.qg (opA src s) with
  | none => exact writesResOnly_error s _
  | some p => exact writesResOnly_setRes s _ _

theorem ruleAlRd_writesResOnly (a : BitVec 16) (s : State) : WritesResOnly s (ruleAlRd a s) := by
  unfold ruleAlRd
  cases s.alpha[opA (.field a) s]? with
  | none => exact writesResOnly_error s _
  | some c => exact writesResOnly_setRes s _ _

theorem ruleStRd_writesResOnly (a : BitVec 16) (s : State) : WritesResOnly s (ruleStRd a s) := by
  unfold ruleStRd
  cases s.str[opA (.field a) s]? with
  | none => exact writesResOnly_error s _
  | some c => exact writesResOnly_setRes s _ _

theorem ruleDmProcess_writesResOnly (P : Params) (s : State) : WritesResOnly s (ruleDmProcess P s) := by
  unfold ruleDmProcess
  cases folded P s with
  | error f => exact writesResOnly_error s f
  | ok acc => exact writesResOnly_setRes s _ _

theorem ruleDmVerify_writesResOnly (P : Params) (s : State) : WritesResOnly s (ruleDmVerify P s) := by
  unfold ruleDmVerify
  cases folded P s with
  | error f => exact writesResOnly_error s f
  | ok acc => exact writesResOnly_setRes s _ _

theorem ruleDmCheck_writesResOnly (P : Params) (s : State) : WritesResOnly s (ruleDmCheck P s) := by
  unfold ruleDmCheck
  cases checkIndex P s with
  | error f => exact writesResOnly_error s f
  | ok x => exact writesResOnly_setRes s _ _

/-! ### The rules that write a context or a list -/

theorem opA_field (a : BitVec 16) (s : State) : opA (.field a) s = a.toNat := rfl

theorem ruleGfCfg_eq_ok {P : Params} {a : BitVec 16} {s u : State} :
    ruleGfCfg P a s = .ok u ↔ 1 ≤ a.toNat ∧ a.toNat ≤ Config.dMax ∧
      u = (s.setGf ⟨true, a.toNat, P.irred a.toNat⟩).setRes (word (2 ^ a.toNat)) (word (P.irred a.toNat)) := by
  simp only [ruleGfCfg, failIf_ok_iff, beq_eq_false_iff_ne, decide_eq_false_iff_not, Nat.not_lt, Except.ok.injEq]
  rw [opA_field, ← Nat.one_le_iff_ne_zero, eq_comm (a := u)]

theorem ruleQgBuild_eq_ok {P : Params} {a : BitVec 16} {s u : State} :
    ruleQgBuild P a s = .ok u ↔ ∃ c, classify P a.toNat = .ok c ∧
      u = ((s.setQg c).setDmValid false).setRes (word c.strat.code) (word c.order) := by
  rw [ruleQgBuild, opA_field]
  cases classify P a.toNat <;> simp [eq_comm (a := u)]

theorem ruleAlPush_eq_ok {b : BitVec 32} {s u : State} :
    ruleAlPush b s = .ok u ↔ s.alpha.length ≠ Config.nMax ∧ u = (s.setAlpha (s.alpha ++ [b])).setDmValid false := by
  simp [ruleAlPush, failIf_ok_iff, eq_comm (a := u)]

theorem ruleDmInit_eq_ok {P : Params} {s u : State} :
    ruleDmInit P s = .ok u ↔ checkAlphabet s.alpha = none ∧ ∃ c, classify P s.alpha.length = .ok c ∧
      u = ((s.setQg c).setDmValid true).setRes (word c.strat.code) (word s.alpha.length) := by
  unfold ruleDmInit
  cases checkAlphabet s.alpha with
  | some f => simp
  | none => cases classify P s.alpha.length <;> simp [eq_comm (a := u)]

theorem ruleStPush_eq_ok {b : BitVec 32} {s u : State} :
    ruleStPush b s = .ok u ↔ s.str.length ≠ Config.sMax ∧ u = s.setStr (s.str ++ [b]) := by
  simp [ruleStPush, failIf_ok_iff, eq_comm (a := u)]

theorem ruleDmEncode_eq_ok {P : Params} {s u : State} :
    ruleDmEncode P s = .ok u ↔ ∃ x, checkIndex P s = .ok x ∧ s.str.length ≠ Config.sMax ∧
      u = (s.setStr (s.str ++ [s.alphaEntry x])).setRes (s.alphaEntry x) (word x) := by
  unfold ruleDmEncode
  cases checkIndex P s <;> simp [failIf_ok_iff, eq_comm (a := u)]

/-! ### What a success writes -/

/-- The writes of a successful command from state `s`, before it is completed: RES0 and RES1 alone, or a constructor for each command that
writes something else, with what its checks have established. -/
inductive Writes (P : Params) (s : State) : Instr → State → Prop where
  /-- R21, D28: the commands that compute a result and write nothing else. -/
  | results {i : Instr} (hi : writesRes i = true) (r0 r1 : Word) : Writes P s i (s.setRes r0 r1)
  /-- R145. -/
  | nop : Writes P s .nop s
  /-- R146. -/
  | clrstat : Writes P s .clrstat ((s.setStatus 0).setErrpos 0)
  /-- R85. -/
  | gfCfg {a : BitVec 16} (r0 r1 : Word) (h1 : 1 ≤ a.toNat) (h8 : a.toNat ≤ Config.dMax) :
      Writes P s (.gfCfg a) ((s.setGf ⟨true, a.toNat, P.irred a.toNat⟩).setRes r0 r1)
  /-- R104. -/
  | qgBuild {a : BitVec 16} {c : QgContext} (r0 r1 : Word) (hc : classify P a.toNat = .ok c) :
      Writes P s (.qgBuild a) (((s.setQg c).setDmValid false).setRes r0 r1)
  /-- R122. -/
  | alClr : Writes P s .alClr ((s.setAlpha []).setDmValid false)
  /-- R123. -/
  | alPush {b : BitVec 32} (h : s.alpha.length ≠ Config.nMax) :
      Writes P s (.alPush b) ((s.setAlpha (s.alpha ++ [b])).setDmValid false)
  /-- R126. -/
  | dmInit {c : QgContext} (r0 r1 : Word) (ha : checkAlphabet s.alpha = none) (hc : classify P s.alpha.length = .ok c) :
      Writes P s .dmInit (((s.setQg c).setDmValid true).setRes r0 r1)
  /-- R127. -/
  | stClr : Writes P s .stClr (s.setStr [])
  /-- R128. -/
  | stPush {b : BitVec 32} (h : s.str.length ≠ Config.sMax) : Writes P s (.stPush b) (s.setStr (s.str ++ [b]))
  /-- R133. -/
  | dmEncode (c r0 r1 : Word) (h : s.str.length ≠ Config.sMax) :
      Writes P s .dmEncode ((s.setStr (s.str ++ [c])).setRes r0 r1)

theorem Writes.of_writesResOnly {P : Params} {s u : State} {i : Instr} {r : Result} (hi : writesRes i = true)
    (hr : WritesResOnly s r) (h : r = .ok u) : Writes P s i u := by
  obtain ⟨r0, r1, rfl⟩ := hr u h
  exact .results hi r0 r1

/-- A command's rule succeeds only with the writes listed for the command. -/
theorem writes_of_commandRule {P : Params} {i : Instr} {s u : State} (h : commandRule P i s = .ok u) : Writes P s i u := by
  cases i with
  | nop => cases h; exact .nop
  | clrstat => cases h; exact .clrstat
  | gfCfg a => obtain ⟨h1, h8, rfl⟩ := ruleGfCfg_eq_ok.mp h; exact .gfCfg _ _ h1 h8
  | gfReduce b => exact .of_writesResOnly rfl (ruleGfReduce_writesResOnly b s) h
  | gfAdd a b => exact .of_writesResOnly rfl (ruleGfAdd_writesResOnly _ b s) h
  | gfMul a b => exact .of_writesResOnly rfl (ruleGfMul_writesResOnly _ b s) h
  | gfInv a => exact .of_writesResOnly rfl (ruleGfInv_writesResOnly _ s) h
  | gfDiv a b => exact .of_writesResOnly rfl (ruleGfDiv_writesResOnly _ b s) h
  | qgBuild a => obtain ⟨c, hc, rfl⟩ := ruleQgBuild_eq_ok.mp h; exact .qgBuild _ _ hc
  | qgMul a b => exact .of_writesResOnly rfl (ruleQgMul_writesResOnly P _ b s) h
  | qgInv a => exact .of_writesResOnly rfl (ruleQgInv_writesResOnly P _ s) h
  | alClr => cases h; exact .alClr
  | alPush b => obtain ⟨hl, rfl⟩ := ruleAlPush_eq_ok.mp h; exact .alPush hl
  | alRd a => exact .of_writesResOnly rfl (ruleAlRd_writesResOnly a s) h
  | dmInit => obtain ⟨ha, c, hc, rfl⟩ := ruleDmInit_eq_ok.mp h; exact .dmInit _ _ ha hc
  | stClr => cases h; exact .stClr
  | stPush b => obtain ⟨hl, rfl⟩ := ruleStPush_eq_ok.mp h; exact .stPush hl
  | stRd a => exact .of_writesResOnly rfl (ruleStRd_writesResOnly a s) h
  | dmProcess => exact .of_writesResOnly rfl (ruleDmProcess_writesResOnly P s) h
  | dmVerify => exact .of_writesResOnly rfl (ruleDmVerify_writesResOnly P s) h
  | dmCheck => exact .of_writesResOnly rfl (ruleDmCheck_writesResOnly P s) h
  | dmEncode => obtain ⟨x, -, hl, rfl⟩ := ruleDmEncode_eq_ok.mp h; exact .dmEncode _ _ _ hl
  | gfAddR b => exact .of_writesResOnly rfl (ruleGfAdd_writesResOnly _ b s) h
  | gfMulR b => exact .of_writesResOnly rfl (ruleGfMul_writesResOnly _ b s) h
  | gfInvR => exact .of_writesResOnly rfl (ruleGfInv_writesResOnly _ s) h
  | gfDivR b => exact .of_writesResOnly rfl (ruleGfDiv_writesResOnly _ b s) h
  | qgMulR b => exact .of_writesResOnly rfl (ruleQgMul_writesResOnly P _ b s) h
  | qgInvR => exact .of_writesResOnly rfl (ruleQgInv_writesResOnly P _ s) h

/-- What a command can do: make its writes and succeed, or fail and change STATUS and ERRPOS alone (R153). -/
theorem exec_cases {i : Instr} {s t : State} (h : exec i s = .next t) :
    (∃ u, Writes Config.params s i u ∧ t = succeed u) ∨
      ∃ f, commandRule Config.params i s = .error f ∧ t = raise f s := by
  rw [exec_eq_execute] at h
  exact (execute_cases h).imp_left fun ⟨u, hu, ht⟩ => ⟨u, writes_of_commandRule hu, ht⟩

/-! ### The frame of the writes -/

section
variable {P : Params} {s u : State} {i : Instr}

theorem Writes.host_eq (h : Writes P s i u) : u.hostMoves = s.hostMoves ∧ u.hostReplies = s.hostReplies := by
  cases h <;> exact ⟨rfl, rfl⟩

theorem Writes.gf_frame (h : Writes P s i u) : u.gf = s.gf ∨ ∃ a, i = .gfCfg a := by
  cases h with
  | gfCfg => exact .inr ⟨_, rfl⟩
  | _ => exact .inl rfl

theorem Writes.qg_frame (h : Writes P s i u) : u.qg = s.qg ∨ (∃ a, i = .qgBuild a) ∨ i = .dmInit := by
  cases h with
  | qgBuild => exact .inr (.inl ⟨_, rfl⟩)
  | dmInit => exact .inr (.inr rfl)
  | _ => exact .inl rfl

theorem Writes.alpha_frame (h : Writes P s i u) : u.alpha = s.alpha ∨ i = .alClr ∨ ∃ b, i = .alPush b := by
  cases h with
  | alClr => exact .inr (.inl rfl)
  | alPush => exact .inr (.inr ⟨_, rfl⟩)
  | _ => exact .inl rfl

theorem Writes.str_frame (h : Writes P s i u) : u.str = s.str ∨ i = .stClr ∨ (∃ b, i = .stPush b) ∨ i = .dmEncode := by
  cases h with
  | stClr => exact .inr (.inl rfl)
  | stPush => exact .inr (.inr (.inl ⟨_, rfl⟩))
  | dmEncode => exact .inr (.inr (.inr rfl))
  | _ => exact .inl rfl

/-- R29: QG.BUILD, AL.CLR and AL.PUSH clear DM_VALID, DM.INIT sets it. -/
theorem Writes.dmValid_frame (h : Writes P s i u) :
    u.dmValid = s.dmValid ∨ (u.dmValid = false ∧ ((∃ a, i = .qgBuild a) ∨ i = .alClr ∨ ∃ b, i = .alPush b)) ∨
      (u.dmValid = true ∧ i = .dmInit) := by
  cases h with
  | qgBuild => exact .inr (.inl ⟨rfl, .inl ⟨_, rfl⟩⟩)
  | alClr => exact .inr (.inl ⟨rfl, .inr (.inl rfl)⟩)
  | alPush => exact .inr (.inl ⟨rfl, .inr (.inr ⟨_, rfl⟩)⟩)
  | dmInit => exact .inr (.inr ⟨rfl, rfl⟩)
  | _ => exact .inl rfl

theorem Writes.res_frame (h : Writes P s i u) : (u.res0 = s.res0 ∧ u.res1 = s.res1) ∨ writesRes i = true := by
  cases h with
  | results hi => exact .inr hi
  | gfCfg | qgBuild | dmInit | dmEncode => exact .inr rfl
  | _ => exact .inl ⟨rfl, rfl⟩

theorem Writes.status_frame (h : Writes P s i u) : u.status = s.status ∨ i = .clrstat := by
  cases h with
  | clrstat => exact .inr rfl
  | _ => exact .inl rfl

end

@[simp] theorem statusSticky_statusOnSuccess (st : Word) : statusSticky (statusOnSuccess st) = statusSticky st :=
  statusSticky_statusWord _ _ _

@[simp] theorem statusSticky_statusOnFailure (f : Failure) : statusSticky (statusOnFailure f) = true :=
  statusSticky_statusWord _ _ _

/-- Settles O19: a failure leaves all but STATUS and ERRPOS, and a success has the frame of its writes. -/
theorem commandsTouchOnlyTheirState : Obligations.CommandsTouchOnlyTheirState := by
  intro i s t h
  obtain ⟨u, hw, rfl⟩ | ⟨f, -, rfl⟩ := exec_cases h
  · have hres : (u.res0 = s.res0 ∧ u.res1 = s.res1) ∨ (writesRes i = true ∧ statusCode (succeed u).status = 0) :=
      hw.res_frame.imp_right fun hi => ⟨hi, statusCode_statusWord _ _ _⟩
    have hsticky : statusSticky s.status = true → statusSticky (succeed u).status = true ∨ i = .clrstat := fun hs =>
      hw.status_frame.imp_left fun hst => by rw [succeed_status, statusSticky_statusOnSuccess, hst, hs]
    exact ⟨hw.host_eq.1, hw.host_eq.2, hw.gf_frame, hw.qg_frame, hw.alpha_frame, hw.str_frame, hw.dmValid_frame, hres, hsticky⟩
  · exact ⟨rfl, rfl, .inl rfl, .inl rfl, .inl rfl, .inl rfl, .inl rfl, .inl ⟨rfl, rfl⟩,
      fun _ => .inl (statusSticky_statusOnFailure f)⟩

/-! ### STATUS is not read (R33) -/

/-- A rule's result with STATUS cleared, to compare what a rule does from two values of STATUS. -/
def clearStatus (r : Result) : Result := r.map (·.setStatus 0)

@[simp] theorem clearStatus_ok (s : State) : clearStatus (.ok s) = .ok (s.setStatus 0) := rfl

@[simp] theorem clearStatus_error (f : Failure) : clearStatus (.error f) = .error f := rfl

@[simp] theorem clearStatus_failIf (c : Bool) (f : Failure) (k : Result) :
    clearStatus (failIf c f k) = failIf c f (clearStatus k) := by
  cases c <;> rfl

/-- The rule does the same whatever STATUS is before it. -/
def IgnoresStatus (rule : State → Result) : Prop := ∀ s st, clearStatus (rule (s.setStatus st)) = clearStatus (rule s)

@[simp] theorem opA_setStatus (src : Source) (s : State) (st : Word) : opA src (s.setStatus st) = opA src s := by
  cases src <;> rfl

@[simp] theorem folded_setStatus (P : Params) (s : State) (st : Word) : folded P (s.setStatus st) = folded P s := rfl

@[simp] theorem checkIndex_setStatus (P : Params) (s : State) (st : Word) :
    checkIndex P (s.setStatus st) = checkIndex P s := rfl

theorem ruleGfCfg_ignoresStatus (P : Params) (a : BitVec 16) : IgnoresStatus (ruleGfCfg P a) := fun s st => by
  simp only [ruleGfCfg, clearStatus_failIf, opA_setStatus]; rfl

theorem ruleGfReduce_ignoresStatus (b : BitVec 32) : IgnoresStatus (ruleGfReduce b) := fun s st => by
  simp only [ruleGfReduce, clearStatus_failIf]; rfl

theorem ruleGfAdd_ignoresStatus (src : Source) (b : BitVec 32) : IgnoresStatus (ruleGfAdd src b) := fun s st => by
  simp only [ruleGfAdd, clearStatus_failIf, opA_setStatus]; rfl

theorem ruleGfMul_ignoresStatus (src : Source) (b : BitVec 32) : IgnoresStatus (ruleGfMul src b) := fun s st => by
  simp only [ruleGfMul, clearStatus_failIf, opA_setStatus]; rfl

theorem ruleGfInv_ignoresStatus (src : Source) : IgnoresStatus (ruleGfInv src) := fun s st => by
  simp only [ruleGfInv, clearStatus_failIf, opA_setStatus, State.setStatus_gf]
  cases gfinv s.gf.deg s.gf.poly (opA src s) <;> rfl

theorem ruleGfDiv_ignoresStatus (src : Source) (b : BitVec 32) : IgnoresStatus (ruleGfDiv src b) := fun s st => by
  simp only [ruleGfDiv, clearStatus_failIf, opA_setStatus, State.setStatus_gf]
  cases gfinv s.gf.deg s.gf.poly (opB b) <;> rfl

theorem ruleQgBuild_ignoresStatus (P : Params) (a : BitVec 16) : IgnoresStatus (ruleQgBuild P a) := fun s st => by
  simp only [ruleQgBuild, opA_setStatus]
  cases classify P (opA (.field a) s) <;> rfl

theorem ruleQgMul_ignoresStatus (P : Params) (src : Source) (b : BitVec 32) : IgnoresStatus (ruleQgMul P src b) := fun s st => by
  simp only [ruleQgMul, clearStatus_failIf, opA_setStatus]; rfl

theorem ruleQgInv_ignoresStatus (P : Params) (src : Source) : IgnoresStatus (ruleQgInv P src) := fun s st => by
  simp only [ruleQgInv, clearStatus_failIf, opA_setStatus, State.setStatus_qg]
  cases linv P s.qg (opA src s) <;> rfl

theorem ruleAlPush_ignoresStatus (b : BitVec 32) : IgnoresStatus (ruleAlPush b) := fun s st => by
  simp only [ruleAlPush, clearStatus_failIf]; rfl

theorem ruleAlRd_ignoresStatus (a : BitVec 16) : IgnoresStatus (ruleAlRd a) := fun s st => by
  simp only [ruleAlRd, opA_setStatus, State.setStatus_alpha]
  cases s.alpha[opA (.field a) s]? <;> rfl

theorem ruleDmInit_ignoresStatus (P : Params) : IgnoresStatus (ruleDmInit P) := fun s st => by
  simp only [ruleDmInit, State.setStatus_alpha]
  cases checkAlphabet s.alpha with
  | some f => rfl
  | none => cases classify P s.alpha.length <;> rfl

theorem ruleStPush_ignoresStatus (b : BitVec 32) : IgnoresStatus (ruleStPush b) := fun s st => by
  simp only [ruleStPush, clearStatus_failIf]; rfl

theorem ruleStRd_ignoresStatus (a : BitVec 16) : IgnoresStatus (ruleStRd a) := fun s st => by
  simp only [ruleStRd, opA_setStatus, State.setStatus_str]
  cases s.str[opA (.field a) s]? <;> rfl

theorem ruleDmProcess_ignoresStatus (P : Params) : IgnoresStatus (ruleDmProcess P) := fun s st => by
  simp only [ruleDmProcess, folded_setStatus]
  cases folded P s <;> rfl

theorem ruleDmVerify_ignoresStatus (P : Params) : IgnoresStatus (ruleDmVerify P) := fun s st => by
  simp only [ruleDmVerify, folded_setStatus]
  cases folded P s <;> rfl

theorem ruleDmCheck_ignoresStatus (P : Params) : IgnoresStatus (ruleDmCheck P) := fun s st => by
  simp only [ruleDmCheck, checkIndex_setStatus]
  cases checkIndex P s <;> rfl

theorem ruleDmEncode_ignoresStatus (P : Params) : IgnoresStatus (ruleDmEncode P) := fun s st => by
  simp only [ruleDmEncode, checkIndex_setStatus]
  cases checkIndex P s with
  | error f => rfl
  | ok x => simp only [clearStatus_failIf]; rfl

/-- R33: no command's rule reads STATUS. -/
theorem commandRule_ignoresStatus (P : Params) (i : Instr) : IgnoresStatus (commandRule P i) := by
  cases i with
  | nop | clrstat | alClr | stClr => exact fun s st => rfl
  | gfCfg a => exact ruleGfCfg_ignoresStatus P a
  | gfReduce b => exact ruleGfReduce_ignoresStatus b
  | gfAdd a b => exact ruleGfAdd_ignoresStatus _ b
  | gfMul a b => exact ruleGfMul_ignoresStatus _ b
  | gfInv a => exact ruleGfInv_ignoresStatus _
  | gfDiv a b => exact ruleGfDiv_ignoresStatus _ b
  | qgBuild a => exact ruleQgBuild_ignoresStatus P a
  | qgMul a b => exact ruleQgMul_ignoresStatus P _ b
  | qgInv a => exact ruleQgInv_ignoresStatus P _
  | alPush b => exact ruleAlPush_ignoresStatus b
  | alRd a => exact ruleAlRd_ignoresStatus a
  | dmInit => exact ruleDmInit_ignoresStatus P
  | stPush b => exact ruleStPush_ignoresStatus b
  | stRd a => exact ruleStRd_ignoresStatus a
  | dmProcess => exact ruleDmProcess_ignoresStatus P
  | dmVerify => exact ruleDmVerify_ignoresStatus P
  | dmCheck => exact ruleDmCheck_ignoresStatus P
  | dmEncode => exact ruleDmEncode_ignoresStatus P
  | gfAddR b => exact ruleGfAdd_ignoresStatus _ b
  | gfMulR b => exact ruleGfMul_ignoresStatus _ b
  | gfInvR => exact ruleGfInv_ignoresStatus _
  | gfDivR b => exact ruleGfDiv_ignoresStatus _ b
  | qgMulR b => exact ruleQgMul_ignoresStatus P _ b
  | qgInvR => exact ruleQgInv_ignoresStatus P _

/-- Two results that agree but for STATUS are both failures with one error, or successes that agree but for STATUS. -/
theorem clearStatus_eq_cases {r r' : Result} (h : clearStatus r' = clearStatus r) :
    (∃ f, r = .error f ∧ r' = .error f) ∨ ∃ u u', r = .ok u ∧ r' = .ok u' ∧ u'.setStatus 0 = u.setStatus 0 := by
  cases r with
  | error f =>
    cases r' with
    | error f' => exact .inl ⟨f, rfl, by simpa using h⟩
    | ok u' => simp at h
  | ok u =>
    cases r' with
    | error f' => simp at h
    | ok u' => exact .inr ⟨u, u', rfl, rfl, by simpa using h⟩

/-- Settles O18: the two runs of the command's rule fail with one error, or succeed and agree but for STATUS. -/
theorem commandsIgnoreStatus : Obligations.CommandsIgnoreStatus := by
  intro i s st
  refine ⟨_, _, exec_eq_execute i s, exec_eq_execute i (s.setStatus st), ?_⟩
  obtain ⟨f, hr, hr'⟩ | ⟨u, u', hr, hr', hu⟩ := clearStatus_eq_cases (commandRule_ignoresStatus Config.params i s st)
  · rw [hr, hr']
    exact ⟨rfl, rfl, rfl⟩
  · rw [hr, hr']
    simp only [complete_ok, succeed_status, statusOnSuccess, statusCode_statusWord, statusDetail_statusWord, true_and]
    exact hu

/-! ### What the moves of the host do -/

theorem step_idle {s : State} (h : s.hostMoves = []) : step s = .next s := by
  simp [step, nextMove, h]

theorem step_read {s : State} {a : BitVec 8} {rest : List HostMove} (h : s.hostMoves = .read a :: rest) :
    step s = .next (hostRead a (s.setMoves rest)) := by
  simp [step, nextMove, h, deliver]

theorem step_reset {s : State} {lost : List Command} {rest : List HostMove} (h : s.hostMoves = .reset lost :: rest) :
    step s = .next (hostReset (s.setMoves rest)) := by
  simp [step, nextMove, h, deliver]

/-- A word is a command that is executed, or is no command and fails. -/
theorem execWord_cases {w : Command} {s t : State} (h : execWord w s = .next t) :
    (∃ i, exec i s = .next t) ∨ ∃ f, t = raise f s := by
  unfold execWord at h
  cases hd : decode w with
  | ok i => rw [hd] at h; exact .inl ⟨i, h⟩
  | error e => rw [hd] at h; cases h; exact .inr ⟨_, rfl⟩

theorem sameBlock_setMoves (s : State) (l : List HostMove) : SameBlock s (s.setMoves l) := by simp [SameBlock]

theorem sameBlock_hostRead (a : BitVec 8) (s : State) : SameBlock s (hostRead a s) := by simp [SameBlock, hostRead]

theorem sameBlock_hostReset (s : State) : SameBlock State.reset (hostReset s) := by simp [SameBlock, hostReset]

/-- Settles O4: a reset move gives the reset state but for the host's side, and R34's table is its definition. -/
theorem resetGivesTableValues : Obligations.ResetGivesTableValues :=
  ⟨fun s _ rest h => ⟨_, step_reset h, sameBlock_hostReset (s.setMoves rest)⟩, rfl, rfl, rfl, rfl, rfl, rfl, rfl, rfl, rfl⟩

/-! ### The invariants under a command (R30) -/

theorem statusWellFormed_zero : StatusWellFormed 0 := by unfold StatusWellFormed; decide

theorem statusWellFormed_statusWord {k : Bool} {d : BitVec 8} {c : BitVec 4} (h9 : c.toNat ≤ 9) (h0 : c = 0 → d = 0)
    (hk : c ≠ 0 → k = true) : StatusWellFormed (statusWord k d c) := by
  simpa [StatusWellFormed] using ⟨h9, h0, hk⟩

theorem statusWellFormed_onSuccess (st : Word) : StatusWellFormed (statusOnSuccess st) :=
  statusWellFormed_statusWord (by decide) (fun _ => rfl) (fun h => absurd rfl h)

/-- R152: the code of a failure is 1 to 9. -/
theorem ErrorKind.code_range (k : ErrorKind) : k.code ≠ 0 ∧ k.code.toNat ≤ 9 := by cases k <;> decide

theorem statusWellFormed_onFailure (f : Failure) : StatusWellFormed (statusOnFailure f) :=
  statusWellFormed_statusWord f.kind.code_range.2 (fun h => absurd h f.kind.code_range.1) (fun _ => rfl)

/-- R26: what the dispatch returns is a well-formed context. -/
theorem classify_wellFormed {P : Params} {n : Nat} {c : QgContext} (h : classify P n = .ok c) : c.WellFormed P := by
  obtain ⟨hv, ho⟩ := classify_valid_order h
  rw [QgContext.WellFormed, if_pos hv, ho, h]

section
variable {P : Params} {s u : State} {i : Instr}

theorem Writes.gf_wellFormed (h : Writes P s i u) (hs : s.gf.WellFormed P) : u.gf.WellFormed P := by
  cases h with
  | gfCfg r0 r1 h1 h8 => exact ⟨h1, h8, rfl⟩
  | _ => exact hs

theorem Writes.qg_wellFormed (h : Writes P s i u) (hs : s.qg.WellFormed P) : u.qg.WellFormed P := by
  cases h with
  | qgBuild r0 r1 hc => exact classify_wellFormed hc
  | dmInit r0 r1 ha hc => exact classify_wellFormed hc
  | _ => exact hs

/-- R29: DM.INIT sets DM_VALID after its checks, and what could break the pairing clears it. -/
theorem Writes.codec_wellFormed (h : Writes P s i u) (hs : s.CodecWellFormed) : u.CodecWellFormed := by
  cases h with
  | qgBuild | alClr | alPush => exact fun hv => nomatch hv
  | dmInit r0 r1 ha hc =>
    obtain ⟨hchar, hnodup⟩ := checkAlphabet_eq_none.mp ha
    obtain ⟨hv, ho⟩ := classify_valid_order hc
    exact fun _ => ⟨hv, ho, hnodup, hchar⟩
  | _ => exact hs

/-- One entry more fits a list that is not full. -/
theorem length_append_one_le {l : List Word} {c : Word} {max : Nat} (hl : l.length ≤ max) (h : l.length ≠ max) :
    (l ++ [c]).length ≤ max := by
  rw [List.length_append, List.length_singleton]
  omega

theorem Writes.alpha_length_le (h : Writes P s i u) (hs : s.alpha.length ≤ Config.nMax) : u.alpha.length ≤ Config.nMax := by
  cases h with
  | alClr => exact Nat.zero_le _
  | alPush h => exact length_append_one_le hs h
  | _ => exact hs

theorem Writes.str_length_le (h : Writes P s i u) (hs : s.str.length ≤ Config.sMax) : u.str.length ≤ Config.sMax := by
  cases h with
  | stClr => exact Nat.zero_le _
  | stPush h => exact length_append_one_le hs h
  | dmEncode c r0 r1 h => exact length_append_one_le hs h
  | _ => exact hs

theorem Writes.succeed_wellFormed (h : Writes P s i u) (hs : s.WellFormed P) : (succeed u).WellFormed P where
  status := statusWellFormed_onSuccess u.status
  gf := h.gf_wellFormed hs.gf
  qg := h.qg_wellFormed hs.qg
  codec := h.codec_wellFormed hs.codec
  alpha := h.alpha_length_le hs.alpha
  str := h.str_length_le hs.str

end

theorem raise_wellFormed {P : Params} {s : State} (f : Failure) (hs : s.WellFormed P) : (raise f s).WellFormed P where
  status := statusWellFormed_onFailure f
  gf := hs.gf
  qg := hs.qg
  codec := hs.codec
  alpha := hs.alpha
  str := hs.str

/-- R30: no command breaks the invariants. -/
theorem exec_wellFormed {i : Instr} {s t : State} (hs : s.WellFormed Config.params) (h : exec i s = .next t) :
    t.WellFormed Config.params := by
  obtain ⟨u, hw, rfl⟩ | ⟨f, -, rfl⟩ := exec_cases h
  · exact hw.succeed_wellFormed hs
  · exact raise_wellFormed f hs

theorem execWord_wellFormed {w : Command} {s t : State} (hs : s.WellFormed Config.params) (h : execWord w s = .next t) :
    t.WellFormed Config.params := by
  obtain ⟨i, hi⟩ | ⟨f, rfl⟩ := execWord_cases h
  · exact exec_wellFormed hs hi
  · exact raise_wellFormed f hs

/-! ### The invariants along a run (R30) -/

/-- The invariants are about the block's state alone. -/
theorem SameBlock.wellFormed {P : Params} {s t : State} (h : SameBlock s t) (hs : s.WellFormed P) : t.WellFormed P := by
  obtain ⟨hstatus, -, -, -, hgf, hqg, halpha, hstr, hdm⟩ := h
  exact {
    status := hstatus ▸ hs.status
    gf := hgf ▸ hs.gf
    qg := hqg ▸ hs.qg
    codec := by simpa only [State.CodecWellFormed, hdm, hqg, halpha] using hs.codec
    alpha := halpha ▸ hs.alpha
    str := hstr ▸ hs.str }

theorem reset_wellFormed (P : Params) : State.reset.WellFormed P where
  status := statusWellFormed_zero
  gf := ⟨rfl, rfl⟩
  qg := ⟨rfl, rfl, rfl, rfl, rfl⟩
  codec := fun h => nomatch h
  alpha := Nat.zero_le _
  str := Nat.zero_le _

/-- Settles O59: the reset state satisfies the invariants, and they do not speak of the host's moves. -/
theorem resetIsWellFormed : Obligations.ResetIsWellFormed :=
  fun P moves => (sameBlock_setMoves State.reset moves).wellFormed (reset_wellFormed P)

/-- Settles O58: by the host's next move. A command keeps each invariant by what it writes, a read and an idle step change nothing of the
block, and a reset gives the reset state. -/
theorem stepKeepsWellFormed : Obligations.StepKeepsWellFormed := by
  intro s t hs h
  cases hm : s.hostMoves with
  | nil =>
    cases (step_idle hm).symm.trans h
    exact hs
  | cons m rest =>
    have hs' : (s.setMoves rest).WellFormed Config.params := (sameBlock_setMoves s rest).wellFormed hs
    cases m with
    | command w => exact execWord_wellFormed hs' ((step_command hm).symm.trans h)
    | read a =>
      cases (step_read hm).symm.trans h
      exact (sameBlock_hostRead a _).wellFormed hs'
    | reset lost =>
      cases (step_reset hm).symm.trans h
      exact (sameBlock_hostReset _).wellFormed (reset_wellFormed _)

/-- Settles O60: by induction on the run, from the reset state (O59) by steps that keep the invariants (O58). -/
theorem reachableStatesAreWellFormed : Obligations.ReachableStatesAreWellFormed := by
  intro s h
  induction h with
  | start moves => exact resetIsWellFormed Config.params moves
  | step _ hstep ih => exact stepKeepsWellFormed _ _ ih hstep

end Sys2Proof.Machine
end

section
/-!
SUPPORT. The two ports (20_memory.md): a command word as one step (R41), what each register reads as a number (R42), the unmapped
addresses (R43), and that reads change nothing of the block (R44). Family 20_memory.md.
-/

namespace Sys2Proof.Machine

/-! ### Command words (R41) -/

theorem execWord_of_decode {w : Command} {i : Instr} (h : decode w = .ok i) (s : State) : execWord w s = exec i s := by
  simp [execWord, h]

/-- Settles O1: the step is the decoded word's `exec`; `setMoves` is the update the statement writes out. -/
theorem stepRunsDecodedCommand : Obligations.StepRunsDecodedCommand :=
  fun s _ rest _ hm hd _ => (step_command hm).trans (execWord_of_decode hd (s.setMoves rest))

/-! ### Reads (R43, R44) -/

theorem readReg_unmapped {a : BitVec 8} (s : State) (h : 0x10 ≤ a.toNat) : readReg s a = 0 := by
  unfold readReg
  split
  case h_17 => rfl
  all_goals exact absurd h (by decide)

theorem SameBlock.trans {s t u : State} (hst : SameBlock s t) (htu : SameBlock t u) : SameBlock s u := by
  obtain ⟨hstatus, hres0, hres1, herrpos, hgf, hqg, halpha, hstr, hdm⟩ := hst
  obtain ⟨hstatus', hres0', hres1', herrpos', hgf', hqg', halpha', hstr', hdm'⟩ := htu
  exact ⟨hstatus'.trans hstatus, hres0'.trans hres0, hres1'.trans hres1, herrpos'.trans herrpos, hgf'.trans hgf,
    hqg'.trans hqg, halpha'.trans halpha, hstr'.trans hstr, hdm'.trans hdm⟩

/-- R42: a read gives a function of the block's state alone. -/
theorem SameBlock.readReg_eq {s t : State} (h : SameBlock s t) : readReg t = readReg s := by
  obtain ⟨hstatus, hres0, hres1, herrpos, hgf, hqg, halpha, hstr, hdm⟩ := h
  funext a
  simp only [readReg, hstatus, hres0, hres1, herrpos, hgf, hqg, halpha, hstr, hdm]

/-- R44: one read takes its move, keeps the block's state and gives the register's value. -/
theorem step_read_frame {s : State} {a : BitVec 8} {rest : List HostMove} (h : s.hostMoves = .read a :: rest) :
    ∃ t, step s = .next t ∧ SameBlock s t ∧ t.hostMoves = rest ∧ t.hostReplies = s.hostReplies ++ [readReg s a] := by
  have hmove := sameBlock_setMoves s rest
  refine ⟨_, step_read h, hmove.trans (sameBlock_hostRead a _), rfl, ?_⟩
  rw [hostRead, hmove.readReg_eq, State.setReplies_hostReplies, State.setMoves_hostReplies]

/-- Settles O7: no case of the read map is at 0x10 or above, and a read keeps the block's state. -/
theorem unmappedReadsGiveZero : Obligations.UnmappedReadsGiveZero := by
  intro s a rest ha hm
  obtain ⟨t, hstep, ⟨hstatus, -, -, herrpos, -⟩, -⟩ := step_read_frame hm
  exact ⟨readReg_unmapped s ha, t, hstep, hstatus, herrpos⟩

/-- Settles O3: by induction on the reads. The first keeps the block's state, so the others read the same map. -/
theorem readsChangeNothing : Obligations.ReadsChangeNothing := by
  intro reads
  induction reads with
  | nil => exact fun s rest hm => ⟨s, rfl, by simp [SameBlock], hm, by simp⟩
  | cons a reads ih =>
    intro s rest hm
    obtain ⟨u, hstep, hsu, hmoves, hreply⟩ := step_read_frame hm
    obtain ⟨t, hrun, hut, hrest, hreplies⟩ := ih u rest hmoves
    refine ⟨t, (runMoves_succ hstep).trans hrun, hsu.trans hut, hrest, ?_⟩
    rw [hreplies, hreply, hsu.readReg_eq, List.append_assoc]
    rfl

/-! ### The registers made of fields (R42) -/

theorem word_toNat_of_lt {n : Nat} (h : n < 2 ^ 32) : (word n).toNat = n := by
  rw [BitVec.toNat_ofNat, Nat.mod_eq_of_lt h]

theorem readReg_gfContext_toNat {s : State} (hdeg : s.gf.deg < 2 ^ 8) :
    (readReg s 0x08#8).toNat = s.gf.valid.toNat + 2 ^ 8 * s.gf.deg := by
  simp only [readReg, toNat_append_eq_add, BitVec.toNat_ofBool, BitVec.toNat_ofNat]
  omega

/-- The strategy's code fits its three bits. -/
theorem Strategy.code_le (c : Strategy) : c.code ≤ 4 := by cases c <;> decide

theorem readReg_qgContext_toNat {s : State} (hdeg : s.qg.deg < 2 ^ 8) (horder : s.qg.order < 2 ^ 16) :
    (readReg s 0x0A#8).toNat =
      s.qg.valid.toNat + 2 * s.qg.strat.code + 2 ^ 8 * s.qg.deg + 2 ^ 16 * s.qg.order := by
  have hcode := s.qg.strat.code_le
  simp only [readReg, toNat_append_eq_add, BitVec.toNat_ofBool, BitVec.toNat_ofNat]
  omega

theorem readReg_dmValid_toNat (s : State) : (readReg s 0x0D#8).toNat = s.dmValid.toNat := by
  simp only [readReg, toNat_append_eq_add, BitVec.toNat_ofBool, BitVec.toNat_ofNat]
  omega

/-- R23: a legal STATUS has no bits but its fields', so the read gives the register itself. -/
theorem readReg_status {s : State} (h : StatusWellFormed s.status) : readReg s 0x04#8 = s.status := by
  obtain ⟨hfields, -⟩ := h
  exact hfields.symm

/-! ### What the invariants say of the sizes (R25, R26) -/

/-- R7: an irreducible polynomial of degree up to D_MAX has at most nine bits. -/
theorem irred_lt (P : Params) {d : Nat} (h1 : 1 ≤ d) (h8 : d ≤ 8) : P.irred d < 2 ^ 9 := by
  obtain ⟨-, htop, -⟩ := P.irred_admissible d h1 h8
  exact htop.trans_le (Nat.pow_le_pow_right (by decide) (by omega))

theorem GfContext.WellFormed.bounds {P : Params} {c : GfContext} (h : c.WellFormed P) : c.deg ≤ 8 ∧ c.poly < 2 ^ 9 := by
  unfold GfContext.WellFormed at h
  split at h
  · obtain ⟨h1, h8, hpoly⟩ := h
    exact ⟨h8, hpoly ▸ irred_lt P h1 h8⟩
  · obtain ⟨hdeg, hpoly⟩ := h
    omega

/-- R100: the sizes of every context the dispatch builds. -/
theorem classify_bounds {P : Params} {n : Nat} {c : QgContext} (h : classify P n = .ok c) :
    c.order ≤ 256 ∧ c.deg ≤ 8 ∧ c.m ≤ 256 ∧ c.poly < 2 ^ 9 := by
  obtain ⟨-, hn, hc⟩ := classify_eq_ok h
  obtain ⟨-, rfl⟩ | ⟨-, rfl⟩ | ⟨d, h2, h8, -, rfl⟩ | ⟨d, m, h2, h8, -, -, hnm, rfl⟩ := hc
  · exact ⟨hn, Nat.zero_le _, Nat.zero_le _, Nat.two_pow_pos 9⟩
  · exact ⟨hn, Nat.zero_le _, hn, Nat.two_pow_pos 9⟩
  · exact ⟨hn, h8, show 1 ≤ 256 by decide, irred_lt P (by omega) h8⟩
  · have hm : m ≤ 256 := (Nat.le_mul_of_pos_left m (Nat.two_pow_pos d)).trans (hnm ▸ hn)
    exact ⟨hn, h8, hm, irred_lt P (by omega) h8⟩

theorem QgContext.WellFormed.bounds {P : Params} {c : QgContext} (h : c.WellFormed P) :
    c.order ≤ 256 ∧ c.deg ≤ 8 ∧ c.m ≤ 256 ∧ c.poly < 2 ^ 9 := by
  unfold QgContext.WellFormed at h
  split at h
  · exact classify_bounds h
  · obtain ⟨-, horder, hdeg, hm, hpoly⟩ := h
    omega

/-- Settles O6: a well-formed state's fields fit their bits of the registers, so that each register is the number they make. -/
theorem registerReadMap : Obligations.RegisterReadMap := by
  intro P s hs
  obtain ⟨hgdeg, hgpoly⟩ := hs.gf.bounds
  obtain ⟨hqorder, hqdeg, hqm, hqpoly⟩ := hs.qg.bounds
  have halpha : s.alpha.length ≤ 256 := hs.alpha
  have hstr : s.str.length ≤ 256 := hs.str
  exact ⟨rfl, rfl, rfl, rfl, readReg_status hs.status, rfl, rfl, rfl,
    readReg_gfContext_toNat (by omega), word_toNat_of_lt (by omega),
    readReg_qgContext_toNat (by omega) (by omega), word_toNat_of_lt (by omega), word_toNat_of_lt (by omega),
    readReg_dmValid_toNat s, word_toNat_of_lt (by omega), word_toNat_of_lt (by omega)⟩

end Sys2Proof.Machine
end

section
/-!
SUPPORT. The command word (30_encoding.md): its five fields as numbers (R61), the decoder's answers said once in terms of its three checks
(R65 to R68) and of the operand fields a command reads (R73), the round trips of the encoder (R64, R71) and of the assembler (R71), and
what an illegal word does. Family 30_encoding.md.
-/

namespace Sys2Proof

/-! ### The fields of a word (R61) -/

theorem Fields.ofWord_op_toNat (w : Command) : (Fields.ofWord w).op.toNat = w.toNat / 2 ^ 56 := by
  rw [Fields.ofWord, BitVec.extractLsb'_toNat, Nat.shiftRight_eq_div_pow]
  have := w.isLt
  omega

theorem Fields.ofWord_rsv_toNat (w : Command) : (Fields.ofWord w).rsv.toNat = w.toNat / 2 ^ 49 % 2 ^ 7 := by
  rw [Fields.ofWord, BitVec.extractLsb'_toNat, Nat.shiftRight_eq_div_pow]

theorem Fields.ofWord_sa_toNat (w : Command) : (Fields.ofWord w).sa.toNat = w.toNat / 2 ^ 48 % 2 := by
  rw [Fields.ofWord, BitVec.getLsbD, Nat.toNat_testBit]

theorem Fields.ofWord_a_toNat (w : Command) : (Fields.ofWord w).a.toNat = w.toNat / 2 ^ 32 % 2 ^ 16 := by
  rw [Fields.ofWord, BitVec.extractLsb'_toNat, Nat.shiftRight_eq_div_pow]

theorem Fields.ofWord_b_toNat (w : Command) : (Fields.ofWord w).b.toNat = w.toNat % 2 ^ 32 := by
  rw [Fields.ofWord, BitVec.extractLsb'_toNat, Nat.shiftRight_zero]

theorem Fields.toWord_toNat (f : Fields) :
    f.toWord.toNat = 2 ^ 56 * f.op.toNat + 2 ^ 49 * f.rsv.toNat + 2 ^ 48 * f.sa.toNat + 2 ^ 32 * f.a.toNat + f.b.toNat := by
  simp only [Fields.toWord, Machine.toNat_append_eq_add, BitVec.toNat_ofBool]
  omega

/-- Two records are equal when their fields are equal as numbers. -/
theorem Fields.eq_of_toNat_eq {f g : Fields} (hop : f.op.toNat = g.op.toNat) (hrsv : f.rsv.toNat = g.rsv.toNat)
    (hsa : f.sa.toNat = g.sa.toNat) (ha : f.a.toNat = g.a.toNat) (hb : f.b.toNat = g.b.toNat) : f = g := by
  have hsa' : f.sa = g.sa := by rw [Bool.eq_iff_iff, ← Bool.toNat_eq_one, hsa, Bool.toNat_eq_one]
  cases f
  cases g
  rw [Fields.mk.injEq]
  exact ⟨BitVec.eq_of_toNat_eq hop, BitVec.eq_of_toNat_eq hrsv, hsa', BitVec.eq_of_toNat_eq ha,
    BitVec.eq_of_toNat_eq hb⟩

/-- R61: together the fields cover all 64 bits. -/
@[simp] theorem Fields.toWord_ofWord (w : Command) : (Fields.ofWord w).toWord = w := by
  apply BitVec.eq_of_toNat_eq
  rw [Fields.toWord_toNat, Fields.ofWord_op_toNat, Fields.ofWord_rsv_toNat, Fields.ofWord_sa_toNat, Fields.ofWord_a_toNat,
    Fields.ofWord_b_toNat]
  omega

/-- R61: no field overlaps another. -/
@[simp] theorem Fields.ofWord_toWord (f : Fields) : Fields.ofWord f.toWord = f := by
  have hrsv := f.rsv.isLt
  have hsa := f.sa.toNat_lt
  have ha := f.a.isLt
  have hb := f.b.isLt
  apply Fields.eq_of_toNat_eq
  · rw [Fields.ofWord_op_toNat, Fields.toWord_toNat]; omega
  · rw [Fields.ofWord_rsv_toNat, Fields.toWord_toNat]; omega
  · rw [Fields.ofWord_sa_toNat, Fields.toWord_toNat]; omega
  · rw [Fields.ofWord_a_toNat, Fields.toWord_toNat]; omega
  · rw [Fields.ofWord_b_toNat, Fields.toWord_toNat]; omega

/-- Settles O8: each field as a quotient and remainder of the word, and both directions of the tiling. -/
theorem fieldsTileTheWord : Obligations.FieldsTileTheWord :=
  ⟨fun w => ⟨Fields.ofWord_op_toNat w, Fields.ofWord_rsv_toNat w, Fields.ofWord_sa_toNat w, Fields.ofWord_a_toNat w,
    Fields.ofWord_b_toNat w, Fields.toWord_ofWord w⟩, Fields.ofWord_toWord⟩

/-! ### The round trip (R64, R71) -/

/-- The laws made per instruction, for every command. -/
theorem fieldCoding (i : Instr) : Laws.FieldCoding.Statement i := by
  cases i with
  | nop => exact Laws.FieldCoding.nop
  | clrstat => exact Laws.FieldCoding.clrstat
  | gfCfg a => exact Laws.FieldCoding.gfCfg a
  | gfReduce b => exact Laws.FieldCoding.gfReduce b
  | gfAdd a b => exact Laws.FieldCoding.gfAdd a b
  | gfMul a b => exact Laws.FieldCoding.gfMul a b
  | gfInv a => exact Laws.FieldCoding.gfInv a
  | gfDiv a b => exact Laws.FieldCoding.gfDiv a b
  | qgBuild a => exact Laws.FieldCoding.qgBuild a
  | qgMul a b => exact Laws.FieldCoding.qgMul a b
  | qgInv a => exact Laws.FieldCoding.qgInv a
  | alClr => exact Laws.FieldCoding.alClr
  | alPush b => exact Laws.FieldCoding.alPush b
  | alRd a => exact Laws.FieldCoding.alRd a
  | dmInit => exact Laws.FieldCoding.dmInit
  | stClr => exact Laws.FieldCoding.stClr
  | stPush b => exact Laws.FieldCoding.stPush b
  | stRd a => exact Laws.FieldCoding.stRd a
  | dmProcess => exact Laws.FieldCoding.dmProcess
  | dmVerify => exact Laws.FieldCoding.dmVerify
  | dmCheck => exact Laws.FieldCoding.dmCheck
  | dmEncode => exact Laws.FieldCoding.dmEncode
  | gfAddR b => exact Laws.FieldCoding.gfAddR b
  | gfMulR b => exact Laws.FieldCoding.gfMulR b
  | gfInvR => exact Laws.FieldCoding.gfInvR
  | gfDivR b => exact Laws.FieldCoding.gfDivR b
  | qgMulR b => exact Laws.FieldCoding.qgMulR b
  | qgInvR => exact Laws.FieldCoding.qgInvR

theorem decodeFields_encodeFields (i : Instr) : decodeFields (encodeFields i) = .ok i := by
  obtain ⟨-, hdecode⟩ := fieldCoding i
  exact hdecode

/-- Settles O9: the word's fields are the encoder's (R61), and those decode to the command. -/
theorem decodeEncodeRoundTrip : Obligations.DecodeEncodeRoundTrip := by
  intro i
  rw [decode, encode, Fields.ofWord_toWord, decodeFields_encodeFields]

/-! ### The opcode map and what is reserved (R64, R65, R67) -/

/-- R65: the reserved OP values, as numbers. -/
theorem Fields.opReserved_iff (f : Fields) : f.opReserved = true ↔
    f.op.toNat = 0x00 ∨ (0x03 ≤ f.op.toNat ∧ f.op.toNat ≤ 0x0F) ∨ (0x16 ≤ f.op.toNat ∧ f.op.toNat ≤ 0x1F) ∨
      (0x23 ≤ f.op.toNat ∧ f.op.toNat ≤ 0x2F) ∨ 0x3B ≤ f.op.toNat := by
  simp [Fields.opReserved, or_assoc]

theorem Fields.rsvZero_iff (f : Fields) : f.rsvZero = true ↔ f.rsv = 0 := beq_iff_eq

/-- R67: the SA check fails exactly for SA = 1 on an OP that is not in its list. -/
theorem Fields.saLegal_eq_false_iff (f : Fields) :
    f.saLegal = false ↔ f.sa = true ∧ f.op.toNat ∉ [0x12, 0x13, 0x14, 0x15, 0x21, 0x22] := by
  simp [Fields.saLegal]

/-- R64, R65: the opcode map has no command exactly for the reserved OP values. -/
theorem baseInstr_eq_none_iff (f : Fields) : baseInstr f.op f.a f.b = none ↔ f.opReserved = true := by
  rw [Fields.opReserved_iff]
  unfold baseInstr
  split
  case h_23 =>
    refine iff_of_true rfl ?_
    simp only [imp_false, ← BitVec.toNat_inj, BitVec.toNat_ofNat] at *
    omega
  all_goals simp [*]

/-- R64, R67: the opcode map has no chained command exactly for the OP values outside R67's list. -/
theorem chainedInstr_eq_none_iff (op : BitVec 8) (b : BitVec 32) :
    chainedInstr op b = none ↔ op.toNat ∉ [0x12, 0x13, 0x14, 0x15, 0x21, 0x22] := by
  unfold chainedInstr
  split
  case h_7 =>
    simp only [imp_false, ← BitVec.toNat_inj, BitVec.toNat_ofNat] at *
    simp [*]
  all_goals simp

section
variable {f : Fields} {i : Instr}

theorem exists_baseInstr (hop : f.opReserved = false) : ∃ i, baseInstr f.op f.a f.b = some i := by
  rw [← Option.ne_none_iff_exists', Ne, baseInstr_eq_none_iff, hop]
  exact Bool.false_ne_true

/-- R67's list holds no reserved OP. -/
theorem opReserved_of_chainedInstr (h : chainedInstr f.op f.b = some i) : f.opReserved = false := by
  have hmem : f.op.toNat ∈ [0x12, 0x13, 0x14, 0x15, 0x21, 0x22] := by
    by_contra hnot
    rw [(chainedInstr_eq_none_iff f.op f.b).mpr hnot] at h
    cases h
  rw [← Bool.not_eq_true, Fields.opReserved_iff]
  simp only [List.mem_cons, List.not_mem_nil, or_false] at hmem
  omega

/-! ### The decoder's three checks (R68) -/

theorem decodeFields_reservedOp (hop : f.opReserved = true) : decodeFields f = .error .reservedOp := by
  rw [decodeFields, (baseInstr_eq_none_iff f).mpr hop]

theorem decodeFields_reservedBits (hop : f.opReserved = false) (hrsv : f.rsvZero = false) :
    decodeFields f = .error .reservedBits := by
  obtain ⟨i, hi⟩ := exists_baseInstr hop
  rw [decodeFields, hi]
  exact if_pos (beq_eq_false_iff_ne.mp hrsv)

theorem decodeFields_base (hrsv : f.rsvZero = true) (hsa : f.sa = false) (h : baseInstr f.op f.a f.b = some i) :
    decodeFields f = .ok i := by
  simp [decodeFields, h, hsa, f.rsvZero_iff.mp hrsv]

theorem decodeFields_chained (hop : f.opReserved = false) (hrsv : f.rsvZero = true) (hsa : f.sa = true) :
    decodeFields f = (chainedInstr f.op f.b).elim (.error .saNotAllowed) .ok := by
  obtain ⟨i, hi⟩ := exists_baseInstr hop
  cases hc : chainedInstr f.op f.b <;> simp [decodeFields, hi, hsa, hc, f.rsvZero_iff.mp hrsv]

theorem decodeFields_saNotAllowed (hop : f.opReserved = false) (hrsv : f.rsvZero = true) (hsa : f.saLegal = false) :
    decodeFields f = .error .saNotAllowed := by
  obtain ⟨hset, hmem⟩ := f.saLegal_eq_false_iff.mp hsa
  rw [decodeFields_chained hop hrsv hset, (chainedInstr_eq_none_iff f.op f.b).mpr hmem, Option.elim_none]

/-- What the decoder accepts: RSV = 0, and the command that OP selects for the value of SA. -/
theorem decodeFields_eq_ok_iff : decodeFields f = .ok i ↔ f.rsvZero = true ∧
    ((f.sa = false ∧ baseInstr f.op f.a f.b = some i) ∨ (f.sa = true ∧ chainedInstr f.op f.b = some i)) := by
  constructor
  · intro h
    cases hop : f.opReserved with
    | true => simp [decodeFields_reservedOp hop] at h
    | false =>
      cases hrsv : f.rsvZero with
      | false => simp [decodeFields_reservedBits hop hrsv] at h
      | true =>
        cases hsa : f.sa with
        | false =>
          obtain ⟨j, hj⟩ := exists_baseInstr hop
          rw [decodeFields_base hrsv hsa hj] at h
          cases h
          exact ⟨rfl, .inl ⟨rfl, hj⟩⟩
        | true =>
          rw [decodeFields_chained hop hrsv hsa] at h
          cases hc : chainedInstr f.op f.b with
          | none => simp [hc] at h
          | some j => simpa [hc] using h
  · rintro ⟨hrsv, ⟨hsa, hbase⟩ | ⟨hsa, hchained⟩⟩
    · exact decodeFields_base hrsv hsa hbase
    · rw [decodeFields_chained (opReserved_of_chainedInstr hchained) hrsv hsa, hchained, Option.elim_some]

theorem exists_decodeFields (h : f.wellFormed = true) : ∃ i, decodeFields f = .ok i := by
  obtain ⟨⟨hop, hrsv⟩, hlegal⟩ : (f.opReserved = false ∧ f.rsvZero = true) ∧ f.saLegal = true := by
    simpa [Fields.wellFormed] using h
  cases hsa : f.sa with
  | false =>
    obtain ⟨i, hi⟩ := exists_baseInstr hop
    exact ⟨i, decodeFields_base hrsv hsa hi⟩
  | true =>
    cases hc : chainedInstr f.op f.b with
    | some i => exact ⟨i, decodeFields_eq_ok_iff.mpr ⟨hrsv, .inr ⟨hsa, hc⟩⟩⟩
    | none =>
      have hillegal := f.saLegal_eq_false_iff.mpr ⟨hsa, (chainedInstr_eq_none_iff _ _).mp hc⟩
      exact absurd (hlegal.symm.trans hillegal) (by decide)

end

/-- Settles O11: the three checks in their order, and that nothing else makes the decoder refuse. -/
theorem decodeChecksInOrder : Obligations.DecodeChecksInOrder :=
  fun _ => ⟨decodeFields_reservedOp, decodeFields_reservedBits, decodeFields_saNotAllowed, exists_decodeFields⟩

/-! ### What the decoder does not read (R73) -/

open Machine (mnemonic readsA readsB)

/-- The same OP with other operands selects the same row of the map, and the same command if the operands it reads are the same. -/
theorem baseInstr_row {op : BitVec 8} {a : BitVec 16} {b : BitVec 32} {i : Instr} (a' : BitVec 16) (b' : BitVec 32)
    (h : baseInstr op a b = some i) :
    ∃ j, baseInstr op a' b' = some j ∧ mnemonic j = mnemonic i ∧
      ((readsA i = true → a' = a) → (readsB i = true → b' = b) → j = i) := by
  unfold baseInstr at h
  split at h <;> cases h <;> exact ⟨_, rfl, rfl, by simp_all [readsA, readsB]⟩

theorem chainedInstr_row {op : BitVec 8} {b : BitVec 32} {i : Instr} (b' : BitVec 32) (h : chainedInstr op b = some i) :
    ∃ j, chainedInstr op b' = some j ∧ mnemonic j = mnemonic i ∧ ((readsB i = true → b' = b) → j = i) := by
  unfold chainedInstr at h
  split at h <;> cases h <;> exact ⟨_, rfl, rfl, by simp_all [readsB]⟩

theorem decodeFields_row {f g : Fields} {i : Instr} (hop : f.op = g.op) (hrsv : f.rsv = g.rsv) (hsa : f.sa = g.sa)
    (h : decodeFields g = .ok i) :
    ∃ j, decodeFields f = .ok j ∧ mnemonic j = mnemonic i ∧
      ((readsA i = true → f.a = g.a) → (readsB i = true → f.b = g.b) → j = i) := by
  obtain ⟨hzero, hg⟩ := decodeFields_eq_ok_iff.mp h
  have hzero' : f.rsvZero = true := by rwa [Fields.rsvZero, hrsv]
  obtain ⟨hset, hbase⟩ | ⟨hset, hchained⟩ := hg
  · obtain ⟨j, hj, hmn, hsame⟩ := baseInstr_row f.a f.b hbase
    exact ⟨j, decodeFields_eq_ok_iff.mpr ⟨hzero', .inl ⟨hsa.trans hset, hop ▸ hj⟩⟩, hmn, hsame⟩
  · obtain ⟨j, hj, hmn, hsame⟩ := chainedInstr_row f.b hchained
    exact ⟨j, decodeFields_eq_ok_iff.mpr ⟨hzero', .inr ⟨hsa.trans hset, hop ▸ hj⟩⟩, hmn, fun _ => hsame⟩

/-- Settles O10: the two words select one row of the map, and its command reads nothing in which they differ. -/
theorem decodeIgnoresUnreadFields : Obligations.DecodeIgnoresUnreadFields := by
  intro v w i hop hrsv hsa h
  obtain ⟨j, hj, hmn, hsame⟩ := decodeFields_row hop hrsv hsa h
  exact ⟨⟨j, hj, hmn⟩, fun ha hb => hsame ha hb ▸ hj⟩

end Sys2Proof

namespace Sys2Proof.Machine

/-! ### Illegal words at the command port (R65 to R67) -/

/-- A step on a word that is no command: CODE 8 with the decoder's DETAIL, and the move taken. -/
theorem step_of_decode_error {s : State} {w : Command} {rest : List HostMove} {e : Illegal}
    (hm : s.hostMoves = .command w :: rest) (hd : decode w = .error e) :
    step s = .next ((s.setMoves rest).failure 8 e.detail 0) := by
  rw [step_command hm, execWord, hd]
  exact congrArg _ (raise_eq_failure _ rfl)

/-- Settles O12: each illegal word is refused by the check it fails (O11), and the step that executes it takes that error. -/
theorem illegalWordsFail : Obligations.IllegalWordsFail := by
  intro s w rest hm
  obtain ⟨hreserved, hbits, hsource, -⟩ := decodeChecksInOrder w
  refine ⟨fun hop => ?_, fun hop hrsv => ?_, fun hop hrsv hsa hlist => ?_⟩
  · exact step_of_decode_error (e := .reservedOp) hm (hreserved ((Fields.opReserved_iff _).mpr hop))
  · exact step_of_decode_error (e := .reservedBits) hm (hbits hop (beq_eq_false_iff_ne.mpr hrsv))
  · exact step_of_decode_error (e := .saNotAllowed) hm
      (hsource hop ((Fields.rsvZero_iff _).mpr hrsv) ((Fields.saLegal_eq_false_iff _).mpr ⟨hsa, hlist⟩))

/-! ### The assembler (R71) -/

theorem fieldA_toNat (a : BitVec 16) : fieldA a.toNat = some a := by
  rw [fieldA, if_pos (Nat.le_of_lt_succ a.isLt), BitVec.ofNat_toNat, BitVec.setWidth_eq]

theorem fieldB_toNat (b : BitVec 32) : fieldB b.toNat = some b := by
  rw [fieldB, if_pos (Nat.le_of_lt_succ b.isLt), BitVec.ofNat_toNat, BitVec.setWidth_eq]

section
variable {mn : String} {a : BitVec 16} {b : BitVec 32} {i : Instr}

theorem assembleCommand_fieldA (h : assembleA mn a = some i) : assembleCommand mn [a.toNat] = some i := by
  simp [assembleCommand, fieldA_toNat, h]

/-- A mnemonic whose operand stands in field B is none of those whose operand stands in field A. -/
theorem assembleCommand_fieldB (hA : ∀ x, assembleA mn x = none) (h : assembleB mn b = some i) :
    assembleCommand mn [b.toNat] = some i := by
  have hnone : (fieldA b.toNat).bind (assembleA mn) = none := Option.bind_eq_none_iff.mpr fun x _ => hA x
  simp [assembleCommand, fieldB_toNat, hnone, h]

theorem assembleCommand_fieldAB (h : assembleAB mn a b = some i) : assembleCommand mn [a.toNat, b.toNat] = some i := by
  simp [assembleCommand, fieldA_toNat, fieldB_toNat, h]

end

/-- Settles O14: by the operand fields the command's mnemonic takes. -/
theorem assembleDisassembledCommand : Obligations.AssembleDisassembledCommand := by
  intro i
  cases i with
  | nop | clrstat | alClr | dmInit | stClr | dmProcess | dmVerify | dmCheck | dmEncode | gfInvR | qgInvR => rfl
  | gfCfg | gfInv | qgBuild | qgInv | alRd | stRd => exact assembleCommand_fieldA rfl
  | gfReduce | alPush | stPush | gfAddR | gfMulR | gfDivR | qgMulR => exact assembleCommand_fieldB (fun _ => rfl) rfl
  | gfAdd | gfMul | gfDiv | qgMul => exact assembleCommand_fieldAB rfl

end Sys2Proof.Machine
end

section
/-!
SUPPORT. The numbers of the GF unit as polynomials over GF(2): XOR is the sum, `clmul` the product, `bitlen` the degree plus one, and
`reduce` gives the one small number in the same residue class. From it the laws of R80, R92 and R93. Family 41_bgf.md.
-/

namespace Sys2Proof.Machine

open Polynomial

/-! ### A number as a polynomial -/

/-- The polynomial whose coefficient at `X ^ k` is bit `k` of `n`. -/
noncomputable def toPoly (n : Nat) : (ZMod 2)[X] := ∑ p ∈ Finset.range n, if n.testBit p then X ^ p else 0

theorem coeff_sum_testBit (n N k : Nat) :
    (∑ p ∈ Finset.range N, if n.testBit p then (X : (ZMod 2)[X]) ^ p else 0).coeff k =
      if k < N ∧ n.testBit k then 1 else 0 := by
  have hterm : ∀ p, (if n.testBit p then (X : (ZMod 2)[X]) ^ p else 0).coeff k =
      if k = p then (if n.testBit p then 1 else 0) else 0 := by
    intro p
    cases n.testBit p <;> simp [coeff_X_pow]
  simp [hterm, ite_and]

theorem coeff_toPoly (n k : Nat) : (toPoly n).coeff k = if n.testBit k then 1 else 0 := by
  rw [toPoly, coeff_sum_testBit]
  have hbit : n.testBit k = true → k < n := fun h => Nat.lt_two_pow_self.trans_le (Nat.ge_two_pow_of_testBit h)
  simp only [and_iff_right_of_imp hbit]

/-- The bits may be summed over any range that holds them all. -/
theorem toPoly_eq_sum {n N : Nat} (h : n < 2 ^ N) :
    toPoly n = ∑ p ∈ Finset.range N, if n.testBit p then X ^ p else 0 := by
  ext k
  have hbit : n.testBit k = true → k < N := fun hk =>
    (Nat.pow_lt_pow_iff_right (by decide)).mp ((Nat.ge_two_pow_of_testBit hk).trans_lt h)
  rw [coeff_toPoly, coeff_sum_testBit]
  simp only [and_iff_right_of_imp hbit]

theorem toPoly_injective : Function.Injective toPoly := by
  intro a b h
  apply Nat.eq_of_testBit_eq
  intro k
  have hk := congrArg (coeff · k) h
  simp only [coeff_toPoly] at hk
  cases ha : a.testBit k <;> cases hb : b.testBit k <;> simp [ha, hb] at hk <;> rfl

@[simp] theorem toPoly_zero : toPoly 0 = 0 := rfl

@[simp] theorem toPoly_xor (a b : Nat) : toPoly (a ^^^ b) = toPoly a + toPoly b := by
  ext k
  rw [coeff_add]
  simp only [coeff_toPoly, Nat.testBit_xor]
  cases a.testBit k <;> cases b.testBit k <;> decide

@[simp] theorem toPoly_shiftLeft (n k : Nat) : toPoly (n <<< k) = toPoly n * X ^ k := by
  ext i
  rw [coeff_mul_X_pow', coeff_toPoly, coeff_toPoly, Nat.testBit_shiftLeft]
  by_cases h : k ≤ i <;> simp [h]

@[simp] theorem toPoly_one : toPoly 1 = 1 := by simp [toPoly]

theorem toPoly_two_pow (k : Nat) : toPoly (2 ^ k) = X ^ k := by
  rw [← Nat.one_shiftLeft, toPoly_shiftLeft, toPoly_one, one_mul]

theorem toPoly_surjective : Function.Surjective toPoly := by
  intro f
  induction f using Polynomial.induction_on' with
  | add f g hf hg =>
    obtain ⟨a, rfl⟩ := hf
    obtain ⟨b, rfl⟩ := hg
    exact ⟨a ^^^ b, toPoly_xor a b⟩
  | monomial k c =>
    obtain rfl | rfl : c = 0 ∨ c = 1 := by revert c; decide
    · exact ⟨0, by simp⟩
    · exact ⟨2 ^ k, by simp [toPoly_two_pow, X_pow_eq_monomial]⟩

/-! ### The length of a number is the degree of its polynomial plus one -/

theorem bitlen_le_iff {n k : Nat} : bitlen n ≤ k ↔ n < 2 ^ k := by
  unfold bitlen
  split
  next h => simp [h]
  next h => exact Nat.log2_lt h

theorem degree_toPoly_lt_iff {n k : Nat} : (toPoly n).degree < k ↔ n < 2 ^ k := by
  rw [degree_lt_iff_coeff_zero]
  constructor
  · intro h
    refine Nat.lt_pow_two_of_testBit n fun i hi => ?_
    simpa [coeff_toPoly] using h i hi
  · intro h i hi
    rw [coeff_toPoly, Nat.testBit_lt_two_pow (h.trans_le (Nat.pow_le_pow_right (by decide) hi))]
    simp

theorem toPoly_ne_zero {n : Nat} (h : 1 ≤ n) : toPoly n ≠ 0 := by
  rw [← toPoly_zero, toPoly_injective.ne_iff]
  omega

theorem bitlen_eq_natDegree {n : Nat} (h : 1 ≤ n) : bitlen n = (toPoly n).natDegree + 1 := by
  refine eq_of_forall_ge_iff fun k => ?_
  rw [bitlen_le_iff, Nat.add_one_le_iff, natDegree_lt_iff_degree_lt (toPoly_ne_zero h), degree_toPoly_lt_iff]

/-! ### The carry-less product (R80) -/

theorem toPoly_foldl_xor (i j N : Nat) :
    toPoly ((List.range N).foldl (fun r p => if j.testBit p then r ^^^ (i <<< p) else r) 0) =
      toPoly i * ∑ p ∈ Finset.range N, if j.testBit p then X ^ p else 0 := by
  induction N with
  | zero => simp
  | succ N ih =>
    rw [List.range_succ, List.foldl_append, Finset.sum_range_succ, mul_add, ← ih]
    cases h : j.testBit N <;> simp [h]

@[simp] theorem toPoly_clmul (i j : Nat) : toPoly (clmul i j) = toPoly i * toPoly j := by
  rw [clmul, toPoly_foldl_xor, ← toPoly_eq_sum (bitlen_le_iff.mp le_rfl)]

theorem clmul_eq_foldl {i j N : Nat} (h : bitlen j ≤ N) :
    clmul i j = (List.range N).foldl (fun r p => if j.testBit p then r ^^^ (i <<< p) else r) 0 := by
  apply toPoly_injective
  rw [toPoly_clmul, toPoly_foldl_xor, ← toPoly_eq_sum (bitlen_le_iff.mp h)]

theorem clmul_comm (i j : Nat) : clmul i j = clmul j i := toPoly_injective (by simp [mul_comm])

theorem clmul_assoc (i j k : Nat) : clmul (clmul i j) k = clmul i (clmul j k) := toPoly_injective (by simp [mul_assoc])

theorem clmul_xor (i j k : Nat) : clmul i (j ^^^ k) = clmul i j ^^^ clmul i k := toPoly_injective (by simp [mul_add])

@[simp] theorem clmul_zero (i : Nat) : clmul i 0 = 0 := rfl

@[simp] theorem zero_clmul (j : Nat) : clmul 0 j = 0 := clmul_comm 0 j

@[simp] theorem clmul_one (i : Nat) : clmul i 1 = i := toPoly_injective (by simp)

@[simp] theorem one_clmul (j : Nat) : clmul 1 j = j := toPoly_injective (by simp)

theorem two_clmul (i : Nat) : clmul 2 i = i <<< 1 := by
  have htwo : toPoly 2 = X ^ 1 := toPoly_two_pow 1
  apply toPoly_injective
  rw [toPoly_clmul, htwo, toPoly_shiftLeft, mul_comm]

theorem one_le_clmul {i j : Nat} (hi : 1 ≤ i) (hj : 1 ≤ j) : 1 ≤ clmul i j := by
  rw [Nat.one_le_iff_ne_zero, ← toPoly_injective.ne_iff, toPoly_clmul]
  exact mul_ne_zero (toPoly_ne_zero hi) (toPoly_ne_zero hj)

/-- The degrees of two factors add up. -/
theorem bitlen_clmul {i j : Nat} (hi : 1 ≤ i) (hj : 1 ≤ j) : bitlen (clmul i j) = bitlen i + bitlen j - 1 := by
  rw [bitlen_eq_natDegree (one_le_clmul hi hj), bitlen_eq_natDegree hi, bitlen_eq_natDegree hj, toPoly_clmul,
    natDegree_mul (toPoly_ne_zero hi) (toPoly_ne_zero hj)]
  omega

theorem clmul_lt {d i j : Nat} (hi : i < 2 ^ d) (hj : j < 2 ^ d) : clmul i j < 2 ^ (2 * d - 1) := by
  rcases Nat.eq_zero_or_pos i with rfl | hi0
  · simp
  rcases Nat.eq_zero_or_pos j with rfl | hj0
  · simp
  have hli := bitlen_le_iff.mpr hi
  have hlj := bitlen_le_iff.mpr hj
  rw [← bitlen_le_iff, bitlen_clmul hi0 hj0]
  omega

/-- Settles O27: as polynomials over GF(2), `clmul` is the product and XOR the sum; the length is the degree plus one. -/
theorem carrylessProductLaws : Obligations.CarrylessProductLaws :=
  ⟨fun _ _ _ h => clmul_eq_foldl h, clmul_zero, zero_clmul, fun _ _ hi hj => bitlen_clmul hi hj, fun _ _ _ hi hj => clmul_lt hi hj,
    clmul_comm, clmul_assoc, clmul_xor⟩

/-! ### Residue classes -/

/-- The class of `n` modulo `poly`, in GF(2)[X]/(poly). -/
noncomputable def residue (poly n : Nat) : AdjoinRoot (toPoly poly) := AdjoinRoot.mk _ (toPoly n)

section
variable (poly a b : Nat)

@[simp] theorem residue_zero : residue poly 0 = 0 := by simp [residue]

@[simp] theorem residue_one : residue poly 1 = 1 := by simp [residue]

@[simp] theorem residue_xor : residue poly (a ^^^ b) = residue poly a + residue poly b := by simp [residue]

@[simp] theorem residue_clmul : residue poly (clmul a b) = residue poly a * residue poly b := by simp [residue]

@[simp] theorem residue_self : residue poly poly = 0 := AdjoinRoot.mk_self

@[simp] theorem residue_shiftLeft_self : residue poly (poly <<< a) = 0 := by simp [residue]

end

theorem residue_surjective (poly : Nat) : Function.Surjective (residue poly) :=
  AdjoinRoot.mk_surjective.comp toPoly_surjective

theorem residue_eq_zero_iff {poly a : Nat} : residue poly a = 0 ↔ toPoly poly ∣ toPoly a := AdjoinRoot.mk_eq_zero

/-- Two numbers are in one class exactly when their XOR is a multiple of the polynomial. -/
theorem residue_eq_iff {poly a b : Nat} : residue poly a = residue poly b ↔ ∃ q, a ^^^ b = clmul poly q := by
  rw [residue, residue, AdjoinRoot.mk_eq_mk, CharTwo.sub_eq_add, ← toPoly_xor]
  constructor
  · rintro ⟨f, hf⟩
    obtain ⟨q, rfl⟩ := toPoly_surjective f
    exact ⟨q, toPoly_injective (by rw [hf, toPoly_clmul])⟩
  · rintro ⟨q, hq⟩
    exact ⟨toPoly q, by rw [hq, toPoly_clmul]⟩

/-! ### Reduction (R81, R92) -/

/-- Bit `d` is the top bit of `n`. -/
def TopBit (d n : Nat) : Prop := 2 ^ d ≤ n ∧ n < 2 ^ (d + 1)

theorem topBit_bitlen {n : Nat} (h : 1 ≤ n) : TopBit (bitlen n - 1) n := by
  have hlen : 1 ≤ bitlen n := by rw [bitlen_eq_natDegree h]; omega
  refine ⟨Nat.le_of_not_lt fun hlt => ?_, bitlen_le_iff.mp (by omega)⟩
  have := bitlen_le_iff.mpr hlt
  omega

theorem TopBit.shiftLeft {d n : Nat} (h : TopBit d n) (k : Nat) : TopBit (d + k) (n <<< k) := by
  obtain ⟨hle, hlt⟩ := h
  rw [TopBit, Nat.shiftLeft_eq, Nat.add_right_comm, Nat.pow_add, Nat.pow_add]
  exact ⟨Nat.mul_le_mul_right _ hle, Nat.mul_lt_mul_of_pos_right hlt (Nat.two_pow_pos k)⟩

/-- Two numbers with the same top bit: their XOR has none from there on. -/
theorem TopBit.xor_lt {d a b : Nat} (ha : TopBit d a) (hb : TopBit d b) : a ^^^ b < 2 ^ d := by
  refine Nat.lt_pow_two_of_testBit _ fun i hi => ?_
  obtain ⟨hale, halt⟩ := ha
  obtain ⟨hble, hblt⟩ := hb
  rw [Nat.testBit_xor]
  rcases hi.eq_or_lt with rfl | hlt
  · rw [Nat.testBit_of_two_pow_le_and_two_pow_add_one_gt hale halt, Nat.testBit_of_two_pow_le_and_two_pow_add_one_gt hble hblt]
    rfl
  · have hpow : 2 ^ (d + 1) ≤ 2 ^ i := Nat.pow_le_pow_right (by decide) hlt
    rw [Nat.testBit_lt_two_pow (halt.trans_le hpow), Nat.testBit_lt_two_pow (hblt.trans_le hpow)]
    rfl

/-- A turn of the loop XORs in a shift of the polynomial, so the class stays. -/
theorem residue_reduceLoop (d poly : Nat) : ∀ fuel bits, residue poly (reduceLoop d poly fuel bits) = residue poly bits
  | 0, _ => rfl
  | fuel + 1, bits => by
    rw [reduceLoop]
    split
    · rw [residue_reduceLoop d poly fuel, residue_xor, residue_shiftLeft_self, add_zero]
    · rfl

@[simp] theorem residue_reduce (d poly v : Nat) : residue poly (reduce d poly v) = residue poly v :=
  residue_reduceLoop d poly _ v

@[simp] theorem residue_gfmul (d poly i j : Nat) : residue poly (gfmul d poly i j) = residue poly i * residue poly j := by
  simp [gfmul]

/-- A number below 2^d needs no turn, whatever the polynomial. -/
theorem reduce_of_lt {d poly v : Nat} (h : v < 2 ^ d) : reduce d poly v = v := by
  rw [reduce]
  cases bitlen v with
  | zero => rfl
  | succ fuel => rw [reduceLoop, if_neg (Nat.not_le.mpr h)]

section
variable {d poly : Nat} (hp : TopBit d poly)
include hp

/-- Each turn takes the top bit away, so as many turns as bits are enough. -/
theorem reduceLoop_lt : ∀ fuel bits, bitlen bits ≤ fuel → reduceLoop d poly fuel bits < 2 ^ d
  | 0, bits, h => by
    have : bits < 2 ^ 0 := bitlen_le_iff.mp h
    have := Nat.two_pow_pos d
    rw [reduceLoop]
    omega
  | fuel + 1, bits, h => by
    rw [reduceLoop]
    split
    next hle =>
      have htop : TopBit (bitlen bits - 1) bits := topBit_bitlen ((Nat.two_pow_pos d).trans_le hle)
      have hd : d ≤ bitlen bits - 1 := by
        by_contra hlt
        have := (bitlen_le_iff (n := bits) (k := d)).mp (by omega)
        omega
      have hshift := hp.shiftLeft (bitlen bits - 1 - d)
      rw [Nat.add_sub_cancel' hd] at hshift
      have hlen := bitlen_le_iff.mpr (htop.xor_lt hshift)
      exact reduceLoop_lt fuel _ (by omega)
    next hlt => exact Nat.lt_of_not_le hlt

theorem reduce_lt (v : Nat) : reduce d poly v < 2 ^ d := reduceLoop_lt hp _ v le_rfl

theorem gfmul_lt (i j : Nat) : gfmul d poly i j < 2 ^ d := reduce_lt hp _

/-- Each class has one number below 2^d at most: a multiple of the polynomial that is shorter than it is 0. -/
theorem eq_of_residue_eq {a b : Nat} (ha : a < 2 ^ d) (hb : b < 2 ^ d) (h : residue poly a = residue poly b) : a = b := by
  obtain ⟨q, hq⟩ := residue_eq_iff.mp h
  have hdeg : (toPoly (a ^^^ b)).degree < (toPoly poly).degree :=
    (degree_toPoly_lt_iff.mpr (Nat.xor_lt_two_pow ha hb)).trans_le
      (not_lt.mp (degree_toPoly_lt_iff.not.mpr (Nat.not_lt.mpr hp.1)))
  have hzero : toPoly (a ^^^ b) = toPoly 0 :=
    eq_zero_of_dvd_of_degree_lt ⟨toPoly q, by rw [hq, toPoly_clmul]⟩ hdeg
  exact Nat.xor_eq_zero_iff.mp (toPoly_injective hzero)

/-- The remainder is the number below 2^d in the class. -/
theorem eq_reduce_iff {r v : Nat} : r = reduce d poly v ↔ r < 2 ^ d ∧ residue poly v = residue poly r := by
  constructor
  · rintro rfl
    exact ⟨reduce_lt hp v, (residue_reduce d poly v).symm⟩
  · rintro ⟨hr, hv⟩
    exact eq_of_residue_eq hp hr (reduce_lt hp v) (by rw [residue_reduce, hv])

theorem reduce_xor (a b : Nat) : reduce d poly (a ^^^ b) = reduce d poly a ^^^ reduce d poly b :=
  ((eq_reduce_iff hp).mpr ⟨Nat.xor_lt_two_pow (reduce_lt hp a) (reduce_lt hp b), by simp⟩).symm

theorem reduce_shiftLeft_self (k : Nat) : reduce d poly (poly <<< k) = 0 :=
  ((eq_reduce_iff hp).mpr ⟨Nat.two_pow_pos d, by simp⟩).symm

theorem reduce_clmul (a b : Nat) : reduce d poly (clmul a b) = gfmul d poly (reduce d poly a) (reduce d poly b) :=
  ((eq_reduce_iff hp).mpr ⟨gfmul_lt hp _ _, by simp⟩).symm

theorem reduce_eq_zero_iff {v : Nat} : reduce d poly v = 0 ↔ toPoly poly ∣ toPoly v := by
  rw [eq_comm, eq_reduce_iff hp, residue_zero, residue_eq_zero_iff]
  exact and_iff_right (Nat.two_pow_pos d)

/-- R93: the shifted element is in range, or its top bit is cancelled by the polynomial's. -/
theorem gfmul_two {i : Nat} (hd : 2 ≤ d) (hi : i < 2 ^ d) :
    gfmul d poly 2 i = if i < 2 ^ (d - 1) then i <<< 1 else (i <<< 1) ^^^ poly := by
  have hpow : 2 ^ (d - 1) * 2 = 2 ^ d := Nat.two_pow_pred_mul_two (by omega)
  rw [gfmul, two_clmul, eq_comm, eq_reduce_iff hp]
  split
  next h => exact ⟨by rw [Nat.shiftLeft_eq]; omega, rfl⟩
  next h =>
    have htop : TopBit d (i <<< 1) := by
      rw [TopBit, Nat.shiftLeft_eq, Nat.pow_succ]; omega
    exact ⟨htop.xor_lt hp, by rw [residue_xor, residue_self, add_zero]⟩

end

/-- Settles O28: the remainder is the one number below 2^d in the operand's residue class, and residue classes form a ring. -/
theorem reduceProperties : Obligations.ReduceProperties := by
  intro d poly hle hlt
  have hp : TopBit d poly := ⟨hle, hlt⟩
  refine ⟨reduce_lt hp, fun _ => reduce_of_lt, reduce_xor hp, reduce_shiftLeft_self hp, fun v r => ?_, reduce_clmul hp⟩
  rw [eq_reduce_iff hp, residue_eq_iff]

/-- Settles O29: the product 2·i is i shifted, whose top bit the polynomial cancels where it leaves the range. -/
theorem multiplicationByX : Obligations.MultiplicationByX :=
  fun _ _ _ hd hle hlt hi => gfmul_two ⟨hle, hlt⟩ hd hi

end Sys2Proof.Machine
end

section
/-!
SUPPORT. The field of a degree and an admissible polynomial (R82, R83, R91): the products are a commutative ring's, because residue
classes are, and an irreducible polynomial gives each class but 0 an inverse. Family 41_bgf.md.
-/

namespace Sys2Proof.Machine

open Polynomial

/-! ### The products in a ring of residue classes -/

theorem gfmul_comm (d poly i j : Nat) : gfmul d poly i j = gfmul d poly j i := by rw [gfmul, gfmul, clmul_comm]

@[simp] theorem gfmul_zero (d poly i : Nat) : gfmul d poly i 0 = 0 := rfl

@[simp] theorem zero_gfmul (d poly j : Nat) : gfmul d poly 0 j = 0 := gfmul_comm d poly 0 j

theorem gfmul_one {d poly i : Nat} (hi : i < 2 ^ d) : gfmul d poly i 1 = i := by rw [gfmul, clmul_one, reduce_of_lt hi]

theorem one_gfmul {d poly j : Nat} (hj : j < 2 ^ d) : gfmul d poly 1 j = j := by rw [gfmul_comm, gfmul_one hj]

section
variable {d poly : Nat} (hp : TopBit d poly)
include hp

theorem gfmul_assoc (i j k : Nat) : gfmul d poly (gfmul d poly i j) k = gfmul d poly i (gfmul d poly j k) :=
  eq_of_residue_eq hp (gfmul_lt hp _ _) (gfmul_lt hp _ _) (by simp [mul_assoc])

theorem gfmul_xor (i j k : Nat) : gfmul d poly i (j ^^^ k) = gfmul d poly i j ^^^ gfmul d poly i k := by
  rw [gfmul, clmul_xor, reduce_xor hp, gfmul, gfmul]

/-- An inverse of `k` undoes the multiplication by `k`. -/
theorem gfmul_cancel_right {i k p : Nat} (hi : i < 2 ^ d) (h : gfmul d poly p k = 1) :
    gfmul d poly (gfmul d poly i k) p = i := by
  rw [gfmul_assoc hp, gfmul_comm d poly k, h, gfmul_one hi]

theorem inverse_unique {k p q : Nat} (hp' : p < 2 ^ d) (hq : q < 2 ^ d) (h : gfmul d poly p k = 1)
    (h' : gfmul d poly q k = 1) : q = p := by
  rw [← gfmul_cancel_right hp hq h, h', one_gfmul hp']

/-- The search answers any inverse below 2^d, since there is one at most. -/
theorem gfinv_eq_some_iff {k p : Nat} : gfinv d poly k = some p ↔ p < 2 ^ d ∧ gfmul d poly p k = 1 := by
  rw [gfinv_eq_some]
  constructor
  · rintro ⟨hlt, h, -⟩
    exact ⟨hlt, h⟩
  · rintro ⟨hlt, h⟩
    exact ⟨hlt, h, fun j hj hj' => hj.ne (inverse_unique hp hlt (hj.trans hlt) h hj')⟩

/-- R89: the inverse of the inverse is the element. -/
theorem gfinv_gfinv {k p : Nat} (hk : k < 2 ^ d) (h : gfinv d poly k = some p) : gfinv d poly p = some k := by
  obtain ⟨-, hmul⟩ := (gfinv_eq_some_iff hp).mp h
  exact (gfinv_eq_some_iff hp).mpr ⟨hk, by rw [gfmul_comm, hmul]⟩

end

/-- R89: 0 has no inverse, whatever the polynomial. -/
theorem gfinv_zero (d poly : Nat) : gfinv d poly 0 = none := gfinv_eq_none.mpr fun _ _ => by simp

/-- R89: 1 is its own inverse, whatever the polynomial. -/
theorem gfinv_one {d : Nat} (poly : Nat) (hd : 1 < 2 ^ d) : gfinv d poly 1 = some 1 := by
  refine gfinv_eq_some.mpr ⟨hd, gfmul_one hd, fun j hj => ?_⟩
  rw [Nat.lt_one_iff.mp hj, zero_gfmul]
  decide

/-! ### The inverse in a field (R83, R91) -/

theorem TopBit.bitlen_eq {d n : Nat} (h : TopBit d n) : bitlen n = d + 1 := by
  obtain ⟨hle, hlt⟩ := h
  refine (bitlen_le_iff.mpr hlt).antisymm (Nat.le_of_not_lt fun hlen => ?_)
  exact absurd (bitlen_le_iff.mp (Nat.le_of_lt_succ hlen)) (Nat.not_lt.mpr hle)

theorem TopBit.natDegree_eq {d n : Nat} (h : TopBit d n) : (toPoly n).natDegree = d := by
  have hlen := bitlen_eq_natDegree ((Nat.two_pow_pos d).trans_le h.1)
  rw [h.bitlen_eq] at hlen
  omega

/-- R17: `polyDivides` is divisibility of polynomials. -/
theorem polyDivides_iff {q p : Nat} (hq : 1 ≤ q) : polyDivides q p = true ↔ toPoly q ∣ toPoly p := by
  rw [polyDivides, beq_iff_eq, reduce_eq_zero_iff (topBit_bitlen hq)]

theorem topBit_of_admissible {d poly : Nat} (h : Admissible d poly) : TopBit d poly := by
  obtain ⟨hle, hlt, -⟩ := h
  exact ⟨hle, hlt⟩

section
variable {d poly : Nat} (hd : 1 ≤ d) (h : Admissible d poly)
include hd h

/-- R7: a polynomial that no polynomial of lower positive degree divides is irreducible. -/
theorem irreducible_of_admissible : Irreducible (toPoly poly) := by
  have hp := topBit_of_admissible h
  obtain ⟨-, -, -, hfactor⟩ := h
  have hunit : ¬ IsUnit (toPoly poly) := not_isUnit_of_natDegree_pos _ (by rw [hp.natDegree_eq]; exact hd)
  rw [irreducible_iff_lt_natDegree_lt (toPoly_ne_zero ((Nat.two_pow_pos d).trans_le hp.1)) hunit, hp.natDegree_eq]
  intro f hf hdeg hdvd
  obtain ⟨q, rfl⟩ := toPoly_surjective f
  obtain ⟨hpos, hhalf⟩ := Finset.mem_Ioc.mp hdeg
  have hq : 1 ≤ q := Nat.one_le_iff_ne_zero.mpr (by rintro rfl; exact hf.ne_zero toPoly_zero)
  have hq2 : q ≠ 1 := by rintro rfl; simp at hpos
  have hlt : q < 2 ^ d := by rw [← bitlen_le_iff, bitlen_eq_natDegree hq]; omega
  exact absurd ((polyDivides_iff hq).mpr hdvd) (by rw [hfactor q hlt (by omega)]; decide)

/-- The inverse in the field of residue classes, and the number below 2^d in its class. -/
theorem exists_inverse {k : Nat} (hk0 : 1 ≤ k) (hk : k < 2 ^ d) : ∃ p, p < 2 ^ d ∧ gfmul d poly p k = 1 := by
  have hp := topBit_of_admissible h
  have : Fact (Irreducible (toPoly poly)) := ⟨irreducible_of_admissible hd h⟩
  have hclass : residue poly k ≠ 0 := fun hzero =>
    absurd (eq_of_residue_eq hp hk (Nat.two_pow_pos d) (hzero.trans (residue_zero poly).symm)) (by omega)
  obtain ⟨n, hn⟩ := residue_surjective poly (residue poly k)⁻¹
  refine ⟨reduce d poly n, reduce_lt hp n, eq_of_residue_eq hp (gfmul_lt hp _ _) (Nat.one_lt_two_pow (by omega)) ?_⟩
  rw [residue_gfmul, residue_reduce, hn, residue_one, inv_mul_cancel₀ hclass]

theorem exists_gfinv {k : Nat} (hk0 : 1 ≤ k) (hk : k < 2 ^ d) : ∃ p, gfinv d poly k = some p := by
  obtain ⟨p, hp⟩ := exists_inverse hd h hk0 hk
  exact ⟨p, (gfinv_eq_some_iff (topBit_of_admissible h)).mpr hp⟩

/-- R91 (iii): the row of a non-zero element takes each non-zero value at one non-zero place, the value times the inverse. -/
theorem gfmul_row_bijective {i v : Nat} (hi0 : 1 ≤ i) (hi : i < 2 ^ d) (hv0 : 1 ≤ v) (hv : v < 2 ^ d) :
    ∃ j, 1 ≤ j ∧ j < 2 ^ d ∧ gfmul d poly i j = v ∧ ∀ k, k < 2 ^ d → gfmul d poly i k = v → k = j := by
  have hp := topBit_of_admissible h
  obtain ⟨p, -, hinv⟩ := exists_inverse hd h hi0 hi
  have hval : gfmul d poly i (gfmul d poly v p) = v := by
    rw [gfmul_comm, gfmul_assoc hp, hinv, gfmul_one hv]
  refine ⟨gfmul d poly v p, Nat.one_le_iff_ne_zero.mpr fun hzero => ?_, gfmul_lt hp _ _, hval, fun k hk hkv => ?_⟩
  · rw [hzero, gfmul_zero] at hval
    omega
  · rw [← hkv, gfmul_comm d poly i, gfmul_cancel_right hp hk hinv]

end

/-- Settles O31: 0 has no inverse; a non-zero element has one in the field, and the search answers it. -/
theorem fieldInverseSearch : Obligations.FieldInverseSearch := by
  intro P d hd hd8
  have hadm := P.irred_admissible d hd hd8
  have hp := topBit_of_admissible hadm
  refine ⟨gfinv_zero d _, fun k hk0 hk => ?_⟩
  obtain ⟨p, hinv⟩ := exists_gfinv hd hadm hk0 hk
  obtain ⟨hlt, hmul⟩ := (gfinv_eq_some_iff hp).mp hinv
  exact ⟨p, hinv, hlt, hmul, fun q hq hqk => inverse_unique hp hlt hq hmul hqk⟩

/-- Settles O32: the ring laws from the residue classes, the bijection of a row from the inverse. -/
theorem fieldLaws : Obligations.FieldLaws := by
  intro d poly hd _ hadm
  have hp := topBit_of_admissible hadm
  exact ⟨fun i j _ _ => ⟨gfmul_lt hp i j, gfmul_comm d poly i j⟩,
    fun i j k _ _ _ => ⟨gfmul_assoc hp i j k, gfmul_xor hp i j k⟩,
    fun i hi => ⟨gfmul_one hi, gfmul_zero d poly i⟩,
    fun i v hi0 hi hv0 hv => gfmul_row_bijective hd hadm hi0 hi hv0 hv⟩

end Sys2Proof.Machine
end

section
/-!
SUPPORT. The commands of the GF unit (R85 to R90, R94): each rule's checks in their order, and its result by the laws of the field.
Family 41_bgf.md.
-/

namespace Sys2Proof.Machine

/-! ### From a rule to the command -/

theorem decode_toWord (f : Fields) : decode f.toWord = decodeFields f := by rw [decode, Fields.ofWord_toWord]

theorem exec_of_ok {i : Instr} {s u : State} (h : commandRule Config.params i s = .ok u) : exec i s = .next u.success :=
  (exec_eq_execute i s).trans (execute_ok h)

/-- R153: a failure without a list position. -/
theorem exec_of_error {i : Instr} {s : State} {f : Failure} {code detail : Nat}
    (h : commandRule Config.params i s = .error f)
    (hf : f.kind.positional = false ∧ f.kind.code.toNat = code ∧ f.detail = detail) :
    exec i s = .next (s.failure code detail 0) := by
  obtain ⟨hpos, rfl, rfl⟩ := hf
  rw [exec_eq_execute, execute_error h, hpos]
  rfl

/-- R62, R64: a command and its `.R` form run one rule and differ in where operand A comes from. -/
theorem exists_source {P : Params} {i chained : Instr} {base : BitVec 16 → Instr} {rule : Source → State → Result} {x : Nat}
    {s : State} (hbase : ∀ a, commandRule P (base a) = rule (.field a)) (hchained : commandRule P chained = rule .res0)
    (h : (∃ a, i = base a ∧ x = a.toNat) ∨ (i = chained ∧ x = s.res0.toNat)) :
    ∃ src, commandRule P i = rule src ∧ x = opA src s := by
  obtain ⟨a, rfl, rfl⟩ | ⟨rfl, rfl⟩ := h
  · exact ⟨.field a, hbase a, rfl⟩
  · exact ⟨.res0, hchained, rfl⟩

/-! ### The mask of invalid operands (R84) -/

theorem invalidMask_left {n a b : Nat} (ha : n ≤ a) (hb : b < n) : invalidMask n a b = 1 := by
  simp [invalidMask, ha, Nat.not_le.mpr hb]

theorem invalidMask_right {n a b : Nat} (ha : a < n) (hb : n ≤ b) : invalidMask n a b = 2 := by
  simp [invalidMask, hb, Nat.not_le.mpr ha]

theorem invalidMask_both {n a b : Nat} (ha : n ≤ a) (hb : n ≤ b) : invalidMask n a b = 3 := by
  simp [invalidMask, ha, hb]

/-! ### The commands whose two operands are checked together (R84, R157) -/

/-- A rule that needs a context, then two operands below its order, and then gives `k`. -/
def elementChecks (valid : Bool) (unconfigured : Failure) (order x y : Nat) (k : Result) : Result :=
  failIf (!valid) unconfigured <| failIf (invalidMask order x y != 0) (invalidElement (invalidMask order x y)) k

theorem ruleGfAdd_eq_elementChecks (src : Source) (b : BitVec 32) (s : State) :
    ruleGfAdd src b s = elementChecks s.gf.valid gfNotConfigured (2 ^ s.gf.deg) (opA src s) b.toNat
      (.ok (s.setRes (word (opA src s ^^^ b.toNat)) 0)) := rfl

theorem ruleGfMul_eq_elementChecks (src : Source) (b : BitVec 32) (s : State) :
    ruleGfMul src b s = elementChecks s.gf.valid gfNotConfigured (2 ^ s.gf.deg) (opA src s) b.toNat
      (.ok (s.setRes (word (gfmul s.gf.deg s.gf.poly (opA src s) b.toNat)) 0)) := rfl

section
variable {valid : Bool} {f : Failure} {order x y : Nat} {k : Result}

theorem elementChecks_unconfigured (hv : valid = false) : elementChecks valid f order x y k = .error f := by
  simp [elementChecks, hv]

theorem elementChecks_invalid (hv : valid = true) {mask : Nat} (hm : invalidMask order x y = mask) (h0 : mask ≠ 0) :
    elementChecks valid f order x y k = .error (invalidElement mask) := by
  simp [elementChecks, hv, hm, bne_iff_ne.mpr h0]

theorem elementChecks_passed (hv : valid = true) (hx : x < order) (hy : y < order) :
    elementChecks valid f order x y k = k := by
  simp [elementChecks, hv, invalidMask_eq_zero_iff.mpr ⟨hx, hy⟩]

/-- R87, R88: what a command that opens with these checks does, in each of the five cases. -/
theorem exec_elementChecks {i : Instr} {s u : State} (hf : f.kind = .notConfigured)
    (h : commandRule Config.params i s = elementChecks valid f order x y (.ok u)) :
    (valid = false → exec i s = .next (s.failure 7 f.detail 0)) ∧
    (valid = true → order ≤ x → y < order → exec i s = .next (s.failure 1 1 0)) ∧
    (valid = true → x < order → order ≤ y → exec i s = .next (s.failure 1 2 0)) ∧
    (valid = true → order ≤ x → order ≤ y → exec i s = .next (s.failure 1 3 0)) ∧
    (valid = true → x < order → y < order → exec i s = .next u.success) := by
  have hmask : ∀ {mask}, valid = true → invalidMask order x y = mask → mask ≠ 0 → exec i s = .next (s.failure 1 mask 0) :=
    fun hv hm h0 => exec_of_error (h.trans (elementChecks_invalid hv hm h0)) ⟨rfl, rfl, rfl⟩
  refine ⟨fun hv => ?_, fun hv hx hy => hmask hv (invalidMask_left hx hy) (by decide),
    fun hv hx hy => hmask hv (invalidMask_right hx hy) (by decide),
    fun hv hx hy => hmask hv (invalidMask_both hx hy) (by decide),
    fun hv hx hy => exec_of_ok (h.trans (elementChecks_passed hv hx hy))⟩
  exact exec_of_error (h.trans (elementChecks_unconfigured hv)) (by rw [hf]; exact ⟨rfl, rfl, rfl⟩)

end

/-! ### GF.CFG, GF.REDUCE, GF.ADD and GF.MUL (R85 to R88) -/

theorem ruleGfCfg_degree_zero {P : Params} {a : BitVec 16} {s : State} (h : a.toNat = 0) :
    ruleGfCfg P a s = .error { kind := .unsupportedDegree, detail := 1 } := by
  simp [ruleGfCfg, opA_field, h]

theorem ruleGfCfg_degree_large {P : Params} {a : BitVec 16} {s : State} (h : Config.dMax < a.toNat) :
    ruleGfCfg P a s = .error { kind := .unsupportedDegree, detail := 2 } := by
  have h0 : a.toNat ≠ 0 := Nat.ne_zero_of_lt h
  simp [ruleGfCfg, opA_field, beq_eq_false_iff_ne.mpr h0, h]

/-- Settles O21: by the degree, which fails one of the two checks or passes both. -/
theorem gfCfgRule : Obligations.GfCfgRule := by
  refine ⟨fun a b => (decode_toWord _).trans rfl, fun a s => ⟨fun h0 => ?_, fun h8 => ?_, fun h1 h8 => ?_⟩⟩
  · exact exec_of_error (i := .gfCfg a) (ruleGfCfg_degree_zero h0) ⟨rfl, rfl, rfl⟩
  · exact exec_of_error (i := .gfCfg a) (ruleGfCfg_degree_large h8) ⟨rfl, rfl, rfl⟩
  · exact exec_of_ok (i := .gfCfg a) (ruleGfCfg_eq_ok.mpr ⟨h1, h8, rfl⟩)

theorem ruleGfReduce_unconfigured {b : BitVec 32} {s : State} (hv : s.gf.valid = false) :
    ruleGfReduce b s = .error gfNotConfigured := by
  simp [ruleGfReduce, hv]

theorem ruleGfReduce_configured {b : BitVec 32} {s : State} (hv : s.gf.valid = true) :
    ruleGfReduce b s = .ok (s.setRes (word (reduce s.gf.deg s.gf.poly b.toNat)) 0) := by
  simp [ruleGfReduce, hv, opB]

/-- Settles O22: an element is below 2^d, so reduction leaves it, and the polynomial is in the class of 0. -/
theorem gfReduceRule : Obligations.GfReduceRule := by
  refine ⟨fun a b => (decode_toWord _).trans rfl, fun b s => ⟨fun hv => ?_, fun hv => ?_, reduce_of_lt, fun hle hlt hpoly => ?_⟩⟩
  · exact exec_of_error (i := .gfReduce b) (ruleGfReduce_unconfigured hv) ⟨rfl, rfl, rfl⟩
  · exact exec_of_ok (i := .gfReduce b) (ruleGfReduce_configured hv)
  · rw [hpoly]
    exact reduce_shiftLeft_self ⟨hle, hlt⟩ 0

/-- Settles O23: the shared checks, then the XOR of two numbers below 2^d. -/
theorem gfAddRule : Obligations.GfAddRule := by
  refine ⟨fun a b => (decode_toWord _).trans rfl, fun a b => (decode_toWord _).trans rfl, fun i x b s hi => ?_⟩
  obtain ⟨src, hrule, rfl⟩ := exists_source (P := Config.params) (rule := (ruleGfAdd · b)) (fun _ => rfl) rfl hi
  obtain ⟨hunconf, hleft, hright, hboth, hok⟩ :=
    exec_elementChecks rfl ((congrFun hrule s).trans (ruleGfAdd_eq_elementChecks src b s))
  exact ⟨hunconf, hleft, hright, hboth, fun hv hx hb => ⟨hok hv hx hb, Nat.xor_lt_two_pow hx hb, fun h => by rw [h, Nat.xor_self]⟩⟩

/-- Settles O24: the shared checks, then the field product with its zero and identity. -/
theorem gfMulRule : Obligations.GfMulRule := by
  refine ⟨fun a b => (decode_toWord _).trans rfl, fun a b => (decode_toWord _).trans rfl, fun i x b s hi => ?_⟩
  obtain ⟨src, hrule, rfl⟩ := exists_source (P := Config.params) (rule := (ruleGfMul · b)) (fun _ => rfl) rfl hi
  obtain ⟨hunconf, hleft, hright, hboth, hok⟩ :=
    exec_elementChecks rfl ((congrFun hrule s).trans (ruleGfMul_eq_elementChecks src b s))
  refine ⟨hunconf, hleft, hright, hboth, fun hv hx hb => ⟨hok hv hx hb, ?_, ?_, ?_⟩⟩
  · rintro (h | rfl)
    · rw [h, zero_gfmul]
    · exact gfmul_zero _ _ _
  · rintro rfl
    exact gfmul_one hx
  · intro h
    rw [h, one_gfmul hb]

/-! ### GF.INV (R89) -/

/-- R25: a configured context is a field of degree 1 to 8 with an admissible polynomial. -/
theorem GfContext.WellFormed.field {P : Params} {c : GfContext} (h : c.WellFormed P) (hv : c.valid = true) :
    1 ≤ c.deg ∧ c.deg ≤ 8 ∧ Admissible c.deg c.poly := by
  rw [GfContext.WellFormed, if_pos hv] at h
  obtain ⟨h1, h8, hpoly⟩ := h
  exact ⟨h1, h8, hpoly ▸ P.irred_admissible c.deg h1 h8⟩

section
variable {src : Source} {s : State}

theorem ruleGfInv_unconfigured (hv : s.gf.valid = false) : ruleGfInv src s = .error gfNotConfigured := by
  simp [ruleGfInv, hv]

theorem ruleGfInv_invalid (hv : s.gf.valid = true) (hx : 2 ^ s.gf.deg ≤ opA src s) :
    ruleGfInv src s = .error (invalidElement 1) := by
  simp [ruleGfInv, hv, hx]

theorem ruleGfInv_none (hv : s.gf.valid = true) (hx : opA src s < 2 ^ s.gf.deg)
    (h : gfinv s.gf.deg s.gf.poly (opA src s) = none) : ruleGfInv src s = .error gfNoInverse := by
  simp [ruleGfInv, hv, Nat.not_le.mpr hx, h]

theorem ruleGfInv_some {p : Nat} (hv : s.gf.valid = true) (hx : opA src s < 2 ^ s.gf.deg)
    (h : gfinv s.gf.deg s.gf.poly (opA src s) = some p) : ruleGfInv src s = .ok (s.setRes (word p) 0) := by
  simp [ruleGfInv, hv, Nat.not_le.mpr hx, h]

end

/-- Settles O25: the two checks, then the search, whose answers for 0, for 1 and for an inverse are those of the field. -/
theorem gfInvRule : Obligations.GfInvRule := by
  refine ⟨fun a b => (decode_toWord _).trans rfl, fun a b => (decode_toWord _).trans rfl, fun i x s hi => ?_⟩
  obtain ⟨src, hrule, rfl⟩ := exists_source (P := Config.params) (rule := ruleGfInv) (fun _ => rfl) rfl hi
  have hrun := congrFun hrule s
  refine ⟨fun hv => exec_of_error (hrun.trans (ruleGfInv_unconfigured hv)) ⟨rfl, rfl, rfl⟩,
    fun hv hx => exec_of_error (hrun.trans (ruleGfInv_invalid hv hx)) ⟨rfl, rfl, rfl⟩,
    fun hv hx hnone => exec_of_error (hrun.trans (ruleGfInv_none hv hx (gfinv_eq_none.mpr hnone))) ⟨rfl, rfl, rfl⟩,
    fun p hv hx hp hmul hfirst =>
      exec_of_ok (hrun.trans (ruleGfInv_some hv hx (gfinv_eq_some.mpr ⟨hp, hmul, hfirst⟩))), fun P hwf hv => ?_⟩
  obtain ⟨h1, -, hadm⟩ := hwf.field hv
  have hone : 1 < 2 ^ s.gf.deg := Nat.one_lt_two_pow (by omega)
  refine ⟨fun h0 => ?_, fun h1 => ?_, fun p hx hp => gfinv_gfinv (topBit_of_admissible hadm) hx hp⟩
  · exact exec_of_error (hrun.trans (ruleGfInv_none hv (by omega) (by rw [h0, gfinv_zero]))) ⟨rfl, rfl, rfl⟩
  · exact exec_of_ok (hrun.trans (ruleGfInv_some hv (by omega) (by rw [h1, gfinv_one _ hone])))

/-! ### GF.DIV (R90) -/

section
variable {src : Source} {b : BitVec 32} {s : State}

theorem ruleGfDiv_unconfigured (hv : s.gf.valid = false) : ruleGfDiv src b s = .error gfNotConfigured := by
  simp [ruleGfDiv, hv]

theorem ruleGfDiv_divisor_invalid {mask : Nat} (hv : s.gf.valid = true) (hb : 2 ^ s.gf.deg ≤ b.toNat)
    (hm : invalidMask (2 ^ s.gf.deg) (opA src s) b.toNat = mask) : ruleGfDiv src b s = .error (invalidElement mask) := by
  simp [ruleGfDiv, hv, opB, hb, hm]

theorem ruleGfDiv_by_zero (hv : s.gf.valid = true) : ruleGfDiv src 0 s = .error gfNoInverse := by
  simp [ruleGfDiv, hv, opB]

theorem ruleGfDiv_dividend_invalid (hv : s.gf.valid = true) (hb0 : b.toNat ≠ 0) (hb : b.toNat < 2 ^ s.gf.deg)
    (hx : 2 ^ s.gf.deg ≤ opA src s) : ruleGfDiv src b s = .error (invalidElement 1) := by
  simp [ruleGfDiv, hv, opB, Nat.not_le.mpr hb, beq_eq_false_iff_ne.mpr hb0, hx]

theorem ruleGfDiv_some {p : Nat} (hv : s.gf.valid = true) (hb0 : b.toNat ≠ 0) (hb : b.toNat < 2 ^ s.gf.deg)
    (hx : opA src s < 2 ^ s.gf.deg) (hp : gfinv s.gf.deg s.gf.poly b.toNat = some p) :
    ruleGfDiv src b s = .ok (s.setRes (word (gfmul s.gf.deg s.gf.poly (opA src s) p)) 0) := by
  simp [ruleGfDiv, hv, opB, Nat.not_le.mpr hb, beq_eq_false_iff_ne.mpr hb0, Nat.not_le.mpr hx, hp]

end

theorem toNat_ne_zero {n : Nat} {x : BitVec n} (h : x ≠ 0) : x.toNat ≠ 0 := fun h0 => h (BitVec.eq_of_toNat_eq h0)

/-- Settles O26: the checks of `mult(a, inv(b))` in their order, then the product with the inverse the search answers. -/
theorem gfDivRule : Obligations.GfDivRule := by
  refine ⟨fun a b => (decode_toWord _).trans rfl, fun a b => (decode_toWord _).trans rfl, fun i x b s hi => ?_⟩
  obtain ⟨src, hrule, rfl⟩ := exists_source (P := Config.params) (rule := (ruleGfDiv · b)) (fun _ => rfl) rfl hi
  have hrun : commandRule Config.params i s = ruleGfDiv src b s := congrFun hrule s
  refine ⟨fun hv => exec_of_error (hrun.trans (ruleGfDiv_unconfigured hv)) ⟨rfl, rfl, rfl⟩,
    fun hv hb hx => exec_of_error (hrun.trans (ruleGfDiv_divisor_invalid hv hb (invalidMask_right hx hb))) ⟨rfl, rfl, rfl⟩,
    fun hv hb hx => exec_of_error (hrun.trans (ruleGfDiv_divisor_invalid hv hb (invalidMask_both hx hb))) ⟨rfl, rfl, rfl⟩,
    fun hv hb0 => ?_,
    fun hv hb0 hb hx => exec_of_error (hrun.trans (ruleGfDiv_dividend_invalid hv (toNat_ne_zero hb0) hb hx)) ⟨rfl, rfl, rfl⟩,
    fun p hv hb0 hb hx hp => ⟨exec_of_ok (hrun.trans (ruleGfDiv_some hv (toNat_ne_zero hb0) hb hx hp)), ?_, ?_, ?_⟩⟩
  · subst hb0
    exact exec_of_error (hrun.trans (ruleGfDiv_by_zero hv)) ⟨rfl, rfl, rfl⟩
  · intro h0
    rw [h0, zero_gfmul]
  · rintro rfl
    have hp1 : p = 1 := Option.some.inj (hp.symm.trans (gfinv_one _ hb))
    rw [hp1, gfmul_one hx]
  · intro hxb
    obtain ⟨-, hmul, -⟩ := gfinv_eq_some.mp hp
    rw [hxb, gfmul_comm, hmul]

/-! ### Two commands in a row (R94) -/

/-- What a command leaves whose only result is `v`. -/
def State.withResult (s : State) (v : Nat) : State := (s.setRes (word v) 0).success

@[simp] theorem State.withResult_gf (s : State) (v : Nat) : (s.withResult v).gf = s.gf := rfl

@[simp] theorem State.withResult_res0 (s : State) (v : Nat) : (s.withResult v).res0 = word v := rfl

/-- An element of a configured field fits RES0, so the next command reads it back. -/
theorem opA_res0_withResult {s : State} {d v : Nat} (hd : d ≤ 8) (hv : v < 2 ^ d) : opA .res0 (s.withResult v) = v :=
  word_toNat_of_lt (hv.trans_le (Nat.pow_le_pow_right (by decide) (by omega)))

/-- An element from field A as RES0 holds it. -/
theorem word_toNat_fieldA (a : BitVec 16) : word a.toNat = a.setWidth 32 := BitVec.ofNat_toNat 32 a

/-- Two commands that succeed one after the other, each with one result. -/
theorem exec_twice {i j : Instr} {s : State} {v : Nat} {r : Word}
    (hi : commandRule Config.params i s = .ok (s.setRes (word v) 0))
    (hj : commandRule Config.params j (s.withResult v) = .ok ((s.withResult v).setRes r 0)) :
    ∃ t u, exec i s = .next t ∧ exec j t = .next u ∧ u.Succeeded ∧ u.res0 = r :=
  ⟨s.withResult v, ((s.withResult v).setRes r 0).success, exec_of_ok hi, exec_of_ok hj, State.success_succeeded _, rfl⟩

theorem ruleGfAdd_passed {src : Source} {b : BitVec 32} {s : State} (hv : s.gf.valid = true) (hx : opA src s < 2 ^ s.gf.deg)
    (hb : b.toNat < 2 ^ s.gf.deg) : ruleGfAdd src b s = .ok (s.setRes (word (opA src s ^^^ b.toNat)) 0) :=
  (ruleGfAdd_eq_elementChecks src b s).trans (elementChecks_passed hv hx hb)

theorem ruleGfMul_passed {src : Source} {b : BitVec 32} {s : State} (hv : s.gf.valid = true) (hx : opA src s < 2 ^ s.gf.deg)
    (hb : b.toNat < 2 ^ s.gf.deg) :
    ruleGfMul src b s = .ok (s.setRes (word (gfmul s.gf.deg s.gf.poly (opA src s) b.toNat)) 0) :=
  (ruleGfMul_eq_elementChecks src b s).trans (elementChecks_passed hv hx hb)

section
variable {P : Params} {s : State} {a : BitVec 16} {b : BitVec 32} (hwf : s.gf.WellFormed P) (hv : s.gf.valid = true)
  (ha : a.toNat < 2 ^ s.gf.deg)
include hwf hv ha

/-- R94: division undoes multiplication. -/
theorem exec_gfMul_gfDivR (hb : b.toNat < 2 ^ s.gf.deg) (hb0 : b ≠ 0) :
    ∃ t u, exec (.gfMul a b) s = .next t ∧ exec (.gfDivR b) t = .next u ∧ u.Succeeded ∧ u.res0 = a.setWidth 32 := by
  obtain ⟨hd, hd8, hadm⟩ := hwf.field hv
  have hp := topBit_of_admissible hadm
  obtain ⟨p, hinv⟩ := exists_gfinv hd hadm (Nat.one_le_iff_ne_zero.mpr (toNat_ne_zero hb0)) hb
  obtain ⟨-, hpb⟩ := (gfinv_eq_some_iff hp).mp hinv
  have hprod := gfmul_lt hp a.toNat b.toNat
  have hread := opA_res0_withResult (s := s) hd8 hprod
  have hdiv := ruleGfDiv_some (s := s.withResult _) hv (toNat_ne_zero hb0) hb (hread.trans_lt hprod) hinv
  rw [hread, State.withResult_gf, gfmul_cancel_right hp ha hpb, word_toNat_fieldA] at hdiv
  exact exec_twice (i := .gfMul a b) (j := .gfDivR b) (ruleGfMul_passed hv ha hb) hdiv

/-- R94: the inverse times the element is 1. -/
theorem exec_gfInv_gfMulR (ha0 : a ≠ 0) :
    ∃ t u, exec (.gfInv a) s = .next t ∧ exec (.gfMulR (a.setWidth 32)) t = .next u ∧ u.Succeeded ∧ u.res0 = word 1 := by
  obtain ⟨hd, hd8, hadm⟩ := hwf.field hv
  have hwide : (a.setWidth 32).toNat = a.toNat := BitVec.toNat_setWidth_of_le (by decide)
  obtain ⟨p, hinv⟩ := exists_gfinv hd hadm (Nat.one_le_iff_ne_zero.mpr (toNat_ne_zero ha0)) ha
  obtain ⟨hplt, hpa⟩ := (gfinv_eq_some_iff (topBit_of_admissible hadm)).mp hinv
  have hread := opA_res0_withResult (s := s) hd8 hplt
  have hmul := ruleGfMul_passed (s := s.withResult _) hv (hread.trans_lt hplt) (hwide.trans_lt ha)
  rw [hread, hwide, State.withResult_gf, hpa] at hmul
  exact exec_twice (i := .gfInv a) (j := .gfMulR (a.setWidth 32)) (ruleGfInv_some hv ha hinv) hmul

/-- R94: addition is its own inverse. -/
theorem exec_gfAdd_gfAddR (hb : b.toNat < 2 ^ s.gf.deg) :
    ∃ t u, exec (.gfAdd a b) s = .next t ∧ exec (.gfAddR b) t = .next u ∧ u.Succeeded ∧ u.res0 = a.setWidth 32 := by
  obtain ⟨-, hd8, -⟩ := hwf.field hv
  have hsum := Nat.xor_lt_two_pow ha hb
  have hread := opA_res0_withResult (s := s) hd8 hsum
  have hadd := ruleGfAdd_passed (s := s.withResult _) hv (hread.trans_lt hsum) hb
  rw [hread, Nat.xor_xor_cancel_right, word_toNat_fieldA] at hadd
  exact exec_twice (i := .gfAdd a b) (j := .gfAddR b) (ruleGfAdd_passed hv ha hb) hadd

end

/-- Settles O33: RES0 carries the first command's result, an element, to the second, and the field's inverse undoes it. -/
theorem gfCommandIdentities : Obligations.GfCommandIdentities :=
  fun _ _ _ _ hwf hv ha hb =>
    ⟨exec_gfMul_gfDivR hwf hv ha hb, exec_gfInv_gfMulR hwf hv ha, exec_gfAdd_gfAddR hwf hv ha hb⟩

end Sys2Proof.Machine
end

section
/-!
SUPPORT. The outcomes of the dispatch (R100), one lemma for each. Family 42_quasigroup.md.
-/

namespace Sys2Proof.Machine

section
variable {P : Params} {n : Nat}

theorem classify_zero (h : n < 1) : classify P n = .error (unsupportedOrder 1) := by simp [classify_eq, h]

theorem classify_one_two (h : n = 1 ∨ n = 2) : classify P n = .error (unsupportedOrder 2) := by
  obtain rfl | rfl := h <;> rfl

theorem classify_six : classify P 6 = .error (unsupportedOrder 3) := rfl

theorem classify_ten : classify P 10 = .ok ⟨true, .fixed10, 10, 0, 0, 0⟩ := rfl

/-- The odd multiples of 2 but 2, 6 and 10 have no construction, at any size. -/
theorem classify_twice_odd (h : n % 4 = 2) (h2 : n ≠ 2) (h6 : n ≠ 6) (h10 : n ≠ 10) :
    classify P n = .error (unsupportedOrder 4) := by
  simp [classify_eq, h, h6, h10, show ¬ n < 1 by omega, show ¬ n ≤ 2 by omega, show ¬ n % 2 = 1 by omega]

/-- Every other order above N_MAX has a construction, and fails for its size. -/
theorem classify_large (h : n % 4 ≠ 2) (hmax : 256 < n) : classify P n = .error (unsupportedOrder 5) := by
  simp [classify_eq, h, hmax, show ¬ n < 1 by omega, show ¬ n ≤ 2 by omega, show n ≠ 6 by omega]

theorem classify_odd (h : n % 2 = 1) (h3 : 3 ≤ n) (hmax : n ≤ 256) : classify P n = .ok ⟨true, .odd, n, 0, n, 0⟩ := by
  simp [classify_eq, h, show ¬ n < 1 by omega, show ¬ n ≤ 2 by omega, show n ≠ 6 by omega, show n ≠ 10 by omega,
    Nat.not_lt.mpr hmax]

end

section
variable {P : Params} {d m : Nat}

/-- A multiple of 4 passes the tests before the last two, which are on its odd part. -/
theorem classify_mul_four (hd : 2 ≤ d) (hm : m % 2 = 1) (hmax : 2 ^ d * m ≤ 256) :
    classify P (2 ^ d * m) =
      .ok (if m = 1 then ⟨true, .pow2, 2 ^ d * m, d, 1, P.irred d⟩ else ⟨true, .composite, 2 ^ d * m, d, m, P.irred d⟩) := by
  obtain ⟨htwo, hodd⟩ := twoAdic_unique hm rfl
  have h4 : 2 ^ d * m % 4 = 0 := Nat.mod_eq_zero_of_dvd (Dvd.dvd.mul_right (pow_dvd_pow 2 hd) m)
  have hpos : 0 < 2 ^ d * m := Nat.mul_pos (Nat.two_pow_pos d) (by omega)
  rw [classify_eq, htwo, hodd]
  generalize 2 ^ d * m = n at *
  rw [if_neg (by omega), if_neg (by omega), if_neg (by omega), if_neg (by omega), if_neg (by omega), if_neg (by omega)]
  simp only [if_neg (Nat.not_lt.mpr hmax)]
  split <;> rfl

theorem classify_pow2 (hd : 2 ≤ d) (hmax : 2 ^ d ≤ 256) :
    classify P (2 ^ d) = .ok ⟨true, .pow2, 2 ^ d, d, 1, P.irred d⟩ := by
  simpa using classify_mul_four (P := P) (m := 1) hd rfl (by rwa [Nat.mul_one])

theorem classify_composite (hd : 2 ≤ d) (hm : m % 2 = 1) (h3 : 3 ≤ m) (hmax : 2 ^ d * m ≤ 256) :
    classify P (2 ^ d * m) = .ok ⟨true, .composite, 2 ^ d * m, d, m, P.irred d⟩ := by
  rw [classify_mul_four hd hm hmax, if_neg (by omega)]

end

end Sys2Proof.Machine
end

section
/-!
SUPPORT. The tables of the QG unit (R101): the odd-order table, the power-of-two table, and the direct product of two tables, which a
composite table is (R103). A law that holds for the first two and passes to direct products holds for every quasigroup the dispatch
builds. Family 42_quasigroup.md.
-/

namespace Sys2Proof.Machine

/-! ### The tables (R101, R103) -/

/-- R101, ODD. -/
def oddTable (n i j : Nat) : Nat := subMod n j i

/-- R101, POW2. -/
def pow2Table (d poly i j : Nat) : Nat := gfmul d poly 2 i ^^^ j

/-- R103: the coordinate-wise product of `T` on the quotients by `m` and `U` on the remainders. -/
def directProduct (m : Nat) (T U : Nat → Nat → Nat) (i j : Nat) : Nat := T (i / m) (j / m) * m + U (i % m) (j % m)

theorem qmult_eq_t10 (P : Params) (n d m poly : Nat) : qmult P ⟨true, .fixed10, n, d, m, poly⟩ = P.t10 := rfl

theorem qmult_eq_oddTable (P : Params) (n d m poly : Nat) : qmult P ⟨true, .odd, n, d, m, poly⟩ = oddTable n := rfl

theorem qmult_eq_pow2Table (P : Params) (n d m poly : Nat) : qmult P ⟨true, .pow2, n, d, m, poly⟩ = pow2Table d poly := rfl

theorem qmult_eq_directProduct (P : Params) (n d m poly : Nat) :
    qmult P ⟨true, .composite, n, d, m, poly⟩ = directProduct m (pow2Table d poly) (oddTable m) := rfl

/-- The table gives elements for elements. -/
def ClosedBelow (n : Nat) (T : Nat → Nat → Nat) : Prop := ∀ i, i < n → ∀ j, j < n → T i j < n

/-! ### The odd-order table -/

theorem oddTable_eq {n i j : Nat} (hi : i < n) (hj : j < n) : oddTable n i j = if i ≤ j then j - i else j + n - i := by
  rw [oddTable, subMod_eq hi]
  split
  next h => rw [Nat.sub_add_comm h, Nat.add_mod_right, Nat.mod_eq_of_lt (by omega)]
  next h => exact Nat.mod_eq_of_lt (by omega)

theorem oddTable_closed (n : Nat) : ClosedBelow n (oddTable n) := by
  intro i hi j hj
  rw [oddTable_eq hi hj]
  split <;> omega

theorem zero_oddTable {n j : Nat} (hj : j < n) : oddTable n 0 j = j := by
  rw [oddTable_eq (Nat.zero_lt_of_lt hj) hj, if_pos (Nat.zero_le j), Nat.sub_zero]

theorem oddTable_self {n k : Nat} (hk : k < n) : oddTable n k k = 0 := by
  rw [oddTable_eq hk hk, if_pos (le_refl k), Nat.sub_self]

/-! ### The power-of-two table -/

section
variable {d poly : Nat}

theorem zero_pow2Table (j : Nat) : pow2Table d poly 0 j = j := by rw [pow2Table, gfmul_zero, Nat.zero_xor]

theorem pow2Table_closed (hp : TopBit d poly) : ClosedBelow (2 ^ d) (pow2Table d poly) :=
  fun _ _ _ hj => Nat.xor_lt_two_pow (gfmul_lt hp _ _) hj

/-- R102: `x` is an element of the field and not the constant 1. -/
theorem two_lt_two_pow (hd : 2 ≤ d) : 2 < 2 ^ d :=
  (by decide : 2 < 2 ^ 2).trans_le (Nat.pow_le_pow_right (by decide) hd)

variable (hd : 2 ≤ d) (hadm : Admissible d poly)
include hd hadm

/-- Multiplication by `x` loses nothing: `x` has an inverse in the field. -/
theorem gfmul_two_injective {i j : Nat} (hi : i < 2 ^ d) (hj : j < 2 ^ d) (h : gfmul d poly 2 i = gfmul d poly 2 j) : i = j := by
  have hp := topBit_of_admissible hadm
  obtain ⟨xi, -, hxi⟩ := exists_inverse (by omega) hadm (by decide) (two_lt_two_pow hd)
  rw [gfmul_comm d poly 2, gfmul_comm d poly 2] at h
  rw [← gfmul_cancel_right hp hi hxi, h, gfmul_cancel_right hp hj hxi]

/-- Multiplication by `x` moves every element but 0: in the row of another element, the product with 1 stands at 1 alone. -/
theorem eq_zero_of_gfmul_two {i : Nat} (hi : i < 2 ^ d) (h : gfmul d poly 2 i = i) : i = 0 := by
  by_contra hne
  have hi0 : 1 ≤ i := Nat.one_le_iff_ne_zero.mpr hne
  obtain ⟨u, -, -, -, hunique⟩ := gfmul_row_bijective (by omega) hadm hi0 hi hi0 hi
  have h2 : 2 = u := hunique 2 (two_lt_two_pow hd) (by rw [gfmul_comm, h])
  have h1 : 1 = u := hunique 1 (Nat.one_lt_two_pow (by omega)) (gfmul_one hi)
  omega

end

/-! ### The direct product -/

/-- The pairing of R103: `q·m + r` has the quotient `q` and the remainder `r`. -/
theorem pair_div_mod {m q r : Nat} (hr : r < m) : (q * m + r) / m = q ∧ (q * m + r) % m = r := by
  rw [Nat.add_comm, Nat.add_mul_div_right _ _ (Nat.zero_lt_of_lt hr), Nat.add_mul_mod_self_right, Nat.div_eq_of_lt hr,
    Nat.mod_eq_of_lt hr]
  exact ⟨Nat.zero_add q, rfl⟩

theorem pair_lt {n m q r : Nat} (hq : q < n) (hr : r < m) : q * m + r < n * m :=
  calc q * m + r < q * m + m := Nat.add_lt_add_left hr _
    _ = (q + 1) * m := (Nat.succ_mul q m).symm
    _ ≤ n * m := Nat.mul_le_mul_right m hq

/-- An element of the product has its coordinates in the factors. -/
theorem coordinates_lt {n m k : Nat} (hk : k < n * m) : k / m < n ∧ k % m < m := by
  have hm : 0 < m := Nat.pos_of_mul_pos_left (Nat.zero_lt_of_lt hk)
  exact ⟨Nat.div_lt_of_lt_mul (by rwa [Nat.mul_comm]), Nat.mod_lt k hm⟩

theorem eq_of_coordinates {m i j : Nat} (hq : i / m = j / m) (hr : i % m = j % m) : i = j := by
  rw [← Nat.div_add_mod i m, hq, hr, Nat.div_add_mod]

section
variable {n m : Nat} {T U : Nat → Nat → Nat}

theorem directProduct_pair {q₁ r₁ q₂ r₂ : Nat} (h₁ : r₁ < m) (h₂ : r₂ < m) :
    directProduct m T U (q₁ * m + r₁) (q₂ * m + r₂) = T q₁ q₂ * m + U r₁ r₂ := by
  obtain ⟨hq₁, hr₁⟩ := pair_div_mod (q := q₁) h₁
  obtain ⟨hq₂, hr₂⟩ := pair_div_mod (q := q₂) h₂
  rw [directProduct, hq₁, hr₁, hq₂, hr₂]

variable (hU : ClosedBelow m U)
include hU

/-- The coordinates of a product are the products of the coordinates. -/
theorem directProduct_coordinates {i j : Nat} (hi : i < n * m) (hj : j < n * m) :
    directProduct m T U i j / m = T (i / m) (j / m) ∧ directProduct m T U i j % m = U (i % m) (j % m) :=
  pair_div_mod (hU _ (coordinates_lt hi).2 _ (coordinates_lt hj).2)

theorem directProduct_closed (hT : ClosedBelow n T) : ClosedBelow (n * m) (directProduct m T U) := by
  intro i hi j hj
  obtain ⟨hqi, hri⟩ := coordinates_lt hi
  obtain ⟨hqj, hrj⟩ := coordinates_lt hj
  exact pair_lt (hT _ hqi _ hqj) (hU _ hri _ hrj)

/-- Two products are equal when their coordinates are. -/
theorem directProduct_eq_iff {i j k l : Nat} (hi : i < n * m) (hj : j < n * m) (hk : k < n * m) (hl : l < n * m) :
    directProduct m T U i j = directProduct m T U k l ↔
      T (i / m) (j / m) = T (k / m) (l / m) ∧ U (i % m) (j % m) = U (k % m) (l % m) := by
  obtain ⟨hq, hr⟩ := directProduct_coordinates (T := T) hU hi hj
  obtain ⟨hq', hr'⟩ := directProduct_coordinates (T := T) hU hk hl
  constructor
  · intro h
    rw [← hq, ← hr, ← hq', ← hr', h]
    exact ⟨rfl, rfl⟩
  · rintro ⟨hT, hU⟩
    rw [directProduct, directProduct, hT, hU]

end

/-! ### A law of every quasigroup the dispatch builds -/

/-- R103: a law of the table T10, of the odd-order and the power-of-two tables and of direct products of tables that have it is one of
every quasigroup that is built. -/
theorem built_law {P : Params} {n : Nat} {c : QgContext} {law : Nat → (Nat → Nat → Nat) → Prop} (h : classify P n = .ok c)
    (hfixed : c.strat = .fixed10 → law 10 P.t10) (hodd : ∀ m, m % 2 = 1 → law m (oddTable m))
    (hpow2 : ∀ d poly, 2 ≤ d → Admissible d poly → law (2 ^ d) (pow2Table d poly))
    (hprod : ∀ q m T U, ClosedBelow q T → ClosedBelow m U → law q T → law m U → law (q * m) (directProduct m T U)) :
    law n (qmult P c) := by
  obtain ⟨-, -, ⟨rfl, rfl⟩ | ⟨hn, rfl⟩ | ⟨d, hd, hd8, rfl, rfl⟩ | ⟨d, m, hd, hd8, hm, -, rfl, rfl⟩⟩ := classify_eq_ok h
  · rw [qmult_eq_t10]
    exact hfixed rfl
  · rw [qmult_eq_oddTable]
    exact hodd n hn
  · rw [qmult_eq_pow2Table]
    exact hpow2 d _ hd (P.irred_admissible d (by omega) hd8)
  · have hadm := P.irred_admissible d (by omega) hd8
    rw [qmult_eq_directProduct]
    exact hprod _ m _ _ (pow2Table_closed (topBit_of_admissible hadm)) (oddTable_closed m) (hpow2 d _ hd hadm) (hodd m hm)

/-- R101: the product of two elements is an element. -/
theorem qmult_closed {P : Params} {n : Nat} {c : QgContext} (h : classify P n = .ok c) : ClosedBelow n (qmult P c) :=
  built_law h (fun _ => P.t10_lt) (fun m _ => oddTable_closed m) (fun _ _ _ hadm => pow2Table_closed (topBit_of_admissible hadm))
    (fun _ _ _ _ hT hU _ _ => directProduct_closed hU hT)

/-- R105: but for FIXED10, 0 is a left identity. -/
theorem zero_qmult {P : Params} {n : Nat} {c : QgContext} (h : classify P n = .ok c) (hc : c.strat ≠ .fixed10) :
    ∀ j, j < n → qmult P c 0 j = j :=
  built_law (law := fun n T => ∀ j, j < n → T 0 j = j) h (fun h10 => absurd h10 hc) (fun _ _ _ => zero_oddTable)
    (fun _ _ _ _ j _ => zero_pow2Table j) fun q m T U _ _ hT hU j hj => by
      obtain ⟨hq, hr⟩ := coordinates_lt hj
      rw [directProduct, Nat.zero_div, Nat.zero_mod, hT _ hq, hU _ hr, Nat.div_add_mod']

/-- Settles O37: each strategy's table by its closed form; an order below 2^d·m bounds the quotients. -/
theorem quasigroupMultiplication : Obligations.QuasigroupMultiplication := by
  intro P n c h i j hi hj
  refine ⟨qmult_closed h i hi j hj, ?_⟩
  obtain ⟨-, -, ⟨rfl, rfl⟩ | ⟨-, rfl⟩ | ⟨d, hd, -, rfl, rfl⟩ | ⟨d, m, hd, -, -, hm3, rfl, rfl⟩⟩ := classify_eq_ok h
  · exact ⟨fun _ => rfl, nofun, nofun, nofun⟩
  · exact ⟨nofun, fun _ => qmult_odd hi, nofun, nofun⟩
  · exact ⟨nofun, nofun, fun _ => ⟨rfl, hd, two_lt_two_pow hd, hi, hj, rfl⟩, nofun⟩
  · obtain ⟨hqi, hri⟩ := coordinates_lt hi
    obtain ⟨hqj, -⟩ := coordinates_lt hj
    refine ⟨nofun, nofun, nofun, fun _ => ⟨hd, two_lt_two_pow hd, hqi, hqj, ?_⟩⟩
    rw [qmult_eq_directProduct, directProduct, oddTable, subMod_eq hri]
    rfl

end Sys2Proof.Machine
end

section
/-!
SUPPORT. The laws of the quasigroups (R103, R108 to R111), each proved for the odd-order and the power-of-two table and for a direct
product, and so for every quasigroup the dispatch builds. Family 42_quasigroup.md.
-/

namespace Sys2Proof.Machine

/-! ### The factors of a composite quasigroup (R103) -/

/-- Settles O38: the coordinates of a pair are the pair, and the two factors are within N_MAX where their product is. -/
theorem compositeIsDirectProduct : Obligations.CompositeIsDirectProduct := by
  intro P n c h hc
  obtain ⟨-, hmax, ⟨-, rfl⟩ | ⟨-, rfl⟩ | ⟨d, -, -, -, rfl⟩ | ⟨d, m, hd, hd8, hm, hm3, rfl, rfl⟩⟩ := classify_eq_ok h
  · cases hc
  · cases hc
  · cases hc
  have hdmax : 2 ^ d ≤ 256 := Nat.pow_le_pow_right (by decide) hd8
  have hmmax : m ≤ 256 := (Nat.le_mul_of_pos_left m (Nat.two_pow_pos d)).trans hmax
  refine ⟨rfl, hm, hm3, fun k hk => ⟨(coordinates_lt hk).1, Nat.div_add_mod' k m⟩, _, _, classify_pow2 hd hdmax, rfl,
    classify_odd hm hm3 hmmax, rfl, fun q₁ r₁ q₂ r₂ hq₁ hr₁ hq₂ hr₂ => ?_⟩
  obtain ⟨hdiv, hmod⟩ := pair_div_mod (q := q₁) hr₁
  exact ⟨pair_lt hq₁ hr₁, hdiv, hmod, directProduct_pair (T := pow2Table d (P.irred d)) (U := oddTable m) hr₁ hr₂⟩

/-! ### The Latin property (R108) -/

/-- Below a bound, a function that stays there and takes no value twice takes every value. -/
theorem bijectiveBelow_of_injective {n : Nat} {f : Nat → Nat} (hmap : ∀ j, j < n → f j < n)
    (hinj : ∀ j, j < n → ∀ k, k < n → f j = f k → j = k) : BijectiveBelow n f := by
  refine ⟨hmap, hinj, fun v hv => ?_⟩
  have hsurj := Finset.surjOn_of_injOn_of_card_le (s := Finset.range n) (t := Finset.range n) f
    (fun j hj => by simpa using hmap j (by simpa using hj))
    (fun j hj k hk => hinj j (by simpa using hj) k (by simpa using hk)) le_rfl
  simpa using hsurj (by simpa using hv : v ∈ (Finset.range n : Set Nat))

/-- No row of the table takes a value twice. -/
def RowsCancel (n : Nat) (T : Nat → Nat → Nat) : Prop := ∀ i, i < n → ∀ j, j < n → ∀ k, k < n → T i j = T i k → j = k

/-- No row and no column takes a value twice. -/
def Cancels (n : Nat) (T : Nat → Nat → Nat) : Prop := RowsCancel n T ∧ RowsCancel n (flip T)

theorem latinSquare_of_cancels {n : Nat} {T : Nat → Nat → Nat} (hT : ClosedBelow n T) (h : Cancels n T) : LatinSquare n T := by
  obtain ⟨hrow, hcol⟩ := h
  exact ⟨fun i hi => bijectiveBelow_of_injective (hT i hi) (hrow i hi),
    fun j hj => bijectiveBelow_of_injective (fun i hi => hT i hi j hj) (hcol j hj)⟩

theorem cancels_of_latinSquare {n : Nat} {T : Nat → Nat → Nat} (h : LatinSquare n T) : Cancels n T := by
  obtain ⟨hrow, hcol⟩ := h
  constructor
  · intro i hi
    obtain ⟨-, hinj, -⟩ := hrow i hi
    exact hinj
  · intro j hj
    obtain ⟨-, hinj, -⟩ := hcol j hj
    exact hinj

theorem oddTable_cancels (n : Nat) : Cancels n (oddTable n) := by
  constructor
  · intro i hi j hj k hk h
    rw [oddTable_eq hi hj, oddTable_eq hi hk] at h
    split at h <;> split at h <;> omega
  · intro j hj i hi k hk h
    rw [flip, flip, oddTable_eq hi hj, oddTable_eq hk hj] at h
    split at h <;> split at h <;> omega

theorem pow2Table_cancels {d poly : Nat} (hd : 2 ≤ d) (hadm : Admissible d poly) : Cancels (2 ^ d) (pow2Table d poly) :=
  ⟨fun _ _ _ _ _ _ h => Nat.xor_right_injective h,
    fun _ _ _ hi _ hk h => gfmul_two_injective hd hadm hi hk (Nat.xor_left_injective h)⟩

theorem directProduct_rowsCancel {n m : Nat} {T U : Nat → Nat → Nat} (hU : ClosedBelow m U) (hT' : RowsCancel n T)
    (hU' : RowsCancel m U) : RowsCancel (n * m) (directProduct m T U) := by
  intro i hi j hj k hk h
  obtain ⟨hq, hr⟩ := (directProduct_eq_iff hU hi hj hi hk).mp h
  obtain ⟨hqi, hri⟩ := coordinates_lt hi
  obtain ⟨hqj, hrj⟩ := coordinates_lt hj
  obtain ⟨hqk, hrk⟩ := coordinates_lt hk
  exact eq_of_coordinates (hT' _ hqi _ hqj _ hqk hq) (hU' _ hri _ hrj _ hrk hr)

/-- The columns of a direct product are the rows of the direct product of the flipped factors. -/
theorem directProduct_cancels {n m : Nat} {T U : Nat → Nat → Nat} (hU : ClosedBelow m U) (hT' : Cancels n T) (hU' : Cancels m U) :
    Cancels (n * m) (directProduct m T U) := by
  obtain ⟨hrowT, hcolT⟩ := hT'
  obtain ⟨hrowU, hcolU⟩ := hU'
  exact ⟨directProduct_rowsCancel hU hrowT hrowU,
    directProduct_rowsCancel (T := flip T) (U := flip U) (fun i hi j hj => hU j hj i hi) hcolT hcolU⟩

theorem qmult_cancels {P : Params} {n : Nat} {c : QgContext} (h : classify P n = .ok c) (h10 : c.strat = .fixed10 → P.T10Latin) :
    Cancels n (qmult P c) :=
  built_law h (fun hc => cancels_of_latinSquare (h10 hc)) (fun m _ => oddTable_cancels m) (fun _ _ => pow2Table_cancels)
    (fun _ _ _ _ _ => directProduct_cancels)

/-- Settles O39: differences and the inverse of `x` cancel, and a product cancels in each coordinate. -/
theorem latinProperty : Obligations.LatinProperty :=
  fun _ _ _ h h10 => latinSquare_of_cancels (qmult_closed h) (qmult_cancels h h10)

/-! ### Strong anti-symmetry (R110) -/

/-- A difference is its own negative modulo an odd number at 0 alone. -/
theorem oddTable_strong {n : Nat} (hn : n % 2 = 1) : StronglyAntiSymmetric n (oddTable n) := by
  intro i hi j hj hne h
  rw [oddTable_eq hi hj, oddTable_eq hj hi] at h
  split at h <;> split at h <;> omega

/-- If `2·i + j = 2·j + i` then multiplication by `x` leaves `i + j`. -/
theorem pow2Table_strong {d poly : Nat} (hd : 2 ≤ d) (hadm : Admissible d poly) :
    StronglyAntiSymmetric (2 ^ d) (pow2Table d poly) := by
  intro i hi j hj hne h
  have hfix : gfmul d poly 2 (i ^^^ j) = i ^^^ j := by
    rw [gfmul_xor (topBit_of_admissible hadm)]
    unfold pow2Table at h
    rw [← Nat.xor_eq_zero_iff] at h ⊢
    simpa only [Nat.xor_comm, Nat.xor_left_comm, Nat.xor_assoc] using h
  exact hne (Nat.xor_eq_zero_iff.mp (eq_zero_of_gfmul_two hd hadm (Nat.xor_lt_two_pow hi hj) hfix))

theorem directProduct_strong {n m : Nat} {T U : Nat → Nat → Nat} (hU : ClosedBelow m U) (hT' : StronglyAntiSymmetric n T)
    (hU' : StronglyAntiSymmetric m U) : StronglyAntiSymmetric (n * m) (directProduct m T U) := by
  intro i hi j hj hne h
  obtain ⟨hq, hr⟩ := (directProduct_eq_iff hU hi hj hj hi).mp h
  obtain ⟨hqi, hri⟩ := coordinates_lt hi
  obtain ⟨hqj, hrj⟩ := coordinates_lt hj
  exact hne (eq_of_coordinates (by_contra fun hne => hT' _ hqi _ hqj hne hq) (by_contra fun hne => hU' _ hri _ hrj hne hr))

theorem qmult_strong {P : Params} {n : Nat} {c : QgContext} (h : classify P n = .ok c) (hc : c.strat ≠ .fixed10) :
    StronglyAntiSymmetric n (qmult P c) :=
  built_law h (fun h10 => absurd h10 hc) (fun _ => oddTable_strong) (fun _ _ => pow2Table_strong)
    (fun _ _ _ _ _ => directProduct_strong)

/-- Settles O41: each construction by its own difference; in the reference table 0 and 9 commute. -/
theorem strongAntiSymmetry : Obligations.StrongAntiSymmetry :=
  ⟨fun _ _ _ => qmult_strong, fun h => h 0 (by decide) 9 (by decide) (by decide) rfl⟩

/-! ### Weak anti-symmetry (R109) -/

/-- The sides are `k − j + i` and `j − k + i` modulo `n`, and modulo an odd number doubling is injective. -/
theorem oddTable_weak {n : Nat} (hn : n % 2 = 1) : WeaklyAntiSymmetric n (oddTable n) := by
  intro i hi j hj k hk hne h
  rw [oddTable_eq (oddTable_closed n i hi j hj) hk, oddTable_eq (oddTable_closed n i hi k hk) hj, oddTable_eq hi hj,
    oddTable_eq hi hk] at h
  grind

/-- `2·(2·i + j) + k` and `2·(2·i + k) + j` share the term `4·i`, and the rest is strong anti-symmetry. -/
theorem pow2Table_weak {d poly : Nat} (hd : 2 ≤ d) (hadm : Admissible d poly) :
    WeaklyAntiSymmetric (2 ^ d) (pow2Table d poly) := by
  intro i _ j hj k hk hne h
  have hp := topBit_of_admissible hadm
  refine pow2Table_strong hd hadm j hj k hk hne (Nat.xor_right_injective (x := gfmul d poly 2 (gfmul d poly 2 i)) ?_)
  simpa only [pow2Table, gfmul_xor hp, Nat.xor_assoc] using h

theorem directProduct_weak {n m : Nat} {T U : Nat → Nat → Nat} (hT : ClosedBelow n T) (hU : ClosedBelow m U)
    (hT' : WeaklyAntiSymmetric n T) (hU' : WeaklyAntiSymmetric m U) : WeaklyAntiSymmetric (n * m) (directProduct m T U) := by
  intro i hi j hj k hk hne h
  have hclosed := directProduct_closed hU hT
  obtain ⟨hq, hr⟩ := (directProduct_eq_iff hU (hclosed i hi j hj) hk (hclosed i hi k hk) hj).mp h
  obtain ⟨hqij, hrij⟩ := directProduct_coordinates (T := T) hU hi hj
  obtain ⟨hqik, hrik⟩ := directProduct_coordinates (T := T) hU hi hk
  rw [hqij, hqik] at hq
  rw [hrij, hrik] at hr
  obtain ⟨hqi, hri⟩ := coordinates_lt hi
  obtain ⟨hqj, hrj⟩ := coordinates_lt hj
  obtain ⟨hqk, hrk⟩ := coordinates_lt hk
  exact hne (eq_of_coordinates (by_contra fun hne => hT' _ hqi _ hqj _ hqk hne hq)
    (by_contra fun hne => hU' _ hri _ hrj _ hrk hne hr))

/-- Settles O40: the two basic tables cancel a common term, and distinct elements of a product differ in a coordinate. -/
theorem weakAntiSymmetry : Obligations.WeakAntiSymmetry :=
  fun _ _ _ h h10 => built_law h h10 (fun _ => oddTable_weak) (fun _ _ => pow2Table_weak)
    (fun _ _ _ _ => directProduct_weak)

/-! ### The two searches (R106, R107, R111) -/

section
variable {P : Params} {c : QgContext} {k p : Nat}

theorem linv_of_unique (hp : p < c.order) (h : qmult P c p k = 0) (hunique : ∀ q, q < c.order → qmult P c q k = 0 → q = p) :
    linv P c k = some p :=
  linv_eq_some.mpr ⟨hp, h, fun q hq hqk => hq.ne (hunique q (hq.trans hp) hqk)⟩

theorem rsolve_of_unique (hp : p < c.order) (h : qmult P c k p = 0) (hunique : ∀ q, q < c.order → qmult P c k q = 0 → q = p) :
    rsolve P c k = some p :=
  rsolve_eq_some.mpr ⟨hp, h, fun q hq hkq => hq.ne (hunique q (hq.trans hp) hkq)⟩

variable {n : Nat} (h : classify P n = .ok c) (h10 : c.strat = .fixed10 → P.T10Latin) (hk : k < n) (hp : p < n)
include h h10 hk hp

/-- In a Latin square the search finds any left inverse. -/
theorem linv_of_qmult_eq_zero (h0 : qmult P c p k = 0) : linv P c k = some p := by
  obtain ⟨-, rfl⟩ := classify_valid_order h
  obtain ⟨-, hcol⟩ := qmult_cancels h h10
  exact linv_of_unique hp h0 fun q hq hqk => hcol k hk q hq p hp (hqk.trans h0.symm)

theorem rsolve_of_qmult_eq_zero (h0 : qmult P c k p = 0) : rsolve P c k = some p := by
  obtain ⟨-, rfl⟩ := classify_valid_order h
  obtain ⟨hrow, -⟩ := qmult_cancels h h10
  exact rsolve_of_unique hp h0 fun q hq hkq => hrow k hk q hq p hp (hkq.trans h0.symm)

end

/-- R107: every column of a Latin square holds 0, so every element has a left inverse. -/
theorem exists_linv {P : Params} {n k : Nat} {c : QgContext} (h : classify P n = .ok c) (h10 : c.strat = .fixed10 → P.T10Latin)
    (hk : k < n) : ∃ p, linv P c k = some p := by
  obtain ⟨-, hcol⟩ := latinProperty P n c h h10
  obtain ⟨-, -, hsurj⟩ := hcol k hk
  obtain ⟨p, hp, hpk⟩ := hsurj 0 (Nat.zero_lt_of_lt hk)
  exact ⟨p, linv_of_qmult_eq_zero h h10 hk hp hpk⟩

/-- R111, FIXED10. -/
theorem searches_fixed10 {P : Params} {k p : Nat} (hk : k < 10) (hp : p < 10) (hlatin : P.T10Latin) :
    (P.t10 p k = 0 → linv P ⟨true, .fixed10, 10, 0, 0, 0⟩ k = some p) ∧
      (P.t10 k p = 0 → rsolve P ⟨true, .fixed10, 10, 0, 0, 0⟩ k = some p) :=
  ⟨linv_of_qmult_eq_zero classify_ten (fun _ => hlatin) hk hp, rsolve_of_qmult_eq_zero classify_ten (fun _ => hlatin) hk hp⟩

/-- R111, ODD: every element is its own left inverse and right solution. -/
theorem searches_odd {P : Params} {n k : Nat} (hk : k < n) (h : classify P n = .ok ⟨true, .odd, n, 0, n, 0⟩) :
    linv P ⟨true, .odd, n, 0, n, 0⟩ k = some k ∧ rsolve P ⟨true, .odd, n, 0, n, 0⟩ k = some k :=
  ⟨linv_of_qmult_eq_zero h nofun hk hk (oddTable_self hk), rsolve_of_qmult_eq_zero h nofun hk hk (oddTable_self hk)⟩

/-- In the field of a power of two, `x` has the inverse that R111 names. -/
theorem exists_gfinv_two {d poly : Nat} (hd : 2 ≤ d) (hadm : Admissible d poly) :
    ∃ xi, gfinv d poly 2 = some xi ∧ ∀ q, q < 2 ^ d → gfmul d poly 2 (gfmul d poly xi q) = q := by
  have hp := topBit_of_admissible hadm
  obtain ⟨xi, hxi⟩ := exists_gfinv (by omega) hadm (by decide : 1 ≤ 2) (two_lt_two_pow hd)
  obtain ⟨-, hmul⟩ := (gfinv_eq_some_iff hp).mp hxi
  exact ⟨xi, hxi, fun q hq => by rw [← gfmul_assoc hp, gfmul_comm d poly 2, hmul, one_gfmul hq]⟩

theorem pow2Table_eq_zero_iff {d poly i j : Nat} : pow2Table d poly i j = 0 ↔ gfmul d poly 2 i = j := Nat.xor_eq_zero_iff

/-- R111, POW2. -/
theorem searches_pow2 {P : Params} {d k : Nat} (hd : 2 ≤ d) (hd8 : d ≤ 8) (hk : k < 2 ^ d)
    (h : classify P (2 ^ d) = .ok ⟨true, .pow2, 2 ^ d, d, 1, P.irred d⟩) :
    ∃ xi, gfinv d (P.irred d) 2 = some xi ∧
      linv P ⟨true, .pow2, 2 ^ d, d, 1, P.irred d⟩ k = some (gfmul d (P.irred d) xi k) ∧
      rsolve P ⟨true, .pow2, 2 ^ d, d, 1, P.irred d⟩ k = some (gfmul d (P.irred d) 2 k) := by
  have hadm := P.irred_admissible d (by omega) hd8
  have hp := topBit_of_admissible hadm
  obtain ⟨xi, hxi, hcancel⟩ := exists_gfinv_two hd hadm
  exact ⟨xi, hxi, linv_of_qmult_eq_zero h nofun hk (gfmul_lt hp _ _) (pow2Table_eq_zero_iff.mpr (hcancel k hk)),
    rsolve_of_qmult_eq_zero h nofun hk (gfmul_lt hp _ _) (pow2Table_eq_zero_iff.mpr rfl)⟩

/-- A product in a composite quasigroup is 0 where both coordinates are. -/
theorem directProduct_eq_zero_iff {m i j : Nat} {T U : Nat → Nat → Nat} (hm : m ≠ 0) :
    directProduct m T U i j = 0 ↔ T (i / m) (j / m) = 0 ∧ U (i % m) (j % m) = 0 := by
  simp [directProduct, hm]

/-- R111, COMPOSITE: the power-of-two forms on the quotient part; the remainder part is its own. -/
theorem searches_composite {P : Params} {d m k : Nat} (hd : 2 ≤ d) (hd8 : d ≤ 8) (hk : k < 2 ^ d * m)
    (h : classify P (2 ^ d * m) = .ok ⟨true, .composite, 2 ^ d * m, d, m, P.irred d⟩) :
    ∃ xi, gfinv d (P.irred d) 2 = some xi ∧
      linv P ⟨true, .composite, 2 ^ d * m, d, m, P.irred d⟩ k = some (gfmul d (P.irred d) xi (k / m) * m + k % m) ∧
      rsolve P ⟨true, .composite, 2 ^ d * m, d, m, P.irred d⟩ k = some (gfmul d (P.irred d) 2 (k / m) * m + k % m) := by
  have hadm := P.irred_admissible d (by omega) hd8
  have hp := topBit_of_admissible hadm
  obtain ⟨hq, hr⟩ := coordinates_lt hk
  have hm : m ≠ 0 := Nat.ne_zero_of_lt hr
  obtain ⟨xi, hxi, hcancel⟩ := exists_gfinv_two hd hadm
  refine ⟨xi, hxi, linv_of_qmult_eq_zero h nofun hk (pair_lt (gfmul_lt hp _ _) hr) ?_,
    rsolve_of_qmult_eq_zero h nofun hk (pair_lt (gfmul_lt hp _ _) hr) ?_⟩
  · obtain ⟨hdiv, hmod⟩ := pair_div_mod (q := gfmul d (P.irred d) xi (k / m)) hr
    rw [qmult_eq_directProduct, directProduct_eq_zero_iff hm, hdiv, hmod]
    exact ⟨pow2Table_eq_zero_iff.mpr (hcancel _ hq), oddTable_self hr⟩
  · obtain ⟨hdiv, hmod⟩ := pair_div_mod (q := gfmul d (P.irred d) 2 (k / m)) hr
    rw [qmult_eq_directProduct, directProduct_eq_zero_iff hm, hdiv, hmod]
    exact ⟨pow2Table_eq_zero_iff.mpr rfl, oddTable_self hr⟩

/-- A square is 0 in a power-of-two table at 0 alone, since `2·q + q = 0` means that multiplication by `x` leaves `q`. -/
theorem quotient_eq_zero_of_square {P : Params} {n k : Nat} {c : QgContext} (h : classify P n = .ok c)
    (hc : c.strat = .pow2 ∨ c.strat = .composite) (hk : k < n) (h0 : qmult P c k k = 0) : k / c.m = 0 := by
  obtain ⟨-, -, ⟨-, rfl⟩ | ⟨-, rfl⟩ | ⟨d, hd, hd8, rfl, rfl⟩ | ⟨d, m, hd, hd8, -, hm, rfl, rfl⟩⟩ := classify_eq_ok h
  · cases hc <;> contradiction
  · cases hc <;> contradiction
  all_goals have hadm := P.irred_admissible d (by omega) hd8
  · rw [Nat.div_one]
    exact eq_zero_of_gfmul_two hd hadm hk (pow2Table_eq_zero_iff.mp h0)
  · rw [qmult_eq_directProduct, directProduct_eq_zero_iff (by omega)] at h0
    obtain ⟨hq, -⟩ := h0
    exact eq_zero_of_gfmul_two hd hadm (coordinates_lt hk).1 (pow2Table_eq_zero_iff.mp hq)

/-- Where the two searches agree, the element they find is the element itself, by strong anti-symmetry. -/
theorem square_eq_zero_of_searches_eq {P : Params} {n k p : Nat} {c : QgContext} (h : classify P n = .ok c) (hc : c.strat ≠ .fixed10)
    (hk : k < n) (hlinv : linv P c k = some p) (hrsolve : rsolve P c k = some p) : qmult P c k k = 0 := by
  obtain ⟨-, rfl⟩ := classify_valid_order h
  obtain ⟨hp, hpk, -⟩ := linv_eq_some.mp hlinv
  obtain ⟨-, hkp, -⟩ := rsolve_eq_some.mp hrsolve
  obtain rfl : p = k := by_contra fun hne => qmult_strong h hc p hp k hk hne (hpk.trans hkp.symm)
  exact hpk

/-- R111: the searches differ where the quotient part is not 0. -/
theorem linv_ne_rsolve {P : Params} {n k : Nat} {c : QgContext} (h : classify P n = .ok c)
    (hc : c.strat = .pow2 ∨ c.strat = .composite) (hk : k < n) (hq : k / c.m ≠ 0) : linv P c k ≠ rsolve P c k := by
  intro heq
  have hc10 : c.strat ≠ .fixed10 := by
    rintro h10
    rw [h10] at hc
    cases hc <;> contradiction
  obtain ⟨p, hp⟩ := exists_linv h (fun h10 => absurd h10 hc10) hk
  exact hq (quotient_eq_zero_of_square h hc hk (square_eq_zero_of_searches_eq h hc10 hk hp (heq.symm.trans hp)))

/-- R111: the reference table is 0 on its diagonal and nowhere else. -/
theorem referenceT10_eq_zero_iff : ∀ i, i < 10 → ∀ j, j < 10 → (Params.reference.t10 i j = 0 ↔ i = j) := by decide

/-- Settles O42: each closed form is an element whose product is 0, and a Latin square has only one. -/
theorem inverseSearchClosedForms : Obligations.InverseSearchClosedForms := by
  constructor
  · intro P n c h k hk
    have hdiffer : c.strat = .pow2 ∨ c.strat = .composite → k / c.m ≠ 0 → linv P c k ≠ rsolve P c k :=
      fun hc => linv_ne_rsolve h hc hk
    obtain ⟨-, -, ⟨rfl, rfl⟩ | ⟨-, rfl⟩ | ⟨d, hd, hd8, rfl, rfl⟩ | ⟨d, m, hd, hd8, -, -, rfl, rfl⟩⟩ := classify_eq_ok h
    · exact ⟨nofun, nofun, nofun, hdiffer, fun _ hlatin p hp => searches_fixed10 hk hp hlatin⟩
    · exact ⟨fun _ => searches_odd hk h, nofun, nofun, hdiffer, nofun⟩
    · exact ⟨nofun, fun _ => searches_pow2 hd hd8 hk h, nofun, hdiffer, nofun⟩
    · exact ⟨nofun, nofun, fun _ => searches_composite hd hd8 hk h, hdiffer, nofun⟩
  · intro c h k hk
    obtain rfl : c = _ := Except.ok.inj (h.symm.trans classify_ten)
    have hdiagonal := (referenceT10_eq_zero_iff k hk k hk).mpr rfl
    exact ⟨hdiagonal, linv_of_unique hk hdiagonal fun q hq => (referenceT10_eq_zero_iff q hq k hk).mp,
      rsolve_of_unique hk hdiagonal fun q hq hkq => ((referenceT10_eq_zero_iff k hk q hq).mp hkq).symm⟩

end Sys2Proof.Machine
end

section
/-!
SUPPORT. The commands of the QG unit (R104, R105, R107): each rule's checks in their order, and its result by the laws of the quasigroup.
Family 42_quasigroup.md.
-/

namespace Sys2Proof.Machine

/-! ### QG.BUILD (R104) -/

section
variable {a : BitVec 16} {n : Nat} {s : State} (ha : a.toNat = n)
include ha

theorem exec_qgBuild_unsupported {detail : Nat} (h : classify Config.params n = .error (unsupportedOrder detail)) :
    exec (.qgBuild a) s = .next (s.failure 3 detail 0) := by
  refine exec_of_error (f := unsupportedOrder detail) ?_ ⟨rfl, rfl, rfl⟩
  rw [commandRule, ruleQgBuild, opA_field, ha, h]

theorem exec_qgBuild_built {c : QgContext} (h : classify Config.params n = .ok c) :
    exec (.qgBuild a) s =
      .next { s.success with qg := c, dmValid := false, res0 := word c.strat.code, res1 := word c.order } := by
  subst ha
  exact exec_of_ok (i := .qgBuild a) (ruleQgBuild_eq_ok.mpr ⟨c, h, rfl⟩)

end

/-- Settles O34: the command follows the dispatch, which is said above for each case of the order. -/
theorem qgBuildRule : Obligations.QgBuildRule := by
  refine ⟨fun a b => (decode_toWord _).trans rfl, fun a s => ⟨fun h => exec_qgBuild_unsupported rfl (classify_zero h),
    fun h => exec_qgBuild_unsupported rfl (classify_one_two h), fun h => exec_qgBuild_unsupported h classify_six,
    fun h h2 h6 h10 => exec_qgBuild_unsupported rfl (classify_twice_odd h h2 h6 h10),
    fun h hmax => exec_qgBuild_unsupported rfl (classify_large h hmax), fun h => exec_qgBuild_built h classify_ten,
    fun h h3 hmax => exec_qgBuild_built rfl (classify_odd h h3 hmax), fun d hd h hmax => ?_, fun d m hd hm h3 h hmax => ?_⟩⟩
  · rw [h] at hmax ⊢
    exact exec_qgBuild_built h (classify_pow2 hd hmax)
  · rw [h] at hmax ⊢
    exact exec_qgBuild_built h (classify_composite hd hm h3 hmax)

/-! ### QG.MUL (R105) -/

theorem ruleQgMul_eq_elementChecks (P : Params) (src : Source) (b : BitVec 32) (s : State) :
    ruleQgMul P src b s = elementChecks s.qg.valid qgNotConfigured s.qg.order (opA src s) b.toNat
      (.ok (s.setRes (word (qmult P s.qg (opA src s) b.toNat)) 0)) := rfl

/-- R26: a valid context is one the dispatch builds for its order. -/
theorem QgContext.WellFormed.built {P : Params} {c : QgContext} (h : c.WellFormed P) (hv : c.valid = true) :
    classify P c.order = .ok c := by
  rwa [QgContext.WellFormed, if_pos hv] at h

/-- Settles O35: the shared checks, then the product, of which 0 is a left identity. -/
theorem qgMulRule : Obligations.QgMulRule := by
  refine ⟨fun a b => (decode_toWord _).trans rfl, fun a b => (decode_toWord _).trans rfl, fun i x b s hi => ?_⟩
  obtain ⟨src, hrule, rfl⟩ := exists_source (P := Config.params) (rule := (ruleQgMul Config.params · b)) (fun _ => rfl) rfl hi
  obtain ⟨hunconf, hleft, hright, hboth, hok⟩ :=
    exec_elementChecks rfl ((congrFun hrule s).trans (ruleQgMul_eq_elementChecks Config.params src b s))
  refine ⟨hunconf, hleft, hright, hboth, fun hv hx hb => ⟨hok hv hx hb, fun hwf h0 h10 => ?_⟩⟩
  rw [h0]
  exact zero_qmult (hwf.built hv) h10 b.toNat hb

/-! ### QG.INV (R107) -/

section
variable {P : Params} {src : Source} {s : State}

theorem ruleQgInv_unconfigured (hv : s.qg.valid = false) : ruleQgInv P src s = .error qgNotConfigured := by
  simp [ruleQgInv, hv]

theorem ruleQgInv_invalid (hv : s.qg.valid = true) (hx : s.qg.order ≤ opA src s) :
    ruleQgInv P src s = .error { kind := .invalidElement, detail := 1 } := by
  simp [ruleQgInv, hv, hx]

theorem ruleQgInv_none (hv : s.qg.valid = true) (hx : opA src s < s.qg.order) (h : linv P s.qg (opA src s) = none) :
    ruleQgInv P src s = .error { kind := .noInverseExists, detail := 2 } := by
  simp [ruleQgInv, hv, Nat.not_le.mpr hx, h]

theorem ruleQgInv_some {p : Nat} (hv : s.qg.valid = true) (hx : opA src s < s.qg.order) (h : linv P s.qg (opA src s) = some p) :
    ruleQgInv P src s = .ok (s.setRes (word p) 0) := by
  simp [ruleQgInv, hv, Nat.not_le.mpr hx, h]

end

/-- R107: but for FIXED10, 0 is its own left inverse. -/
theorem linv_zero {P : Params} {n : Nat} {c : QgContext} (h : classify P n = .ok c) (h10 : c.strat ≠ .fixed10) :
    linv P c 0 = some 0 := by
  obtain ⟨hn, -⟩ := classify_eq_ok h
  have h0 : 0 < n := by omega
  exact linv_of_qmult_eq_zero h (fun hc => absurd hc h10) h0 h0 (zero_qmult h h10 0 h0)

/-- Settles O36: the two checks, then the search, whose answers for 0 and for the odd orders are the closed forms. -/
theorem qgInvRule : Obligations.QgInvRule := by
  refine ⟨fun a b => (decode_toWord _).trans rfl, fun a b => (decode_toWord _).trans rfl, fun i x s hi => ?_⟩
  obtain ⟨src, hrule, rfl⟩ := exists_source (P := Config.params) (rule := ruleQgInv Config.params) (fun _ => rfl) rfl hi
  have hrun : commandRule Config.params i s = ruleQgInv Config.params src s := congrFun hrule s
  have hfound : ∀ {p}, s.qg.valid = true → opA src s < s.qg.order → linv Config.params s.qg (opA src s) = some p →
      exec i s = .next { s.success with res0 := word p, res1 := 0 } :=
    fun hv hx h => exec_of_ok (hrun.trans (ruleQgInv_some hv hx h))
  refine ⟨fun hv => exec_of_error (hrun.trans (ruleQgInv_unconfigured hv)) ⟨rfl, rfl, rfl⟩,
    fun hv hx => exec_of_error (hrun.trans (ruleQgInv_invalid hv hx)) ⟨rfl, rfl, rfl⟩,
    fun hv hx hnone => exec_of_error (hrun.trans (ruleQgInv_none hv hx (linv_eq_none.mpr hnone))) ⟨rfl, rfl, rfl⟩,
    fun p hv hx hp hmul hfirst => hfound hv hx (linv_eq_some.mpr ⟨hp, hmul, hfirst⟩),
    fun hv hwf h10 h0 => ?_, fun hv hwf hodd hx => ?_⟩
  · obtain ⟨hn, -⟩ := classify_eq_ok (hwf.built hv)
    exact hfound hv (by omega) (by rw [h0]; exact linv_zero (hwf.built hv) h10)
  · obtain ⟨hforms, -⟩ := inverseSearchClosedForms
    obtain ⟨hself, -⟩ := hforms _ _ _ (hwf.built hv) _ hx
    obtain ⟨hlinv, -⟩ := hself hodd
    exact hfound hv hx hlinv

end Sys2Proof.Machine
end

section
/-!
SUPPORT. The left fold in a table (R121): it stays in the table, its steps cancel where the table's do, and so it tells two strings of indices
apart that differ in one entry or in the order of two neighbours. Family 43_damm.md.
-/

namespace Sys2Proof.Machine

section
variable {n : Nat} {T : Nat → Nat → Nat}

theorem foldl_lt (hT : ClosedBelow n T) : ∀ {ks : List Nat} {a : Nat}, a < n → (∀ k ∈ ks, k < n) → ks.foldl T a < n
  | [], _, ha, _ => ha
  | k :: ks, a, ha, hks => by
    obtain ⟨hk, hks⟩ := List.forall_mem_cons.mp hks
    rw [List.foldl_cons]
    exact foldl_lt hT (hT a ha k hk) hks

/-- Two folds of the same indices meet only if they start together: no column takes a value twice. -/
theorem foldl_cancel (hT : ClosedBelow n T) (hcol : RowsCancel n (flip T)) :
    ∀ {ks : List Nat} {a b : Nat}, a < n → b < n → (∀ k ∈ ks, k < n) → ks.foldl T a = ks.foldl T b → a = b
  | [], _, _, _, _, _, h => h
  | k :: ks, a, b, ha, hb, hks, h => by
    obtain ⟨hk, hks⟩ := List.forall_mem_cons.mp hks
    exact hcol k hk a ha b hb (foldl_cancel hT hcol (hT a ha k hk) (hT b hb k hk) hks h)

variable {a j k : Nat} {before after : List Nat} (hT : ClosedBelow n T) (hcancel : Cancels n T) (ha : a < n) (hj : j < n) (hk : k < n)
  (hbefore : ∀ i ∈ before, i < n) (hafter : ∀ i ∈ after, i < n)
include hT hcancel ha hj hk hbefore hafter

/-- R142: the row tells `j` from `k`, and the steps after it keep them apart. -/
theorem foldl_substitute_ne (hne : j ≠ k) : (before ++ j :: after).foldl T a ≠ (before ++ k :: after).foldl T a := by
  intro h
  obtain ⟨hrow, hcol⟩ := hcancel
  have hacc := foldl_lt hT ha hbefore
  simp only [List.foldl_append, List.foldl_cons] at h
  exact hne (hrow _ hacc j hj k hk (foldl_cancel hT hcol (hT _ hacc j hj) (hT _ hacc k hk) hafter h))

/-- R143: weak anti-symmetry tells the two orders apart, and the steps after them keep them apart. -/
theorem foldl_swap_ne (hweak : WeaklyAntiSymmetric n T) (hne : j ≠ k) :
    (before ++ j :: k :: after).foldl T a ≠ (before ++ k :: j :: after).foldl T a := by
  intro h
  obtain ⟨-, hcol⟩ := hcancel
  have hacc := foldl_lt hT ha hbefore
  simp only [List.foldl_append, List.foldl_cons] at h
  exact hweak _ hacc j hj k hk hne
    (foldl_cancel hT hcol (hT _ (hT _ hacc j hj) k hk) (hT _ (hT _ hacc k hk) j hj) hafter h)

end

end Sys2Proof.Machine
end

section
/-!
SUPPORT. The accumulator of the fold commands (R120, R121): the fold of the string's alphabet indices, when there is one, and its values for
the strings the statements speak of. Family 43_damm.md.
-/

namespace Sys2Proof.Machine

/-! ### The index of a code value (R120) -/

theorem indexOf_eq_idxOf {alpha : List Word} {c : Word} (h : c ∈ alpha) : indexOf alpha c = some (alpha.idxOf c) :=
  indexOf_eq_some.mpr ⟨List.getElem?_idxOf h, fun j hj hjc => by
    obtain ⟨_, hget⟩ := List.getElem?_eq_some_iff.mp hjc
    exact absurd hget (by simpa using List.not_of_lt_findIdx hj)⟩

theorem idxOf_of_nodup {alpha : List Word} {c : Word} {k : Nat} (hn : alpha.Nodup) (h : alpha[k]? = some c) : alpha.idxOf c = k :=
  Option.some.inj ((indexOf_eq_idxOf (List.mem_of_getElem? h)).symm.trans (indexOf_of_nodup hn h))

/-! ### The accumulator (R121) -/

/-- The left fold of the string's indices from 0. -/
def State.accumulator (P : Params) (s : State) : Nat := (s.str.map s.alpha.idxOf).foldl (qmult P s.qg) 0

/-- The index map fails on a string with a foreign entry. -/
theorem mem_of_indicesFrom_ok {alpha str : List Word} {pos : Nat} {ks : List Nat} (h : indicesFrom alpha pos str = .ok ks) :
    ∀ c ∈ str, c ∈ alpha := by
  intro c hc
  by_contra hforeign
  have hnone : none ∈ str.map (indexOf alpha) := List.mem_map.mpr ⟨c, hc, indexOf_eq_none.mpr hforeign⟩
  rw [indicesFrom_eq_ok.mp h] at hnone
  simp at hnone

theorem fold_of_members {P : Params} {s : State} (hmem : ∀ c ∈ s.str, c ∈ s.alpha) : fold P s = .ok (s.accumulator P) :=
  fold_eq_ok (by rw [List.map_map]; exact List.map_congr_left fun c hc => indexOf_eq_idxOf (hmem c hc))

/-- R121, R157: a fold command gets past its opening with a codec and a string of members, and then with this accumulator. -/
theorem folded_eq_ok_iff {P : Params} {s : State} {acc : Nat} :
    folded P s = .ok acc ↔ s.dmValid = true ∧ (∀ c ∈ s.str, c ∈ s.alpha) ∧ s.accumulator P = acc := by
  cases hv : s.dmValid with
  | false => simp [folded_without_codec hv]
  | true =>
    rw [folded_with_codec hv]
    constructor
    · intro h
      obtain ⟨ks, hks⟩ : ∃ ks, indicesFrom s.alpha 0 s.str = .ok ks := by
        cases hks : indicesFrom s.alpha 0 s.str with
        | error f => rw [fold, hks] at h; cases h
        | ok ks => exact ⟨ks, rfl⟩
      have hmem := mem_of_indicesFrom_ok hks
      exact ⟨rfl, hmem, Except.ok.inj ((fold_of_members hmem).symm.trans h)⟩
    · rintro ⟨-, hmem, rfl⟩
      exact fold_of_members hmem

theorem accumulator_append {P : Params} {s : State} {c : Word} :
    (s.setStr (s.str ++ [c])).accumulator P = qmult P s.qg (s.accumulator P) (s.alpha.idxOf c) := by
  simp [State.accumulator, List.foldl_append]

/-! ### In a well-formed state with a codec (R29) -/

section
variable {P : Params} {s : State} (hwf : s.WellFormed P) (hv : s.dmValid = true)
include hwf hv

theorem State.WellFormed.codec_built : classify P s.alpha.length = .ok s.qg := by
  obtain ⟨hqg, horder, -⟩ := hwf.codec hv
  rw [← horder]
  exact hwf.qg.built hqg

theorem State.WellFormed.alpha_nodup : s.alpha.Nodup := by
  obtain ⟨-, -, hnodup, -⟩ := hwf.codec hv
  exact hnodup

theorem State.WellFormed.order_eq : s.qg.order = s.alpha.length := by
  obtain ⟨-, horder, -⟩ := hwf.codec hv
  exact horder

theorem State.WellFormed.alpha_pos : 0 < s.alpha.length := by
  obtain ⟨h3, -⟩ := classify_eq_ok (hwf.codec_built hv)
  omega

end

theorem map_idxOf_lt {alpha str : List Word} (hmem : ∀ c ∈ str, c ∈ alpha) : ∀ k ∈ str.map alpha.idxOf, k < alpha.length := by
  simpa [List.idxOf_lt_length_iff] using hmem

section
variable {P : Params} {s : State} (hwf : s.WellFormed P) (hv : s.dmValid = true)
include hwf hv

theorem accumulator_lt (hmem : ∀ c ∈ s.str, c ∈ s.alpha) : s.accumulator P < s.alpha.length :=
  foldl_lt (qmult_closed (hwf.codec_built hv)) (hwf.alpha_pos hv) (map_idxOf_lt hmem)

variable {before after : List Word} {x y : Word} (hbefore : ∀ c ∈ before, c ∈ s.alpha) (hafter : ∀ c ∈ after, c ∈ s.alpha)
  (hx : x ∈ s.alpha) (hy : y ∈ s.alpha) (hne : x ≠ y)
include hbefore hafter hx hy hne

theorem accumulator_substitute_ne (h10 : s.qg.strat = .fixed10 → P.T10Latin) :
    (s.setStr (before ++ x :: after)).accumulator P ≠ (s.setStr (before ++ y :: after)).accumulator P := by
  have hbuilt := hwf.codec_built hv
  simp only [State.accumulator, State.setStr_str, State.setStr_alpha, State.setStr_qg, List.map_append, List.map_cons]
  exact foldl_substitute_ne (qmult_closed hbuilt) (qmult_cancels hbuilt h10) (hwf.alpha_pos hv) (List.idxOf_lt_length_of_mem hx)
    (List.idxOf_lt_length_of_mem hy) (map_idxOf_lt hbefore) (map_idxOf_lt hafter) (mt (List.idxOf_inj hx).mp hne)

theorem accumulator_swap_ne (h10 : s.qg.strat = .fixed10 → P.T10Latin ∧ P.T10WTA) :
    (s.setStr (before ++ x :: y :: after)).accumulator P ≠ (s.setStr (before ++ y :: x :: after)).accumulator P := by
  have hbuilt := hwf.codec_built hv
  simp only [State.accumulator, State.setStr_str, State.setStr_alpha, State.setStr_qg, List.map_append, List.map_cons]
  exact foldl_swap_ne (qmult_closed hbuilt) (qmult_cancels hbuilt fun hc => (h10 hc).left) (hwf.alpha_pos hv)
    (List.idxOf_lt_length_of_mem hx) (List.idxOf_lt_length_of_mem hy) (map_idxOf_lt hbefore) (map_idxOf_lt hafter)
    (weakAntiSymmetry P _ _ hbuilt fun hc => (h10 hc).right) (mt (List.idxOf_inj hx).mp hne)

end

/-! ### The check index (R106, R132) -/

theorem checkIndex_eq_ok_iff {P : Params} {s : State} {x : Nat} :
    checkIndex P s = .ok x ↔ ∃ acc, folded P s = .ok acc ∧ rsolve P s.qg acc = some x := by
  unfold checkIndex
  cases folded P s with
  | error f => simp
  | ok acc => cases hr : rsolve P s.qg acc <;> simp [hr]

/-- R106: every row of a Latin square holds 0, so every element has a right solution. -/
theorem exists_rsolve {P : Params} {n k : Nat} {c : QgContext} (h : classify P n = .ok c) (h10 : c.strat = .fixed10 → P.T10Latin)
    (hk : k < n) : ∃ x, rsolve P c k = some x := by
  obtain ⟨hrow, -⟩ := latinProperty P n c h h10
  obtain ⟨-, -, hsurj⟩ := hrow k hk
  obtain ⟨x, hx, hkx⟩ := hsurj 0 (Nat.zero_lt_of_lt hk)
  exact ⟨x, rsolve_of_qmult_eq_zero h h10 hk hx hkx⟩

/-- R111: but for FIXED10, 0 is its own right solution. -/
theorem rsolve_zero {P : Params} {n : Nat} {c : QgContext} (h : classify P n = .ok c) (h10 : c.strat ≠ .fixed10) :
    rsolve P c 0 = some 0 := by
  obtain ⟨hn, -⟩ := classify_eq_ok h
  have h0 : 0 < n := by omega
  exact rsolve_of_qmult_eq_zero h (fun hc => absurd hc h10) h0 h0 (zero_qmult h h10 0 h0)

theorem qmult_of_fixed10 {P : Params} {c : QgContext} (h : c.strat = .fixed10) : qmult P c = P.t10 := by
  funext i j
  rw [qmult, h]

/-- R136: for FIXED10 too, where the table has 0 as the product of 0 and 0. -/
theorem rsolve_zero_of_t10 {P : Params} {n : Nat} {c : QgContext} (h : classify P n = .ok c) (h10 : c.strat = .fixed10 → P.T10Latin)
    (hzero : c.strat ≠ .fixed10 ∨ P.t10 0 0 = 0) : rsolve P c 0 = some 0 := by
  obtain hstrat | ht10 := hzero
  · exact rsolve_zero h hstrat
  by_cases hfixed : c.strat = .fixed10
  · obtain ⟨hn, -⟩ := classify_eq_ok h
    have h0 : 0 < n := by omega
    exact rsolve_of_qmult_eq_zero h h10 h0 h0 (by rw [qmult_of_fixed10 hfixed, ht10])
  · exact rsolve_zero h hfixed

/-- R158: in a well-formed state a string of members has a check index. -/
theorem exists_checkIndex {P : Params} {s : State} (hwf : s.WellFormed P) (hv : s.dmValid = true)
    (h10 : s.qg.strat = .fixed10 → P.T10Latin) (hmem : ∀ c ∈ s.str, c ∈ s.alpha) : ∃ x, checkIndex P s = .ok x := by
  obtain ⟨x, hx⟩ := exists_rsolve (hwf.codec_built hv) h10 (accumulator_lt hwf hv hmem)
  exact ⟨x, checkIndex_eq_ok_iff.mpr ⟨_, folded_eq_ok_iff.mpr ⟨hv, hmem, rfl⟩, hx⟩⟩

/-- The check index is the position of an entry. -/
theorem exists_check_character {P : Params} {s : State} {x : Nat} (hwf : s.WellFormed P) (h : checkIndex P s = .ok x) :
    ∃ c, s.alpha[x]? = some c := by
  obtain ⟨acc, hacc, hx⟩ := checkIndex_eq_ok_iff.mp h
  obtain ⟨hv, -⟩ := folded_eq_ok_iff.mp hacc
  obtain ⟨hlt, -⟩ := rsolve_eq_some.mp hx
  exact ⟨_, List.getElem?_eq_getElem (hlt.trans_eq (hwf.order_eq hv))⟩

/-- R133: what DM.ENCODE writes, the check character `c` of index `x`. -/
def State.encoded (s : State) (c : Word) (x : Nat) : State := (s.setStr (s.str ++ [c])).setRes c (word x)

@[simp] theorem State.encoded_success_str (s : State) (c : Word) (x : Nat) : (s.encoded c x).success.str = s.str ++ [c] := rfl

/-- R141: the check character takes the accumulator to 0. -/
theorem folded_encoded {P : Params} {s : State} {x : Nat} {c : Word} (hwf : s.WellFormed P) (h : checkIndex P s = .ok x)
    (hc : s.alpha[x]? = some c) : folded P (s.encoded c x).success = .ok 0 := by
  obtain ⟨acc, hacc, hx⟩ := checkIndex_eq_ok_iff.mp h
  obtain ⟨hv, hmem, rfl⟩ := folded_eq_ok_iff.mp hacc
  obtain ⟨-, hzero, -⟩ := rsolve_eq_some.mp hx
  refine folded_eq_ok_iff.mpr ⟨hv, List.forall_mem_append.mpr ⟨hmem, List.forall_mem_singleton.mpr (List.mem_of_getElem? hc)⟩, ?_⟩
  calc (s.encoded c x).success.accumulator P
    _ = qmult P s.qg (s.accumulator P) (s.alpha.idxOf c) := accumulator_append (s := s) (c := c)
    _ = 0 := by rw [idxOf_of_nodup (hwf.alpha_nodup hv) hc, hzero]

end Sys2Proof.Machine
end

section
/-!
SUPPORT. The list commands, DM.INIT and the fold commands of the DM engine (R122 to R133): what each leaves, by the outcome of its checks, and
from that the statements about single commands. Family 43_damm.md.
-/

namespace Sys2Proof.Machine

/-! ### The list commands (R122 to R124, R127 to R129) -/

theorem ruleAlPush_full {b : BitVec 32} {s : State} (h : s.alpha.length = 256) : ruleAlPush b s = .error (bufferRange 1) := by
  simp [ruleAlPush, h, Config.nMax]

theorem ruleAlRd_past_end {a : BitVec 16} {s : State} (h : s.alpha.length ≤ a.toNat) : ruleAlRd a s = .error (bufferRange 2) := by
  simp [ruleAlRd, opA_field, h]

theorem ruleAlRd_entry {a : BitVec 16} {s : State} (h : a.toNat < s.alpha.length) :
    ruleAlRd a s = .ok (s.setRes s.alpha[a.toNat] 0) := by
  simp [ruleAlRd, opA_field, h]

/-- Settles O43: AL.PUSH by whether the list is full, AL.RD by whether the entry exists. -/
theorem alphabetListRules : Obligations.AlphabetListRules :=
  ⟨fun _ _ => (decode_toWord _).trans rfl, fun _ _ => (decode_toWord _).trans rfl, fun _ _ => (decode_toWord _).trans rfl,
    fun s a b => ⟨exec_of_ok (i := .alClr) (s := s) rfl,
      fun h => exec_of_error (i := .alPush b) (ruleAlPush_full h) ⟨rfl, rfl, rfl⟩,
      fun h => exec_of_ok (i := .alPush b) (ruleAlPush_eq_ok.mpr ⟨h, rfl⟩),
      fun h => exec_of_error (i := .alRd a) (ruleAlRd_past_end h) ⟨rfl, rfl, rfl⟩,
      fun h => exec_of_ok (i := .alRd a) (ruleAlRd_entry h)⟩⟩

theorem ruleStPush_full {b : BitVec 32} {s : State} (h : s.str.length = 256) : ruleStPush b s = .error (bufferRange 3) := by
  simp [ruleStPush, h, Config.sMax]

theorem ruleStRd_past_end {a : BitVec 16} {s : State} (h : s.str.length ≤ a.toNat) : ruleStRd a s = .error (bufferRange 4) := by
  simp [ruleStRd, opA_field, h]

theorem ruleStRd_entry {a : BitVec 16} {s : State} (h : a.toNat < s.str.length) :
    ruleStRd a s = .ok (s.setRes s.str[a.toNat] 0) := by
  simp [ruleStRd, opA_field, h]

/-- Settles O44: ST.PUSH by whether the list is full, ST.RD by whether the entry exists. -/
theorem stringListRules : Obligations.StringListRules :=
  ⟨fun _ _ => (decode_toWord _).trans rfl, fun _ _ => (decode_toWord _).trans rfl, fun _ _ => (decode_toWord _).trans rfl,
    fun s a b => ⟨exec_of_ok (i := .stClr) (s := s) rfl,
      fun h => exec_of_error (i := .stPush b) (ruleStPush_full h) ⟨rfl, rfl, rfl⟩,
      fun h => exec_of_ok (i := .stPush b) (ruleStPush_eq_ok.mpr ⟨h, rfl⟩),
      fun h => exec_of_error (i := .stRd a) (ruleStRd_past_end h) ⟨rfl, rfl, rfl⟩,
      fun h => exec_of_ok (i := .stRd a) (ruleStRd_entry h)⟩⟩

/-! ### DM.INIT (R125, R126) -/

/-- R153: a failure with a list position. -/
theorem exec_of_error_at {i : Instr} {s : State} {f : Failure} {code detail : Nat}
    (h : commandRule Config.params i s = .error f)
    (hf : f.kind.positional = true ∧ f.kind.code.toNat = code ∧ f.detail = detail) :
    exec i s = .next (s.failure code detail f.pos) := by
  obtain ⟨hpos, rfl, rfl⟩ := hf
  rw [exec_eq_execute, execute_error h, hpos]
  rfl

theorem ruleDmInit_eq_error {P : Params} {s : State} {f : Failure} :
    ruleDmInit P s = .error f ↔
      checkAlphabet s.alpha = some f ∨ checkAlphabet s.alpha = none ∧ classify P s.alpha.length = .error f := by
  unfold ruleDmInit
  cases checkAlphabet s.alpha with
  | some g => simp
  | none => cases classify P s.alpha.length <;> simp

theorem exec_dmInit_defect {s : State} {detail pos : Nat}
    (h : checkAlphabet s.alpha = some { kind := .invalidAlphabet, detail := detail, pos := pos }) :
    exec .dmInit s = .next (s.failure 5 detail pos) :=
  exec_of_error_at (i := .dmInit) (ruleDmInit_eq_error.mpr (.inl h)) ⟨rfl, rfl, rfl⟩

/-- R126: a failing DM.INIT finds no codec, and an alphabet within N_MAX is never too long for the dispatch. -/
theorem ruleDmInit_error_of_wellFormed {P : Params} {s : State} {f : Failure} (hwf : s.WellFormed P)
    (h : ruleDmInit P s = .error f) :
    s.dmValid = false ∧ (f.kind = .invalidAlphabet ∨ f.kind = .unsupportedOrder ∧ f.detail < 5) := by
  constructor
  · by_contra hv
    have hv : s.dmValid = true := by simpa using hv
    obtain ⟨-, -, hnodup, hchar⟩ := hwf.codec hv
    have hok := ruleDmInit_eq_ok.mpr ⟨checkAlphabet_eq_none.mpr ⟨hchar, hnodup⟩, _, hwf.codec_built hv, rfl⟩
    cases h.symm.trans hok
  · obtain hdefect | ⟨-, horder⟩ := ruleDmInit_eq_error.mp h
    · obtain ⟨hkind, -⟩ := alphabetDefect_eq_some hdefect
      exact .inl hkind
    · obtain ⟨hkind, -, h5, hlong⟩ := classify_eq_error horder
      have hlen : s.alpha.length ≤ 256 := hwf.alpha
      exact .inr ⟨hkind, by omega⟩

/-- Settles O45: the first defect of the alphabet decides, then the dispatch. -/
theorem dmInitRule : Obligations.DmInitRule := by
  refine ⟨fun _ _ => (decode_toWord _).trans rfl, fun s => ⟨fun j c hj hchar hnodup hc => ?_,
    fun j c hj hchar hnodup hc hdup => ?_, fun hchar hnodup => ?_, fun t hwf h hcode => ?_⟩⟩
  · exact exec_dmInit_defect (checkAlphabet_value hj hchar hnodup hc)
  · exact exec_dmInit_defect (checkAlphabet_duplicate hj hchar hnodup hc hdup)
  · have hpass := checkAlphabet_eq_none.mpr ⟨hchar, hnodup⟩
    refine ⟨fun f hf => ?_, fun c hc => exec_of_ok (i := .dmInit) (ruleDmInit_eq_ok.mpr ⟨hpass, c, hc, rfl⟩)⟩
    obtain ⟨hkind, -⟩ := classify_eq_error hf
    exact exec_of_error (i := .dmInit) (ruleDmInit_eq_error.mpr (.inr ⟨hpass, hf⟩)) (by rw [hkind]; exact ⟨rfl, rfl, rfl⟩)
  · obtain ⟨u, -, rfl⟩ | ⟨f, hf, rfl⟩ := execute_cases h
    · exact absurd (statusCode_statusWord _ _ _) hcode
    · obtain ⟨hv, hkind⟩ := ruleDmInit_error_of_wellFormed hwf hf
      refine ⟨hv, ?_⟩
      rw [raise_status, statusOnFailure, statusCode_statusWord, statusDetail_statusWord]
      rintro ⟨hcode3, hdetail⟩
      obtain hkind | ⟨-, hlt⟩ := hkind
      · rw [hkind] at hcode3
        cases hcode3
      · have h5 : f.detail % 2 ^ 8 = 5 := congrArg BitVec.toNat hdetail
        omega

/-! ### The outcomes of the fold commands (R130 to R133) -/

section
variable {P : Params} {s : State} {acc x : Nat} {c : Word}

/-- R130. -/
theorem execute_dmProcess (h : folded P s = .ok acc) (hc : s.alpha[acc]? = some c) :
    execute (ruleDmProcess P) s = .next (s.setRes c (word acc)).success := by
  refine execute_ok ?_
  rw [ruleDmProcess, h, ← State.alphaEntry_eq hc]

/-- R131. -/
theorem execute_dmVerify (h : folded P s = .ok acc) :
    execute (ruleDmVerify P) s = .next (s.setRes (if acc = 0 then 1 else 0) (word acc)).success := by
  refine execute_ok ?_
  rw [ruleDmVerify, h]

/-- R132. -/
theorem execute_dmCheck (h : checkIndex P s = .ok x) (hc : s.alpha[x]? = some c) :
    execute (ruleDmCheck P) s = .next (s.setRes c (word x)).success := by
  refine execute_ok ?_
  rw [ruleDmCheck, h, ← State.alphaEntry_eq hc]

/-- R133. -/
theorem execute_dmEncode (h : checkIndex P s = .ok x) (hc : s.alpha[x]? = some c) (hlen : s.str.length ≠ 256) :
    execute (ruleDmEncode P) s = .next (s.encoded c x).success := by
  refine execute_ok (ruleDmEncode_eq_ok.mpr ⟨x, h, hlen, ?_⟩)
  rw [State.alphaEntry_eq hc]
  rfl

theorem ruleDmEncode_full (h : checkIndex P s = .ok x) (hlen : s.str.length = 256) :
    ruleDmEncode P s = .error (bufferRange 3) := by
  simp [ruleDmEncode, h, hlen, Config.sMax]

/-- R132, R133: where there is no check index, DM.CHECK and DM.ENCODE fail with its failure. -/
theorem rule_of_checkIndex_error {f : Failure} (h : checkIndex P s = .error f) :
    ruleDmCheck P s = .error f ∧ ruleDmEncode P s = .error f := by
  simp [ruleDmCheck, ruleDmEncode, h]

/-- R121: where there is no accumulator, every fold command fails with its failure. -/
theorem commandRule_of_folded_error {i : Instr} {f : Failure} (hi : i ∈ [Instr.dmProcess, .dmVerify, .dmCheck, .dmEncode])
    (h : folded P s = .error f) : commandRule P i s = .error f := by
  obtain ⟨hcheck, hencode⟩ := rule_of_checkIndex_error (checkIndex_of_error h)
  simp only [List.mem_cons, List.not_mem_nil, or_false] at hi
  obtain rfl | rfl | rfl | rfl := hi
  · rw [commandRule, ruleDmProcess, h]
  · rw [commandRule, ruleDmVerify, h]
  · exact hcheck
  · exact hencode

end

/-- R157. -/
theorem exec_fold_unconfigured {i : Instr} {s : State} (hi : i ∈ [Instr.dmProcess, .dmVerify, .dmCheck, .dmEncode])
    (hv : s.dmValid = false) : exec i s = .next (s.failure 7 3 0) :=
  exec_of_error (commandRule_of_folded_error hi (folded_without_codec hv)) ⟨rfl, rfl, rfl⟩

/-- Settles O48: the index map stops at the first foreign entry, before any other check of a fold command. -/
theorem foreignCharacterRule : Obligations.ForeignCharacterRule := by
  intro i s pos c hi hv hpos hforeign hbefore
  have hfolded : folded Config.params s = .error { kind := .foreignCharacter, detail := 0, pos := pos } := by
    rw [folded_with_codec hv, fold, indicesFrom_foreign hforeign hpos hbefore, Nat.zero_add]
    rfl
  exact exec_of_error_at (commandRule_of_folded_error hi hfolded) ⟨rfl, rfl, rfl⟩

/-- The accumulator of a string given by the positions of its entries. -/
theorem folded_of_positions {P : Params} {s : State} {ks : List Nat} (hv : s.dmValid = true) (hn : s.alpha.Nodup)
    (h : s.str.map some = ks.map (fun k => s.alpha[k]?)) : folded P s = .ok (ks.foldl (qmult P s.qg) 0) :=
  (folded_with_codec hv).trans (fold_of_nodup hn h)

/-- R131: the entries are distinct, so only index 0 has the neutral element. -/
theorem eq_zero_iff_neutral {alpha : List Word} {acc : Nat} {c : Word} (hn : alpha.Nodup) (hc : alpha[acc]? = some c) :
    acc = 0 ↔ alpha[0]? = some c := by
  constructor
  · rintro rfl
    exact hc
  · intro h0
    exact (idxOf_of_nodup hn hc).symm.trans (idxOf_of_nodup hn h0)

/-- Settles O46: both commands report the accumulator. -/
theorem processAndVerifyRules : Obligations.ProcessAndVerifyRules := by
  refine ⟨fun _ _ => (decode_toWord _).trans rfl, fun _ _ => (decode_toWord _).trans rfl, fun s =>
    ⟨fun hv => ⟨exec_fold_unconfigured (by simp) hv, exec_fold_unconfigured (by simp) hv⟩,
      fun pos c hv hpos hforeign hbefore => ⟨foreignCharacterRule _ s pos c (by simp) hv hpos hforeign hbefore,
        foreignCharacterRule _ s pos c (by simp) hv hpos hforeign hbefore⟩,
      fun ks acc c hv hn hks hacc hc => ?_⟩⟩
  have hfolded : folded Config.params s = .ok acc := hacc ▸ folded_of_positions hv hn hks
  exact ⟨execute_dmProcess hfolded hc, execute_dmVerify hfolded, eq_zero_iff_neutral hn hc⟩

/-- R153: a command that succeeded made its rule's writes. -/
theorem execute_succeeded {rule : State → Result} {s t : State} (h : execute rule s = .next t) (ht : t.Succeeded) :
    ∃ u, rule s = .ok u ∧ t = u.success := by
  obtain hok | ⟨f, -, rfl⟩ := execute_cases h
  · exact hok
  · rw [State.Succeeded, raise_status, statusOnFailure, statusCode_statusWord] at ht
    exact absurd ht f.kind.code_range.1

/-- R133: but for FIXED10, an encoded string has accumulator 0, and so check index 0. -/
theorem checkIndex_encoded {P : Params} {s : State} {x : Nat} {c : Word} (hwf : s.WellFormed P) (h : checkIndex P s = .ok x)
    (hc : s.alpha[x]? = some c) (h10 : s.qg.strat ≠ .fixed10) : checkIndex P (s.encoded c x).success = .ok 0 := by
  obtain ⟨acc, hacc, -⟩ := checkIndex_eq_ok_iff.mp h
  obtain ⟨hv, -⟩ := folded_eq_ok_iff.mp hacc
  exact checkIndex_of_some (folded_encoded hwf h hc) (rsolve_zero (hwf.codec_built hv) h10)

/-- Settles O47: by whether the accumulator has a right solution; an encoded string has accumulator 0. -/
theorem checkAndEncodeRules : Obligations.CheckAndEncodeRules := by
  refine ⟨fun _ _ => (decode_toWord _).trans rfl, fun _ _ => (decode_toWord _).trans rfl, fun s =>
    ⟨fun hv => ⟨exec_fold_unconfigured (by simp) hv, exec_fold_unconfigured (by simp) hv⟩,
      fun pos c hv hpos hforeign hbefore => ⟨foreignCharacterRule _ s pos c (by simp) hv hpos hforeign hbefore,
        foreignCharacterRule _ s pos c (by simp) hv hpos hforeign hbefore⟩,
      fun t c hwf h10 hexec ht hlen hc => ?_, fun ks acc hv hn hks hacc => ?_⟩⟩
  · obtain ⟨u, hu, rfl⟩ := execute_succeeded hexec ht
    obtain ⟨x, hx, -, rfl⟩ := ruleDmEncode_eq_ok.mp hu
    obtain ⟨c', hc'⟩ := exists_check_character hwf hx
    rw [State.alphaEntry_eq hc'] at hlen ⊢
    exact execute_dmEncode (checkIndex_encoded hwf hx hc' h10) hc hlen.ne
  · have hfolded : folded Config.params s = .ok acc := hacc ▸ folded_of_positions hv hn hks
    refine ⟨fun hnone => ?_, fun x c hx hzero hfirst hc => ?_⟩
    · obtain ⟨hcheck, hencode⟩ := rule_of_checkIndex_error (checkIndex_of_none hfolded (rsolve_eq_none.mpr hnone))
      exact ⟨exec_of_error (i := .dmCheck) hcheck ⟨rfl, rfl, rfl⟩, exec_of_error (i := .dmEncode) hencode ⟨rfl, rfl, rfl⟩⟩
    · have hindex := checkIndex_of_some hfolded (rsolve_eq_some.mpr ⟨hx, hzero, hfirst⟩)
      exact ⟨execute_dmCheck hindex hc,
        fun hlen => exec_of_error (i := .dmEncode) (ruleDmEncode_full hindex hlen) ⟨rfl, rfl, rfl⟩,
        execute_dmEncode hindex hc⟩

end Sys2Proof.Machine
end

section
/-!
SUPPORT. The properties of the code (R134 to R137, R141 to R144). Family 43_damm.md.
-/

namespace Sys2Proof.Machine

/-! ### What DM.VERIFY detects (R141 to R143) -/

/-- Settles O50: the check character takes the accumulator to 0. -/
theorem encodePassesVerify : Obligations.EncodePassesVerify := by
  intro P s hwf hv h10 hmem hlen
  obtain ⟨x, hx⟩ := exists_checkIndex hwf hv h10 hmem
  obtain ⟨c, hc⟩ := exists_check_character hwf hx
  exact ⟨_, _, execute_dmEncode hx hc hlen.ne, State.success_succeeded _, execute_dmVerify (folded_encoded hwf hx hc),
    State.success_succeeded _, rfl, rfl⟩

theorem ite_one_zero_eq_one {p : Prop} [Decidable p] : (if p then 1 else 0 : Word) = 1 ↔ p := by
  by_cases h : p <;> simp [h]

/-- R131: DM.VERIFY is true of a string of members with accumulator 0 alone. -/
theorem accumulator_eq_zero_of_verified {P : Params} {s t : State} (h : execute (ruleDmVerify P) s = .next t) (ht : t.Succeeded) (h1 : t.res0 = 1) :
    (∀ c ∈ s.str, c ∈ s.alpha) ∧ s.accumulator P = 0 := by
  obtain ⟨u, hu, rfl⟩ := execute_succeeded h ht
  cases hfolded : folded P s with
  | error f => rw [ruleDmVerify, hfolded] at hu; cases hu
  | ok acc =>
    obtain ⟨-, hmem, rfl⟩ := folded_eq_ok_iff.mp hfolded
    rw [ruleDmVerify, hfolded] at hu
    cases hu
    exact ⟨hmem, ite_one_zero_eq_one.mp h1⟩

/-- A string of members with another accumulator than a verified one is not verified. -/
theorem not_verified {P : Params} {s : State} {l : List Word} (hv : s.dmValid = true) (hzero : s.accumulator P = 0)
    (hmem : ∀ c ∈ l, c ∈ s.alpha) (hne : s.accumulator P ≠ (s.setStr l).accumulator P) :
    ∃ u, execute (ruleDmVerify P) (s.setStr l) = .next u ∧ u.Succeeded ∧ u.res0 = 0 := by
  refine ⟨_, execute_dmVerify (folded_eq_ok_iff.mpr ⟨hv, hmem, rfl⟩), State.success_succeeded _, ?_⟩
  exact if_neg fun h0 => hne (hzero.trans h0.symm)

/-- Settles O51: the Latin property keeps the two accumulators apart. -/
theorem substitutionIsDetected : Obligations.SubstitutionIsDetected := by
  intro P s t pos c hwf hv h10 hexec ht h1 hpos hc hne
  obtain ⟨hmem, hzero⟩ := accumulator_eq_zero_of_verified hexec ht h1
  have hsplit : s.str = s.str.take pos ++ s.str[pos] :: s.str.drop (pos + 1) := by simp
  have hbefore : ∀ e ∈ s.str.take pos, e ∈ s.alpha := fun e he => hmem e (List.mem_of_mem_take he)
  have hafter : ∀ e ∈ s.str.drop (pos + 1), e ∈ s.alpha := fun e he => hmem e (List.mem_of_mem_drop he)
  have hentry : s.str[pos] ≠ c := by simpa [hpos] using hne
  have hacc := accumulator_substitute_ne hwf hv hbefore hafter (hmem _ (List.getElem_mem hpos)) hc hentry h10
  rw [← hsplit] at hacc
  rw [List.set_eq_take_cons_drop c hpos]
  exact not_verified hv hzero (List.forall_mem_append.mpr ⟨hbefore, List.forall_mem_cons.mpr ⟨hc, hafter⟩⟩) hacc

/-- Settles O52: weak anti-symmetry tells the two orders of the pair apart, and the Latin property keeps them apart. -/
theorem adjacentTranspositionIsDetected : Obligations.AdjacentTranspositionIsDetected := by
  intro P s t before after x y hwf hv h10 hstr hne hexec ht h1
  obtain ⟨hmem, hzero⟩ := accumulator_eq_zero_of_verified hexec ht h1
  rw [hstr] at hmem
  obtain ⟨hbefore, hpair⟩ := List.forall_mem_append.mp hmem
  obtain ⟨hx, hrest⟩ := List.forall_mem_cons.mp hpair
  obtain ⟨hy, hafter⟩ := List.forall_mem_cons.mp hrest
  have hacc := accumulator_swap_ne hwf hv hbefore hafter hx hy hne h10
  rw [← hstr] at hacc
  exact not_verified hv hzero
    (List.forall_mem_append.mpr ⟨hbefore, List.forall_mem_cons.mpr ⟨hy, List.forall_mem_cons.mpr ⟨hx, hafter⟩⟩⟩) hacc

/-! ### The host fold (R134) -/

@[simp] theorem State.withResult_withResult (s : State) (v w : Nat) : (s.withResult v).withResult w = s.withResult w := by
  simp [State.withResult, State.success, State.setRes]

theorem ruleQgMul_passed {P : Params} {src : Source} {b : BitVec 32} {s : State} (hv : s.qg.valid = true)
    (hx : opA src s < s.qg.order) (hb : b.toNat < s.qg.order) :
    ruleQgMul P src b s = .ok (s.setRes (word (qmult P s.qg (opA src s) b.toNat)) 0) :=
  (ruleQgMul_eq_elementChecks P src b s).trans (elementChecks_passed hv hx hb)

/-- R134: QG.MUL.R commands carry the fold of their operands in RES0. -/
theorem runInstrs_qgMulR {s : State} {n : Nat} (hqg : classify Config.params n = .ok s.qg) :
    ∀ {vs : List (BitVec 32)} {acc : Nat}, acc < n → (∀ v ∈ vs, v.toNat < n) →
      runInstrs (vs.map .qgMulR) (s.withResult acc) =
        some (s.withResult ((vs.map BitVec.toNat).foldl (qmult Config.params s.qg) acc))
  | [], _, _, _ => rfl
  | v :: vs, acc, hacc, hvs => by
    obtain ⟨hv, hvs⟩ := List.forall_mem_cons.mp hvs
    obtain ⟨-, hmax, -⟩ := classify_eq_ok hqg
    obtain ⟨hvalid, horder⟩ := classify_valid_order hqg
    have hread : opA .res0 (s.withResult acc) = acc := opA_res0_withResult (d := 8) le_rfl (hacc.trans_le hmax)
    have hmul := ruleQgMul_passed (P := Config.params) (s := s.withResult acc) hvalid
      (by rw [hread]; exact hacc.trans_eq horder.symm) (hv.trans_eq horder.symm)
    rw [hread] at hmul
    have hexec : exec (.qgMulR v) (s.withResult acc) =
        .next ((s.withResult acc).withResult (qmult Config.params s.qg acc v.toNat)) := exec_of_ok (i := .qgMulR v) hmul
    rw [State.withResult_withResult] at hexec
    simp only [List.map_cons, List.foldl_cons, runInstrs, hexec]
    exact runInstrs_qgMulR hqg (qmult_closed hqg acc hacc _ hv) hvs

/-- R134: QG.FOLD leaves the fold of its operands from 0 in RES0. -/
theorem runInstrs_qgFold {s : State} {n : Nat} {v : BitVec 32} {vs : List (BitVec 32)} (hqg : classify Config.params n = .ok s.qg)
    (hlt : ∀ w ∈ v :: vs, w.toNat < n) :
    runInstrs (Pseudo.expand (.qgFold v vs)) s =
      some (s.withResult (((v :: vs).map BitVec.toNat).foldl (qmult Config.params s.qg) 0)) := by
  obtain ⟨hv, hvs⟩ := List.forall_mem_cons.mp hlt
  obtain ⟨hvalid, horder⟩ := classify_valid_order hqg
  have hpos : 0 < n := Nat.zero_lt_of_lt hv
  have hfirst : exec (.qgMul 0 v) s = .next (s.withResult (qmult Config.params s.qg 0 v.toNat)) :=
    exec_of_ok (i := .qgMul 0 v)
      (ruleQgMul_passed (src := .field 0) hvalid (hpos.trans_eq horder.symm) (hv.trans_eq horder.symm))
  rw [Pseudo.expand, runInstrs, hfirst]
  exact runInstrs_qgMulR hqg (qmult_closed hqg 0 hpos _ hv) hvs

theorem lt_length_of_positions {alpha str : List Word} {ks : List Nat} (h : str.map some = ks.map (fun k => alpha[k]?)) :
    ∀ k ∈ ks, k < alpha.length := by
  intro k hk
  have hentry : alpha[k]? ∈ str.map some := h ▸ List.mem_map_of_mem hk
  obtain ⟨c, -, hc⟩ := List.mem_map.mp hentry
  obtain ⟨hlt, -⟩ := List.getElem?_eq_some_iff.mp hc.symm
  exact hlt

/-- Settles O53: each command carries one step of the fold, and QG.MUL starts it from 0. -/
theorem hostFoldEqualsDmFold : Obligations.HostFoldEqualsDmFold := by
  intro s v vs hwf hv hstr
  have hqg := hwf.codec_built hv
  have hpositions : s.str.map some = ((v :: vs).map BitVec.toNat).map (fun k => s.alpha[k]?) := by rw [hstr, List.map_map]; rfl
  have hlt := lt_length_of_positions hpositions
  have hfolded := folded_of_positions (P := Config.params) hv (hwf.alpha_nodup hv) hpositions
  have hentry := List.getElem?_eq_getElem (foldl_lt (qmult_closed hqg) (hwf.alpha_pos hv) hlt)
  exact ⟨_, _, runInstrs_qgFold hqg (List.forall_mem_map.mp hlt), State.success_succeeded _, execute_dmProcess hfolded hentry,
    State.success_succeeded _, rfl⟩

/-! ### Short strings, associativity and the relations (R135 to R137, R144) -/

/-- Settles O54: in the odd-order table of order 5 the products are differences. -/
theorem foldIsNotAssociative : Obligations.FoldIsNotAssociative := by
  intro P c h
  obtain rfl : _ = c := Except.ok.inj ((classify_odd (by decide) (by decide) (by decide)).symm.trans h)
  rw [qmult_eq_oddTable]
  decide

theorem folded_empty {P : Params} {s : State} (hv : s.dmValid = true) (hstr : s.str = []) : folded P s = .ok 0 :=
  folded_eq_ok_iff.mpr ⟨hv, by simp [hstr], by simp [State.accumulator, hstr]⟩

theorem folded_single {P : Params} {s : State} {c : Word} {k : Nat} (hv : s.dmValid = true) (hn : s.alpha.Nodup)
    (hstr : s.str = [c]) (hk : s.alpha[k]? = some c) : folded P s = .ok (qmult P s.qg 0 k) :=
  folded_eq_ok_iff.mpr
    ⟨hv, by simpa [hstr] using List.mem_of_getElem? hk, by simp [State.accumulator, hstr, idxOf_of_nodup hn hk]⟩

/-- Settles O55: the empty string has accumulator 0, and a string of one entry of index `k` the product of 0 and `k`. -/
theorem emptyAndSingleStrings : Obligations.EmptyAndSingleStrings := by
  intro P s c₀ hwf hv h10 hc₀
  have hbuilt := hwf.codec_built hv
  have hnodup := hwf.alpha_nodup hv
  refine ⟨fun hstr => ?_, fun c k hstr hk => ⟨fun hstrat => ?_, fun hfixed => ?_⟩⟩
  · have hfolded : folded P s = .ok 0 := folded_empty hv hstr
    obtain ⟨x, hx⟩ := exists_rsolve hbuilt h10 (hwf.alpha_pos hv)
    have hindex := checkIndex_of_some hfolded hx
    obtain ⟨c, hc⟩ := exists_check_character hwf hindex
    refine ⟨⟨_, execute_dmProcess hfolded hc₀, State.success_succeeded _, rfl, rfl⟩,
      ⟨_, execute_dmVerify hfolded, State.success_succeeded _, rfl, rfl⟩,
      ⟨_, execute_dmCheck hindex hc, State.success_succeeded _, fun hzero => ?_, x, hx, rfl, hc⟩,
      ⟨_, execute_dmEncode hindex hc (by simp [hstr]), State.success_succeeded _, by simp [hstr]⟩⟩
    obtain rfl : x = 0 := Option.some.inj (hx.symm.trans (rsolve_zero_of_t10 hbuilt h10 hzero))
    exact Option.some.inj (hc.symm.trans hc₀)
  · have hfolded : folded P s = .ok (qmult P s.qg 0 k) := folded_single hv hnodup hstr hk
    obtain ⟨hlt, -⟩ := List.getElem?_eq_some_iff.mp hk
    rw [zero_qmult hbuilt hstrat k hlt] at hfolded
    refine ⟨⟨_, execute_dmProcess hfolded hk, State.success_succeeded _, rfl, rfl⟩,
      _, execute_dmVerify hfolded, State.success_succeeded _, ?_⟩
    calc (if k = 0 then 1 else 0 : Word) = 1
      _ ↔ k = 0 := ite_one_zero_eq_one
      _ ↔ s.alpha[0]? = some c := eq_zero_iff_neutral hnodup hk
      _ ↔ c = c₀ := by rw [hc₀, Option.some.injEq, eq_comm]
  · have hfolded : folded P s = .ok (qmult P s.qg 0 k) := folded_single hv hnodup hstr hk
    obtain ⟨hlt, -⟩ := List.getElem?_eq_some_iff.mp hk
    have hproduct := qmult_closed hbuilt 0 (hwf.alpha_pos hv) k hlt
    rw [qmult_of_fixed10 hfixed] at hfolded hproduct
    have hentry := List.getElem?_eq_getElem hproduct
    exact ⟨_, execute_dmProcess hfolded hentry, State.success_succeeded _, rfl, hentry⟩

/-- The fold reads the codec and the two lists. -/
theorem folded_congr {P : Params} {s t : State} (hv : t.dmValid = s.dmValid) (hqg : t.qg = s.qg) (halpha : t.alpha = s.alpha)
    (hstr : t.str = s.str) : folded P t = folded P s := by
  rw [folded, folded, fold, fold, hv, hqg, halpha, hstr]

/-- DM.ENCODE leaves the same string and codec whatever RES0 and RES1 hold before it. -/
theorem folded_encoded_setRes {P : Params} {s : State} {c r0 r1 : Word} {x : Nat} :
    folded P ((s.setRes r0 r1).success.encoded c x).success = folded P (s.encoded c x).success :=
  folded_congr rfl rfl rfl rfl

/-- Settles O56: no fold command but DM.ENCODE changes what the fold reads, and after it the accumulator is 0. -/
theorem foldCommandRelations : Obligations.FoldCommandRelations := by
  intro P s hwf hv h10 hmem hlen
  have hfolded : folded P s = .ok (s.accumulator P) := folded_eq_ok_iff.mpr ⟨hv, hmem, rfl⟩
  obtain ⟨c₀, hc₀⟩ : ∃ c₀, s.alpha[0]? = some c₀ := ⟨_, List.getElem?_eq_getElem (hwf.alpha_pos hv)⟩
  obtain ⟨p, hp⟩ : ∃ p, s.alpha[s.accumulator P]? = some p := ⟨_, List.getElem?_eq_getElem (accumulator_lt hwf hv hmem)⟩
  obtain ⟨x, hx⟩ := exists_checkIndex hwf hv h10 hmem
  obtain ⟨c, hc⟩ := exists_check_character hwf hx
  have hencode : execute (ruleDmEncode P) (s.setRes c (word x)).success = .next ((s.setRes c (word x)).success.encoded c x).success :=
    execute_dmEncode hx hc hlen.ne
  have hencoded : folded P ((s.setRes c (word x)).success.encoded c x).success = .ok 0 :=
    folded_encoded_setRes.trans (folded_encoded hwf hx hc)
  exact ⟨_, _, _, _, _, execute_dmCheck hx hc, hencode, execute_dmProcess hfolded hp, execute_dmVerify hfolded,
    execute_dmProcess hencoded hc₀, State.success_succeeded _, State.success_succeeded _, State.success_succeeded _,
    State.success_succeeded _, State.success_succeeded _, rfl, rfl, rfl, hc₀, rfl, rfl,
    ite_one_zero_eq_one.trans (eq_zero_iff_neutral (hwf.alpha_nodup hv) hp)⟩

end Sys2Proof.Machine
end

section
/-!
SUPPORT. The control commands (R145, R146): both rules always succeed, and success keeps a cleared STATUS cleared. Family 44_control.md.
-/

namespace Sys2Proof.Machine

/-- R153: a success writes CODE 0 and DETAIL 0 and keeps STICKY, so a STATUS of 0 stays 0. -/
theorem statusOnSuccess_zero : statusOnSuccess 0 = 0 := by decide

/-- What CLRSTAT's rule computes is what it leaves: its completion finds STATUS 0. -/
theorem success_cleared (s : State) : ((s.setStatus 0).setErrpos 0).success = (s.setStatus 0).setErrpos 0 :=
  congrArg (State.setStatus ((s.setStatus 0).setErrpos 0)) statusOnSuccess_zero

/-- R145: NOP leaves what every success leaves of the state before it. -/
theorem exec_nop (s : State) : exec .nop s = .next s.success := exec_of_ok (i := .nop) rfl

/-- R146: CLRSTAT leaves STATUS 0 and ERRPOS 0, STICKY's bit among them. -/
theorem exec_clrstat (s : State) : exec .clrstat s = .next ((s.setStatus 0).setErrpos 0) := by
  have hcompleted : exec .clrstat s = .next ((s.setStatus 0).setErrpos 0).success := exec_of_ok (i := .clrstat) rfl
  rw [hcompleted, success_cleared]

/-- Settles O20: OP alone selects both commands, and neither reads an operand or has a check. -/
theorem nopAndClrstatRules : Obligations.NopAndClrstatRules :=
  ⟨fun _ _ => (decode_toWord _).trans rfl, fun _ _ => (decode_toWord _).trans rfl, fun s => ⟨exec_nop s, exec_clrstat s⟩⟩

end Sys2Proof.Machine
end

section
/-!
SUPPORT. How a command ends (R150 to R158): it always answers a next state, it succeeds or fails whole, and it fails only as the table of
R152, R155 and R157 lets it; where a search cannot come up empty (R158), its failure is struck from the table. Family 60_exceptions.md.
-/

namespace Sys2Proof.Machine

/-! ### Every command and every step answers (R150, R185) -/

theorem exec_answers (i : Instr) (s : State) : ∃ t, exec i s = .next t := ⟨_, (exec_eq_execute i s).trans (execute_eq _ s)⟩

theorem execWord_answers (w : Command) (s : State) : ∃ t, execWord w s = .next t := by
  cases hd : decode w with
  | ok i => rw [execWord_of_decode hd]; exact exec_answers i s
  | error e => exact ⟨illegalCommand e s, by rw [execWord, hd]⟩

/-- Settles O2: a command completes its rule, and a step is such a command or a move that cannot fail. -/
theorem everyStepAnswersNext : Obligations.EveryStepAnswersNext := by
  refine ⟨exec_answers, fun s => ?_⟩
  cases hm : s.hostMoves with
  | nil => exact ⟨s, step_idle hm⟩
  | cons m rest =>
    cases m with
    | command w => rw [step_command hm]; exact execWord_answers w _
    | read a => exact ⟨_, step_read hm⟩
    | reset lost => exact ⟨_, step_reset hm⟩

/-! ### A command succeeds or fails whole (R153, R154) -/

theorem Writes.errpos_frame {P : Params} {s u : State} {i : Instr} (h : Writes P s i u) : u.errpos = s.errpos ∨ i = .clrstat := by
  cases h with
  | clrstat => exact .inr rfl
  | _ => exact .inl rfl

/-- R153: but for CLRSTAT, a success keeps STICKY and ERRPOS. -/
theorem Writes.success_keeps {P : Params} {s u : State} {i : Instr} (h : Writes P s i u) (hi : i ≠ .clrstat) :
    statusSticky u.success.status = statusSticky s.status ∧ u.success.errpos = s.errpos := by
  rw [State.success_status, statusSticky_statusWord, h.status_frame.resolve_right hi]
  exact ⟨rfl, h.errpos_frame.resolve_right hi⟩

/-- R154: only codes 4 and 5 come with a list position. -/
theorem ErrorKind.not_positional {k : ErrorKind} (h4 : k.code.toNat ≠ 4) (h5 : k.code.toNat ≠ 5) : k.positional = false := by
  cases k with
  | foreignCharacter => exact absurd rfl h4
  | invalidAlphabet => exact absurd rfl h5
  | _ => rfl

/-- Settles O16: a success completes its writes, of which only CLRSTAT's reach STICKY and ERRPOS; a failure is taken from the state before. -/
theorem commandSucceedsOrFailsWhole : Obligations.CommandSucceedsOrFailsWhole := by
  intro i s
  cases hr : commandRule Config.params i s with
  | ok u =>
    exact ⟨_, exec_of_ok hr, .inl ⟨statusCode_statusWord _ _ _, statusDetail_statusWord _ _ _, (writes_of_commandRule hr).success_keeps⟩⟩
  | error f =>
    obtain ⟨hcode, h9⟩ := f.kind.code_range
    refine ⟨_, (exec_eq_execute i s).trans (execute_error hr), .inr ⟨_, _, _, ?_, h9, fun h4 h5 => ?_, rfl⟩⟩
    · exact Nat.one_le_iff_ne_zero.mpr (toNat_ne_zero hcode)
    · rw [ErrorKind.not_positional h4 h5]
      rfl

/-! ### Failures within a table (R152, R155, R157) -/

/-- CODE and DETAIL of a failure. -/
def Failure.reported (f : Failure) : Nat × Nat := (f.kind.code.toNat, f.detail)

theorem Failure.reported_eq {f : Failure} {k : ErrorKind} (h : f.kind = k) : f.reported = (k.code.toNat, f.detail) := h ▸ rfl

@[simp] theorem reported_invalidElement (mask : Nat) : (invalidElement mask).reported = (1, mask) := rfl

/-- Every failure of `r` has its CODE and DETAIL in the table. -/
def FailsWithin {α : Type} (table : List (Nat × Nat)) (r : Except Failure α) : Prop := ∀ f, r = .error f → f.reported ∈ table

/-- What STATUS shows of a failing command is in its rule's table; DETAIL is the low byte, R23. -/
theorem status_of_failsWithin {table : List (Nat × Nat)} {rule : State → Result} {s t : State} (hrule : FailsWithin table (rule s))
    (h : execute rule s = .next t) (hcode : statusCode t.status ≠ 0) :
    ∃ p ∈ table, (statusCode t.status).toNat = p.1 ∧ (statusDetail t.status).toNat = p.2 % 2 ^ 8 := by
  obtain ⟨u, -, rfl⟩ | ⟨f, hf, rfl⟩ := execute_cases h
  · exact absurd (statusCode_statusWord _ _ _) hcode
  · refine ⟨_, hrule f hf, ?_⟩
    rw [raise_status, statusOnFailure, statusCode_statusWord, statusDetail_statusWord]
    exact ⟨rfl, BitVec.toNat_ofNat _ _⟩

section
variable {α : Type} {table : List (Nat × Nat)}

theorem failsWithin_ok (x : α) : FailsWithin table (.ok x) := fun _ h => nomatch h

theorem failsWithin_error {f : Failure} (hf : f.reported ∈ table) : FailsWithin table (.error f : Except Failure α) :=
  fun _ h => Except.error.inj h ▸ hf

theorem failsWithin_failIf {c : Bool} {f : Failure} {k : Result} (hf : c = true → f.reported ∈ table)
    (hk : c = false → FailsWithin table k) : FailsWithin table (failIf c f k) := by
  cases c
  · exact hk rfl
  · exact failsWithin_error (hf rfl)

end

/-! ### The failures of the GF unit -/

/-- R84: a mask that is not 0 has bit 0, bit 1 or both. -/
theorem invalidMask_cases {n a b : Nat} (h : invalidMask n a b ≠ 0) :
    invalidMask n a b = 1 ∨ invalidMask n a b = 2 ∨ invalidMask n a b = 3 := by
  obtain ha | ha := Nat.lt_or_ge a n <;> obtain hb | hb := Nat.lt_or_ge b n
  · exact absurd (invalidMask_eq_zero_iff.mpr ⟨ha, hb⟩) h
  · exact .inr (.inl (invalidMask_right ha hb))
  · exact .inl (invalidMask_left ha hb)
  · exact .inr (.inr (invalidMask_both ha hb))

theorem elementChecks_failsWithin {valid : Bool} {f : Failure} {order x y : Nat} {u : State} :
    FailsWithin [f.reported, (1, 1), (1, 2), (1, 3)] (elementChecks valid f order x y (.ok u)) := by
  refine failsWithin_failIf (fun _ => .head _) fun _ => failsWithin_failIf (fun hmask => ?_) fun _ => failsWithin_ok u
  obtain h | h | h := invalidMask_cases (bne_iff_ne.mp hmask) <;> simp [h]

theorem ruleGfCfg_failsWithin {P : Params} {a : BitVec 16} {s : State} : FailsWithin [(6, 1), (6, 2)] (ruleGfCfg P a s) :=
  failsWithin_failIf (fun _ => by decide) fun _ => failsWithin_failIf (fun _ => by decide) fun _ => failsWithin_ok _

theorem ruleGfReduce_failsWithin {b : BitVec 32} {s : State} : FailsWithin [(7, 1)] (ruleGfReduce b s) :=
  failsWithin_failIf (fun _ => by decide) fun _ => failsWithin_ok _

theorem ruleGfInv_failsWithin {src : Source} {s : State} : FailsWithin [(7, 1), (1, 1), (2, 1)] (ruleGfInv src s) := by
  refine failsWithin_failIf (fun _ => by decide) fun _ => failsWithin_failIf (fun _ => by decide) fun _ => ?_
  cases gfinv s.gf.deg s.gf.poly (opA src s) with
  | none => exact failsWithin_error (by decide)
  | some p => exact failsWithin_ok _

/-- R90: the first check has the divisor in its mask, so it reports 2 or 3; DETAIL 1 is the dividend's own check. -/
theorem ruleGfDiv_failsWithin {src : Source} {b : BitVec 32} {s : State} :
    FailsWithin [(7, 1), (1, 2), (1, 3), (2, 1), (1, 1)] (ruleGfDiv src b s) := by
  refine failsWithin_failIf (fun _ => by decide) fun _ => failsWithin_failIf (fun hb => ?_) fun _ =>
    failsWithin_failIf (fun _ => by decide) fun _ => failsWithin_failIf (fun _ => by decide) fun _ => ?_
  · have hb : 2 ^ s.gf.deg ≤ opB b := of_decide_eq_true hb
    obtain hx | hx := Nat.lt_or_ge (opA src s) (2 ^ s.gf.deg)
    · simp [invalidMask_right hx hb]
    · simp [invalidMask_both hx hb]
  · cases gfinv s.gf.deg s.gf.poly (opB b) with
    | none => exact failsWithin_error (by decide)
    | some p => exact failsWithin_ok _

/-! ### The failures of the QG unit -/

theorem classify_failsWithin {P : Params} {n : Nat} : FailsWithin [(3, 1), (3, 2), (3, 3), (3, 4), (3, 5)] (classify P n) := by
  intro f hf
  obtain ⟨hkind, h1, h5, -⟩ := classify_eq_error hf
  have hdetail : f.detail = 1 ∨ f.detail = 2 ∨ f.detail = 3 ∨ f.detail = 4 ∨ f.detail = 5 := by omega
  simpa [Failure.reported_eq hkind, ErrorKind.code] using hdetail

theorem ruleQgBuild_failsWithin {P : Params} {a : BitVec 16} {s : State} :
    FailsWithin [(3, 1), (3, 2), (3, 3), (3, 4), (3, 5)] (ruleQgBuild P a s) := by
  have hclassify := classify_failsWithin (P := P) (n := opA (.field a) s)
  rw [ruleQgBuild]
  cases hc : classify P (opA (.field a) s) with
  | error f => exact failsWithin_error (hclassify f hc)
  | ok c => exact failsWithin_ok _

/-- R107: QG.INV reports its two checks, and the search's failure only where the search finds nothing. -/
theorem ruleQgInv_failsWithin {P : Params} {src : Source} {s : State} {table : List (Nat × Nat)} (htable : [(7, 2), (1, 1)] ⊆ table)
    (hnone : s.qg.valid = true → opA src s < s.qg.order → linv P s.qg (opA src s) = none → (2, 2) ∈ table) :
    FailsWithin table (ruleQgInv P src s) := by
  refine failsWithin_failIf (fun _ => htable (.head _)) fun hv =>
    failsWithin_failIf (fun _ => htable (.tail _ (.head _))) fun hx => ?_
  cases h : linv P s.qg (opA src s) with
  | none => exact failsWithin_error (hnone (by simpa using hv) (by simpa using hx) h)
  | some p => exact failsWithin_ok _

/-! ### The failures of the DM engine -/

theorem ruleAlPush_failsWithin {b : BitVec 32} {s : State} : FailsWithin [(9, 1)] (ruleAlPush b s) :=
  failsWithin_failIf (fun _ => by decide) fun _ => failsWithin_ok _

theorem ruleAlRd_failsWithin {a : BitVec 16} {s : State} : FailsWithin [(9, 2)] (ruleAlRd a s) := by
  rw [ruleAlRd]
  cases s.alpha[opA (.field a) s]? with
  | none => exact failsWithin_error (by decide)
  | some c => exact failsWithin_ok _

theorem ruleStPush_failsWithin {b : BitVec 32} {s : State} : FailsWithin [(9, 3)] (ruleStPush b s) :=
  failsWithin_failIf (fun _ => by decide) fun _ => failsWithin_ok _

theorem ruleStRd_failsWithin {a : BitVec 16} {s : State} : FailsWithin [(9, 4)] (ruleStRd a s) := by
  rw [ruleStRd]
  cases s.str[opA (.field a) s]? with
  | none => exact failsWithin_error (by decide)
  | some c => exact failsWithin_ok _

/-- R126: DM.INIT reports a defect of the alphabet or a failure of the dispatch. -/
theorem ruleDmInit_failsWithin {P : Params} {s : State} :
    FailsWithin [(5, 1), (5, 2), (3, 1), (3, 2), (3, 3), (3, 4), (3, 5)] (ruleDmInit P s) := by
  intro f hf
  obtain hdefect | ⟨-, horder⟩ := ruleDmInit_eq_error.mp hf
  · obtain ⟨hkind, hdetail⟩ := alphabetDefect_eq_some hdefect
    simpa [Failure.reported_eq hkind, ErrorKind.code] using hdetail
  · exact .tail _ (.tail _ (classify_failsWithin f horder))

theorem folded_failsWithin {P : Params} {s : State} : FailsWithin [(7, 3), (4, 0)] (folded P s) := by
  cases hv : s.dmValid with
  | false => rw [folded_without_codec hv]; exact failsWithin_error (by decide)
  | true =>
    rw [folded_with_codec hv, fold]
    cases hks : indicesFrom s.alpha 0 s.str with
    | ok ks => exact failsWithin_ok _
    | error f =>
      obtain ⟨hkind, hdetail⟩ := indicesFrom_eq_error hks
      exact failsWithin_error (by rw [Failure.reported_eq hkind, hdetail]; decide)

theorem ruleDmProcess_failsWithin {P : Params} {s : State} : FailsWithin [(7, 3), (4, 0)] (ruleDmProcess P s) := by
  rw [ruleDmProcess]
  cases h : folded P s with
  | error f => exact failsWithin_error (folded_failsWithin f h)
  | ok acc => exact failsWithin_ok _

theorem ruleDmVerify_failsWithin {P : Params} {s : State} : FailsWithin [(7, 3), (4, 0)] (ruleDmVerify P s) := by
  rw [ruleDmVerify]
  cases h : folded P s with
  | error f => exact failsWithin_error (folded_failsWithin f h)
  | ok acc => exact failsWithin_ok _

section
variable {P : Params} {s : State} {table : List (Nat × Nat)}

/-- R132: the opening of DM.CHECK and DM.ENCODE reports the fold's failures, and the search's only where the search finds nothing. -/
theorem checkIndex_failsWithin (htable : [(7, 3), (4, 0)] ⊆ table)
    (hnone : ∀ acc, folded P s = .ok acc → rsolve P s.qg acc = none → (2, 3) ∈ table) : FailsWithin table (checkIndex P s) := by
  cases hfolded : folded P s with
  | error f => rw [checkIndex_of_error hfolded]; exact failsWithin_error (htable (folded_failsWithin f hfolded))
  | ok acc =>
    cases h : rsolve P s.qg acc with
    | none => rw [checkIndex_of_none hfolded h]; exact failsWithin_error (hnone acc hfolded h)
    | some x => rw [checkIndex_of_some hfolded h]; exact failsWithin_ok x

theorem ruleDmCheck_failsWithin (hindex : FailsWithin table (checkIndex P s)) : FailsWithin table (ruleDmCheck P s) := by
  rw [ruleDmCheck]
  cases h : checkIndex P s with
  | error f => exact failsWithin_error (hindex f h)
  | ok x => exact failsWithin_ok _

theorem ruleDmEncode_failsWithin (hindex : FailsWithin table (checkIndex P s)) (hfull : (9, 3) ∈ table) :
    FailsWithin table (ruleDmEncode P s) := by
  rw [ruleDmEncode]
  cases h : checkIndex P s with
  | error f => exact failsWithin_error (hindex f h)
  | ok x => exact failsWithin_failIf (fun _ => hfull) fun _ => failsWithin_ok _

end

/-! ### The table of every command -/

theorem commandRule_failsWithin {P : Params} {s : State} (i : Instr) : FailsWithin (failuresOf i) (commandRule P i s) := by
  cases i with
  | nop | clrstat | alClr | stClr => exact failsWithin_ok _
  | gfCfg a => exact ruleGfCfg_failsWithin
  | gfReduce b => exact ruleGfReduce_failsWithin
  | gfAdd a b | gfAddR b | gfMul a b | gfMulR b => exact elementChecks_failsWithin (f := gfNotConfigured)
  | gfInv a | gfInvR => exact ruleGfInv_failsWithin
  | gfDiv a b | gfDivR b => exact ruleGfDiv_failsWithin
  | qgBuild a => exact ruleQgBuild_failsWithin
  | qgMul a b | qgMulR b => exact elementChecks_failsWithin (f := qgNotConfigured)
  | qgInv a | qgInvR => exact ruleQgInv_failsWithin (table := [(7, 2), (1, 1), (2, 2)]) (by decide) fun _ _ _ => by decide
  | alPush b => exact ruleAlPush_failsWithin
  | alRd a => exact ruleAlRd_failsWithin
  | dmInit => exact ruleDmInit_failsWithin
  | stPush b => exact ruleStPush_failsWithin
  | stRd a => exact ruleStRd_failsWithin
  | dmProcess => exact ruleDmProcess_failsWithin
  | dmVerify => exact ruleDmVerify_failsWithin
  | dmCheck => exact ruleDmCheck_failsWithin (checkIndex_failsWithin (by decide) fun _ _ _ => by decide)
  | dmEncode => exact ruleDmEncode_failsWithin (checkIndex_failsWithin (by decide) fun _ _ _ => by decide) (by decide)

/-- R155: every DETAIL of the table fits its byte. -/
theorem failuresOf_detail_lt {i : Instr} : ∀ p ∈ failuresOf i, p.2 < 2 ^ 8 := by
  cases i <;> simp [failuresOf]

/-- Settles O17: by the table of the command's rule. -/
theorem failuresWithinTable : Obligations.FailuresWithinTable := by
  intro i s t h hcode
  obtain ⟨p, hp, hpcode, hpdetail⟩ :=
    status_of_failsWithin (commandRule_failsWithin i) ((exec_eq_execute i s).symm.trans h) hcode
  rwa [hpcode, hpdetail, Nat.mod_eq_of_lt (failuresOf_detail_lt p hp)]

/-! ### The searches that cannot fail (R158) -/

section
variable {P : Params} {s : State} (hwf : s.WellFormed P) (h10 : s.qg.strat = .fixed10 → P.T10Latin)
include hwf h10

/-- R108: every element of a built quasigroup has a left inverse. -/
theorem ruleQgInv_failsWithin_checks {src : Source} : FailsWithin [(7, 2), (1, 1)] (ruleQgInv P src s) :=
  ruleQgInv_failsWithin (List.Subset.refl _) fun hv hx hnone => by
    obtain ⟨p, hp⟩ := exists_linv (hwf.qg.built hv) h10 hx
    cases hnone.symm.trans hp

/-- R108: every accumulator has a right solution. -/
theorem checkIndex_failsWithin_fold {table : List (Nat × Nat)} (htable : [(7, 3), (4, 0)] ⊆ table) :
    FailsWithin table (checkIndex P s) :=
  checkIndex_failsWithin htable fun acc hfolded hnone => by
    obtain ⟨hv, hmem, -⟩ := folded_eq_ok_iff.mp hfolded
    obtain ⟨x, hx⟩ := exists_checkIndex hwf hv h10 hmem
    cases (checkIndex_of_none hfolded hnone).symm.trans hx

end

/-- A rule whose table lists no NoInverseExists (CODE 2) does not report it. -/
theorem statusCode_ne_two {table : List (Nat × Nat)} {rule : State → Result} {s t : State} (hrule : FailsWithin table (rule s))
    (htable : ∀ p ∈ table, p.1 ≠ 2) (h : execute rule s = .next t) : statusCode t.status ≠ 2 := by
  intro h2
  obtain ⟨p, hp, hcode, -⟩ := status_of_failsWithin hrule h (by rw [h2]; decide)
  rw [h2] at hcode
  exact htable p hp hcode.symm

/-- Settles O57: in a Latin square both searches succeed (R108), which leaves each rule a table without CODE 2. -/
theorem internalConsistencyErrorsUnreachable : Obligations.InternalConsistencyErrorsUnreachable := by
  rintro P s t rule hwf h10 (⟨src, rfl⟩ | rfl | rfl) h
  · exact statusCode_ne_two (ruleQgInv_failsWithin_checks hwf h10) (by decide) h
  · exact statusCode_ne_two (ruleDmCheck_failsWithin (checkIndex_failsWithin_fold hwf h10 (List.Subset.refl _))) (by decide) h
  · exact statusCode_ne_two (table := [(7, 3), (4, 0), (9, 3)])
      (ruleDmEncode_failsWithin (checkIndex_failsWithin_fold hwf h10 (by decide)) (by decide)) (by decide) h

end Sys2Proof.Machine
end

section
/-!
SUPPORT. What the model itself chooses: its test for IRRED against R7's premises (R7, R17), the host's side of the step (logs 1 to 4), the
sample words of the opcode map (R64), and the block's parameters behind `exec` (R31).
-/

namespace Sys2Proof.Machine

open Polynomial

/-! ### The test for IRRED (R7, R17) -/

/-- Over GF(2) the constant 1 is the only unit. -/
theorem isUnit_toPoly_iff {n : Nat} : IsUnit (toPoly n) ↔ n = 1 := by
  constructor
  · intro h
    have hlt : n < 2 ^ 1 := degree_toPoly_lt_iff.mp (by rw [degree_eq_zero_of_isUnit h]; decide)
    have hn0 : n ≠ 0 := by rintro rfl; exact h.ne_zero toPoly_zero
    omega
  · rintro rfl
    rw [toPoly_one]
    exact isUnit_one

theorem toPoly_dvd_iff {q p : Nat} : toPoly q ∣ toPoly p ↔ ∃ r, clmul q r = p := by
  constructor
  · rintro ⟨f, hf⟩
    obtain ⟨r, rfl⟩ := toPoly_surjective f
    exact ⟨r, toPoly_injective (by rw [toPoly_clmul, hf])⟩
  · rintro ⟨r, rfl⟩
    exact ⟨toPoly r, toPoly_clmul q r⟩

/-- R17: an admissible polynomial has no factors but 1 and itself. -/
theorem eq_one_or_eq_one_of_admissible {d p q r : Nat} (hd : 1 ≤ d) (h : Admissible d p) (hqr : clmul q r = p) : q = 1 ∨ r = 1 := by
  have hprod : toPoly p = toPoly q * toPoly r := by rw [← hqr, toPoly_clmul]
  exact ((irreducible_of_admissible hd h).isUnit_or_isUnit hprod).imp isUnit_toPoly_iff.mp isUnit_toPoly_iff.mp

/-- R17: a number without factors passes the trial division, because a divisor that is neither 1 nor `p` would be one. -/
theorem polyDivides_eq_false_of_no_factors {p q : Nat} (hfactors : ∀ q r, clmul q r = p → q = 1 ∨ r = 1) (hq : 2 ≤ q) (hqp : q < p) :
    polyDivides q p = false := by
  rw [Bool.eq_false_iff, Ne, polyDivides_iff (by omega), toPoly_dvd_iff]
  rintro ⟨r, hqr⟩
  obtain rfl | rfl := hfactors q r hqr
  · omega
  · rw [clmul_one] at hqr
    omega

/-- Settles O30: the test makes the polynomial irreducible, and a polynomial without factors has no divisor to fail it. -/
theorem admissibleMeansIrreducible : Obligations.AdmissibleMeansIrreducible := by
  intro d p hd
  constructor
  · intro h
    have ⟨hle, hlt, hodd, _⟩ := h
    exact ⟨hle, hlt, hodd, fun _ _ => eq_one_or_eq_one_of_admissible hd h⟩
  · rintro ⟨hle, hlt, hodd, hfactors⟩
    exact ⟨hle, hlt, hodd, fun _ hqd hq => polyDivides_eq_false_of_no_factors hfactors hq (hqd.trans_le hle)⟩

/-! ### The host's side of the step (logs 1 to 4) -/

/-- Settles O5: the three moves of the step, a read's value being the same before and after its move is taken. -/
theorem hostSideOfTheStep : Obligations.HostSideOfTheStep := by
  refine ⟨fun s lost rest h => step_reset h, fun s a rest h => ?_, fun s h => step_idle h⟩
  rw [step_read h, hostRead, (sameBlock_setMoves s rest).readReg_eq]
  rfl

/-! ### Sample words (R64) -/

theorem decode_of_encode_eq {i : Instr} {w : Command} (h : encode i = w) : decode w = .ok i := h ▸ decodeEncodeRoundTrip i

/-- Settles O13: seven of the words are what the encoder writes; the first is NOP's with every bit of its two unread fields set. -/
theorem sampleWordsDecode : Obligations.SampleWordsDecode :=
  ⟨(decode_toWord ⟨0x01, 0, false, 0xFFFF, 0xFFFFFFFF⟩).trans rfl, decode_of_encode_eq (by decide), decode_of_encode_eq (by decide),
    decode_of_encode_eq (by decide), decode_of_encode_eq (by decide), decode_of_encode_eq (by decide),
    decode_of_encode_eq (by decide), decode_of_encode_eq (by decide)⟩

/-! ### The block's parameters (R31) -/

/-- Settles O49: `exec` of every command is its rule at `Config.params`, so of these eleven. -/
theorem commandsRunAtBlockParameters : Obligations.CommandsRunAtBlockParameters :=
  fun s a b => ⟨exec_eq_execute (.gfCfg a) s, exec_eq_execute (.qgBuild a) s, exec_eq_execute (.qgMul a b) s,
    exec_eq_execute (.qgMulR b) s, exec_eq_execute (.qgInv a) s, exec_eq_execute .qgInvR s, exec_eq_execute .dmInit s,
    exec_eq_execute .dmProcess s, exec_eq_execute .dmVerify s, exec_eq_execute .dmCheck s, exec_eq_execute .dmEncode s⟩

end Sys2Proof.Machine
end
